-- ==== Sys2Proof/Word.lean ====
section
/-! DEFINITION. The word and byte types of BDQ: registers and bus addresses are 32 bits, memory is made of bytes (R6, R60). -/

namespace Sys2Proof

/-- A 32-bit register value or bus address (R6). -/
abbrev Word := BitVec 32

/-- One byte of memory, or one colour channel (R6). -/
abbrev Byte := BitVec 8

end Sys2Proof
end

