-- ==== Sys2Proof/Config.lean ====
section
/-! DEFINITION. What an implementation fixes: the parameters of R6 as plain data, and the free values (opaque: nothing
can be proved about which value one is). -/

namespace Sys2Proof

/-- One palette entry: three 8-bit channels, no alpha (R30). -/
structure Rgb where
  r : Byte
  g : Byte
  b : Byte
  deriving DecidableEq, Repr

/-- PALETTE: sixteen entries, the order significant (R30). -/
structure Palette where
  p0 : Rgb
  p1 : Rgb
  p2 : Rgb
  p3 : Rgb
  p4 : Rgb
  p5 : Rgb
  p6 : Rgb
  p7 : Rgb
  p8 : Rgb
  p9 : Rgb
  p10 : Rgb
  p11 : Rgb
  p12 : Rgb
  p13 : Rgb
  p14 : Rgb
  p15 : Rgb
  deriving DecidableEq, Repr

/-- The entries in index order 0, 1, …, 15. -/
def Palette.toList (p : Palette) : List Rgb :=
  [p.p0, p.p1, p.p2, p.p3, p.p4, p.p5, p.p6, p.p7, p.p8, p.p9, p.p10, p.p11, p.p12, p.p13, p.p14, p.p15]

/-- The direction of one bus access of BDQ. It fixes the size: a read is 4 bytes, a write is 1 byte (R10, R65). -/
inductive Dir where
  | read
  | write
  deriving DecidableEq, Repr

/-- A range of addresses, both ends included, at which accesses of one direction return a bus error. MEM_ERR of R6 is a
predicate on (address, size, direction); as size follows from direction, every such predicate is a list of these
(DEDUCED, log entry 3). -/
structure ErrRegion where
  first : Word
  last  : Word
  dir   : Dir
  deriving DecidableEq, Repr

/-- One entry of RESTORE_SEQ: a 16-bit port and an 8-bit value (R186). -/
structure PortWrite where
  port  : BitVec 16
  value : Byte
  deriving DecidableEq, Repr

/-- The parameters of a model of BDQ (R6, R44): fixed for the machine, no step changes them. They are a field of State so
that every statement about all states speaks of every value of them (DESIGN CHOICE, log entry 1). -/
structure Config where
  /-- BDQ_BASE: the byte address of the register window (R20). -/
  base : Word
  /-- PALETTE (R30). -/
  palette : Palette
  /-- RESTORE_SEQ (R186). -/
  restoreSeq : List PortWrite
  /-- MEM_ERR (R10), as the list of regions where it holds. -/
  memErr : List ErrRegion
  deriving DecidableEq, Repr

/-- The n-th free byte: "any value" of R236, R262, R76 and R71 (c). No body: no proof can learn a value of it. -/
opaque Config.freeByte : Nat → Byte

/-- The n-th free number: how many events of a command cut off by reset had been delivered (R262 b). No body. -/
opaque Config.freeCount : Nat → Nat

end Sys2Proof
end

