-- ==== Sys2Proof/Syntax.lean ====
section
/-! DEFINITION. The commands of BDQ command set version 1, one constructor per row of the opcode map (R84). -/

namespace Sys2Proof

/-- The fifteen commands of R84. A command word carries no operand (R82): operands are latched registers, so no
constructor has a field. -/
inductive Instr where
  | nop
  | nearest
  | dthr
  | qpix
  | remap
  | qsurf8
  | lutinit
  | pair
  | pack8
  | align
  | packr
  | pflush
  | pfull
  | mark
  | clear
  deriving DecidableEq, Repr

/-- Every command, in the order of R84. -/
def Instr.all : List Instr :=
  [.nop, .nearest, .dthr, .qpix, .remap, .qsurf8, .lutinit, .pair, .pack8, .align, .packr, .pflush, .pfull, .mark, .clear]

end Sys2Proof
end

