-- ==== Sys2Proof/WellFormed.lean ====
section
/-! DEFINITION. What the spec requires of the data a model is given: of a command word (R86) and of the parameters
(R20, R30). A command itself has no field (R82), so every term of Instr is well-formed. -/

namespace Sys2Proof

/-- RSV, bits [31:8] of a command word, is zero (R81, R86). -/
def rsvZero (c : Word) : Bool := c.extractLsb' 8 24 == 0#24

/-- BDQ_BASE is 256-byte aligned (R6). -/
def Config.baseAligned (k : Config) : Bool := k.base.extractLsb' 0 8 == 0#8

/-- R30 (a): entry 7 is (0xAA, 0xAA, 0xAA). -/
def Palette.graySeven (p : Palette) : Bool := p.p7 == { r := 0xAA#8, g := 0xAA#8, b := 0xAA#8 }

/-- No entry of the list occurs again later in it. -/
def distinct : List Rgb → Bool
  | [] => true
  | c :: cs => !cs.contains c && distinct cs

/-- R30: entry 7 is gray and the sixteen entries are pairwise distinct. -/
def Palette.wf (p : Palette) : Bool := p.graySeven && distinct p.toList

/-- The parameters obey R6 and R30. -/
def Config.wf (k : Config) : Bool := k.baseAligned && k.palette.wf

end Sys2Proof
end

