-- ==== Sys2Proof/Decode.lean ====
section
/-! DEFINITION. The decoder, total on every 32-bit word (R88), and the encoder (R91), from the opcode map of R84. -/

namespace Sys2Proof

/-- The two ways a command word is refused (R85, R86). -/
inductive DecodeError where
  /-- OP is not in the opcode map (R85). -/
  | illegalOpcode
  /-- OP is legal and RSV is not zero (R86). -/
  | reservedBits
  deriving DecidableEq, Repr

/-- OP, bits [7:0] of a command word (R81). -/
def opField (c : Word) : BitVec 8 := c.extractLsb' 0 8

/-- The opcode map of R84, row by row. -/
def opcodeMap : List (BitVec 8 × Instr) :=
  [(0x00#8, .nop), (0x01#8, .nearest), (0x02#8, .dthr), (0x03#8, .qpix), (0x04#8, .remap), (0x05#8, .qsurf8),
   (0x10#8, .lutinit), (0x11#8, .pair), (0x12#8, .pack8), (0x13#8, .align), (0x14#8, .packr),
   (0x20#8, .pflush), (0x21#8, .pfull),
   (0x30#8, .mark), (0x31#8, .clear)]

/-- The command an OP names; none for every OP not in the map (R84, R85). -/
def decodeOp (op : BitVec 8) : Option Instr := (opcodeMap.find? fun row => row.1 == op).map fun row => row.2

/-- Decode order of R88: a legal OP first, then RSV = 0, then the command. -/
def decode (c : Word) : Except DecodeError Instr :=
  match decodeOp (opField c) with
  | none => .error .illegalOpcode
  | some i => if rsvZero c then .ok i else .error .reservedBits

/-- The opcode map of R84, read from command to OP. -/
def Instr.op : Instr → BitVec 8
  | .nop => 0x00#8
  | .nearest => 0x01#8
  | .dthr => 0x02#8
  | .qpix => 0x03#8
  | .remap => 0x04#8
  | .qsurf8 => 0x05#8
  | .lutinit => 0x10#8
  | .pair => 0x11#8
  | .pack8 => 0x12#8
  | .align => 0x13#8
  | .packr => 0x14#8
  | .pflush => 0x20#8
  | .pfull => 0x21#8
  | .mark => 0x30#8
  | .clear => 0x31#8

/-- The legal word of a command is its OP zero-extended (R81, R91). -/
def encode (i : Instr) : Word := i.op.zeroExtend 32

/-- The command word whose bits are w: bit 0 is the least significant bit of the one word a command has (R7, R80). Of w
only the low nbits count, and the bits above them are zero. -/
def commandWord (nbits w : Nat) : Word := BitVec.ofNat 32 (w % 2 ^ nbits)

/-- What the decoder reads from the command whose bits are w. -/
def decodeTableWord (nbits w : Nat) : Option Instr :=
  match decode (commandWord nbits w) with
  | .ok i => some i
  | .error _ => none

end Sys2Proof
end

