-- ==== Sys2Proof/Machine/HostSyntax.lean ====
section
/-! DEFINITION. What the host can do to BDQ and to memory (R89, R270), as data: the agents outside BDQ are inputs held in State. -/

namespace Sys2Proof.Machine

/-- The width of one host bus access. -/
inductive Width where
  | byte
  | half
  | word
  deriving DecidableEq, Repr

/-- One action of the host (R89, R270). A store or load goes to the register window when it touches it and to memory otherwise,
so `wr NAME, v` and `mw32 a, v` of R89 are both stores. -/
inductive HostAction where
  /-- A host store of the low bytes of value at byte address addr. -/
  | store (addr : Word) (width : Width) (value : Word)
  /-- A host load at byte address addr into host variable var. -/
  | load (addr : Word) (width : Width) (var : Nat)
  /-- Repeat a 32-bit load of STATUS into host variable var until its bit 0, BUSY, is 0 (R89). -/
  | poll (var : Nat)
  /-- Assert the reset input (R260). -/
  | reset
  deriving DecidableEq, Repr

/-- Who moves next while a command is accepted and not executed (R41). -/
inductive Turn where
  /-- The host acts, or time passes if it has nothing to do. -/
  | host
  /-- BDQ executes the latched command. -/
  | bdq
  deriving DecidableEq, Repr

end Sys2Proof.Machine
end

