-- ==== Sys2Proof/Machine/Memory.lean ====
section
/-! DEFINITION. Memory (R60, R62, R77): address and byte pairs in one canonical form, its reads and writes, and ranges of
addresses that wrap at 2^32 (R66). -/

namespace Sys2Proof.Machine

/-- Memory as its listed bytes: addresses strictly rising, no entry equal to what an unlisted address reads as. -/
abbrev Memory := List Host.Cell

/-- What an unlisted address reads as. DESIGN CHOICE: the spec makes the initial memory a parameter (R77, log entry 4). -/
def unlistedByte : Byte := 0#8

/-- The byte at address a. -/
def Memory.read : Memory → Nat → Byte
  | [], _ => unlistedByte
  | (x, v) :: m, a => if a = x then v else Memory.read m a

/-- Memory with byte v at address a, in canonical form again. -/
def Memory.write : Memory → Nat → Byte → Memory
  | [], a, v => if v = unlistedByte then [] else [(a, v)]
  | (x, w) :: m, a, v =>
    if a < x then (if v = unlistedByte then (x, w) :: m else (a, v) :: (x, w) :: m)
    else if a = x then (if v = unlistedByte then m else (a, v) :: m)
    else (x, w) :: Memory.write m a v

/-- Canonical from address lo on: rising addresses below 2^32, no entry equal to the unlisted byte. -/
def Memory.wfFrom (lo : Nat) : Memory → Bool
  | [] => true
  | (x, v) :: m => decide (lo ≤ x) && decide (x < 2 ^ 32) && decide (v ≠ unlistedByte) && Memory.wfFrom (x + 1) m

/-- The canonical form. -/
def Memory.wf (m : Memory) : Bool := Memory.wfFrom 0 m

/-- The byte at a bus address. -/
def byteAt (m : Memory) (a : Word) : Byte := Memory.read m a.toNat

/-- MemRead(a, 4) without its error case: little-endian, each address mod 2^32 (R10, R62, R66). -/
def read32 (m : Memory) (a : Word) : Word :=
  byteAt m (a + 3#32) ++ byteAt m (a + 2#32) ++ byteAt m (a + 1#32) ++ byteAt m a

/-- A range of bytes: len bytes from start on, addresses mod 2^32 (R66). -/
structure Range where
  start : Word
  len   : Nat
  deriving DecidableEq, Repr

/-- Address a lies in the range. -/
def covers (r : Range) (a : Word) : Bool := decide ((a - r.start).toNat < r.len)

/-- Address a lies in one of the ranges. -/
def coveredBy (rs : List Range) (a : Word) : Bool := rs.any fun r => covers r a

end Sys2Proof.Machine
end

