-- ==== Sys2Proof/Machine/Tables.lean ====
section
/-! DEFINITION. The constant tables of BDQ (TM R32, PL R33, ID R36) and the default values of the parameters
(PALETTE R31, RESTORE_SEQ R186). -/

namespace Sys2Proof.Machine

/-- ID: the ASCII codes of BDQ, then the command set version (R36). -/
def idWord : Word := 0x42445101#32

/-- The threshold sequence S of R32, row-major. -/
def thresholdSeq : List Nat := [0, 8, 2, 10, 12, 4, 14, 6, 3, 11, 1, 9, 15, 7, 13, 5]

/-- TM[y mod 4][x mod 4] = S[4*(y mod 4) + x mod 4] (R32). -/
def tm (y x : Nat) : Nat := thresholdSeq.getD (4 * (y % 4) + x % 4) 0

/-- PL[b][k]: plane k's bit of the left pixel (b[7:4]) above plane k's bit of the right pixel (b[3:0]) (R33). -/
def pl (b : Byte) (k : Nat) : Byte :=
  (BitVec.ofBool (b.getLsbD (4 + k)) ++ BitVec.ofBool (b.getLsbD k)).zeroExtend 8

/-- Palette entry i (R30). -/
def paletteEntry (p : Palette) (i : BitVec 4) : Rgb := p.toList.getD i.toNat p.p0

/-- A palette entry from its three channels as the table of R31 writes them. -/
def rgb (r g b : Nat) : Rgb := { r := BitVec.ofNat 8 r, g := BitVec.ofNat 8 g, b := BitVec.ofNat 8 b }

/-- The default PALETTE of R31, the standard 16-colour VGA palette. PRESUMED: R31 marks the entries other than 7 as general
knowledge (log entry 1). -/
def defaultPalette : Palette where
  p0 := rgb 0x00 0x00 0x00
  p1 := rgb 0x00 0x00 0xAA
  p2 := rgb 0x00 0xAA 0x00
  p3 := rgb 0x00 0xAA 0xAA
  p4 := rgb 0xAA 0x00 0x00
  p5 := rgb 0xAA 0x00 0xAA
  p6 := rgb 0xAA 0x55 0x00
  p7 := rgb 0xAA 0xAA 0xAA
  p8 := rgb 0x55 0x55 0x55
  p9 := rgb 0x55 0x55 0xFF
  p10 := rgb 0x55 0xFF 0x55
  p11 := rgb 0x55 0xFF 0xFF
  p12 := rgb 0xFF 0x55 0x55
  p13 := rgb 0xFF 0x55 0xFF
  p14 := rgb 0xFF 0xFF 0x55
  p15 := rgb 0xFF 0xFF 0xFF

/-- The default RESTORE_SEQ of R186: VGA Sequencer register 2 (Map Mask), then all four planes. PRESUMED (log entry 1). -/
def defaultRestoreSeq : List PortWrite :=
  [{ port := 0x03C4#16, value := 0x02#8 }, { port := 0x03C5#16, value := 0x0F#8 }]

/-- The parameters of State.reset: the defaults of R31 and R186; BDQ_BASE = 0 and no failing access are DESIGN CHOICE
(the spec leaves both open, log entry 2). -/
def defaultConfig : Config where
  base := 0#32
  palette := defaultPalette
  restoreSeq := defaultRestoreSeq
  memErr := []

/-- MEM_ERR(a, size, d): does the access at address a in direction d return a bus error (R6, R10)? -/
def memErrAt (k : Config) (a : Word) (d : Dir) : Bool :=
  k.memErr.any fun e => e.dir == d && decide (e.first ≤ a) && decide (a ≤ e.last)

end Sys2Proof.Machine
end

