-- ==== Sys2Proof/Machine/State.lean ====
section
/-! DEFINITION. The state of BDQ and of the agents around it as plain data, its reset value, and the reasons a step can stop. -/

namespace Sys2Proof.Machine

/-- The read/write registers of R22. Exactly these are copied into the command latch (R40). -/
structure Regs where
  /-- CTRL[0], HSEN (R28). -/
  hsen : Bool
  arg0 : Word
  arg1 : Word
  /-- No command of version 1 reads it (R82). -/
  arg2 : Word
  /-- No command of version 1 reads it (R82). -/
  arg3 : Word
  scrW : BitVec 16
  scrH : BitVec 16
  surfBase : Word
  surfW : BitVec 16
  surfH : BitVec 16
  outBase : Word
  deriving DecidableEq, Repr

/-- The hidden command latch: the command word and copies of the registers at acceptance (R40). -/
structure Latch where
  word : Word
  regs : Regs
  deriving DecidableEq, Repr

/-- The dirty-rectangle state: DV, DL, DT, DR, DB (R37). -/
structure Dirty where
  dv : Bool
  dl : BitVec 16
  dt : BitVec 16
  dr : BitVec 17
  db : BitVec 17
  deriving DecidableEq, Repr

/-- The error record: ERR, ERRCODE, ERRADDR, ERRCMD (R26, R39, R237). -/
structure ErrRec where
  err : Bool
  code : BitVec 4
  addr : Word
  cmd : Word
  deriving DecidableEq, Repr

/-- One event delivered to the Hardware Surface (R180). -/
inductive HsEvent where
  | selectPlane (k : BitVec 2)
  | copyIntoDevice (offset : Word) (bytes : List Byte)
  | outPort (port : BitVec 16) (value : Byte)
  deriving DecidableEq, Repr

/-- The bytes a command reads and its output range (R76, R266). -/
structure Footprint where
  reads : List Range
  writes : List Range
  deriving DecidableEq, Repr

/-- A place that holds a result computed from memory. -/
inductive Result where
  /-- Nibble j of REMAP's sixteen: bits [4j+3:4j] of RES0 for j < 8, of RES1 from j = 8 on (R113). -/
  | nibble (j : Nat)
  /-- The output byte at an address (R114, R144). -/
  | byte (a : Word)
  /-- Byte c that the delivered event number i carries (R188). -/
  | eventByte (i c : Nat)
  deriving DecidableEq, Repr

/-- One result of an executed command and the bytes of memory it depends on (R266). -/
structure Use where
  inputs : List Range
  result : Result
  deriving DecidableEq, Repr

/-- What host reads of RES0, RES1, the dirty registers and STATUS.LUTRDY show (R265). -/
structure Shown where
  res0 : Word
  res1 : Word
  lutrdy : Bool
  dirty : Dirty
  deriving DecidableEq, Repr

structure State where
  /-- The parameters (R6, R44); no step changes them. -/
  cfg : Config
  /-- The read/write registers (R22). -/
  regs : Regs
  res0 : Word
  res1 : Word
  /-- STATUS.LUTRDY (R42). -/
  lutrdy : Bool
  dirty : Dirty
  errs : ErrRec
  /-- The command latch; BUSY is "it holds a command" (R26, R40, R41, R43). -/
  latch : Option Latch
  mem : Memory
  /-- The events delivered to the Hardware Surface, oldest first (R11, R271). -/
  events : List HsEvent
  /-- The host's pending actions, next one first (R44: the host's program). -/
  host : List HostAction
  /-- What the host's loads returned, oldest first, under the host variable's number (R89). -/
  vars : List (Nat × Word)
  /-- Who moves next while BUSY = 1, one entry a step; when empty BDQ executes (R41; log entry 6). -/
  turns : List Turn
  /-- The values from before a CMD write, which host reads show until a STATUS read returns BUSY = 0 (R265, log entry 16); none
  when host reads show the registers themselves. -/
  held : Option Shown
  /-- What R266 tells the host to leave alone: from a CMD write until a STATUS read returns BUSY = 0 (log entry 11). -/
  hazard : Footprint
  /-- Bytes the host wrote or read against R266 since the present command was accepted (log entry 11). -/
  raced : List Word
  /-- The results of commands executed since a STATUS read last returned BUSY = 0, oldest first: what a later host access against
  R266 makes any value (log entry 11). -/
  uses : List Use
  /-- The number of the next free value (log entry 12). -/
  freeCtr : Nat
  deriving DecidableEq, Repr

/-- BDQ never stops: an error is recorded and the command ends (R241), every byte of memory exists (R60) and every register
holds a value at reset (R22). So there is no fault: this type has no constructor. -/
inductive Fault where
  deriving DecidableEq, Repr

/-- The reasons a step is refused. -/
inductive Refusal where
  /-- An arm of exec without a meaning yet; no arm of this model raises it. Safe. -/
  | notModelled (mnemonic : String)
  /-- Raised by a host store or load that touches the register window and is not a 32-bit access at a 4-aligned offset: the
  spec calls it unspecified and tells a model to refuse it (R20, R270, I3). Safe. -/
  | hostAccess
  deriving DecidableEq, Repr

/-- No byte is to be left alone. -/
def Footprint.empty : Footprint := { reads := [], writes := [] }

/-- The read/write registers after reset (R22). -/
def Regs.reset : Regs where
  hsen := false
  arg0 := 0#32
  arg1 := 0#32
  arg2 := 0#32
  arg3 := 0#32
  scrW := 0#16
  scrH := 0#16
  surfBase := 0#32
  surfW := 0#16
  surfH := 0#16
  outBase := 0#32

/-- The latch contents that stand for "empty" where a command's operands are asked for and none is latched. -/
def Latch.empty : Latch := { word := 0#32, regs := Regs.reset }

/-- The clean dirty state (R37, R43). -/
def Dirty.clean : Dirty := { dv := false, dl := 0#16, dt := 0#16, dr := 0#17, db := 0#17 }

/-- No error recorded (R43). -/
def ErrRec.none : ErrRec := { err := false, code := 0#4, addr := 0#32, cmd := 0#32 }

/-- The machine right after reset (R22, R43, R260): no command, nothing recorded, memory with nothing listed, no event
delivered and a host with nothing to do. The fields of the model's own (host, vars, turns, held, hazard, raced,
uses, freeCtr) and the parameters hold the values log entries 1, 2, 4, 5, 6, 11, 12, 16 and 22 name. -/
def State.reset : State where
  cfg := defaultConfig
  regs := Regs.reset
  res0 := 0#32
  res1 := 0#32
  lutrdy := false
  dirty := Dirty.clean
  errs := ErrRec.none
  latch := Option.none
  mem := []
  events := []
  host := []
  vars := []
  turns := []
  held := Option.none
  hazard := Footprint.empty
  raced := []
  uses := []
  freeCtr := 0

end Sys2Proof.Machine
end

