-- ==== Sys2Proof/Machine/Operands.lean ====
section
/-! DEFINITION. Every operand shape of R83, and the result packings that use the same fields. -/

namespace Sys2Proof.Machine

/-- Shape COLOR: R = v[23:16]; alpha v[31:24] is ignored (R83). -/
def redOf (v : Word) : Byte := v.extractLsb' 16 8

/-- Shape COLOR: G = v[15:8] (R83). -/
def greenOf (v : Word) : Byte := v.extractLsb' 8 8

/-- Shape COLOR: B = v[7:0] (R83). -/
def blueOf (v : Word) : Byte := v.extractLsb' 0 8

/-- The channels of a COLOR word (R63, R83). -/
def colourOf (v : Word) : Rgb := { r := redOf v, g := greenOf v, b := blueOf v }

/-- Shapes XY and WH: the low half, x or w (R83). -/
def loHalf (v : Word) : Nat := (v.extractLsb' 0 16).toNat

/-- Shapes XY and WH: the high half, y or h (R83). -/
def hiHalf (v : Word) : Nat := (v.extractLsb' 16 16).toNat

/-- Shape PAIR: b = v[7:0] (R83). -/
def pairByteOf (v : Word) : Byte := v.extractLsb' 0 8

/-- Shape IDX8: pixel i is v[31−4i : 28−4i] (R83). -/
def idx8 (v : Word) (i : Nat) : BitVec 4 := v.extractLsb' (28 - 4 * i) 4

/-- Shape IDX8: the eight pixels, left to right (R83). -/
def idx8List (v : Word) : List (BitVec 4) := (List.range 8).map (idx8 v)

/-- The concatenation {hi[15:0], lo[15:0]} of R153, R154, R190 and R191. -/
def halves (hi lo : Nat) : Word := BitVec.ofNat 16 hi ++ BitVec.ofNat 16 lo

/-- The concatenation {0x00, r, g, b} of R34 and R112. -/
def colourWord (c : Rgb) : Word := 0#8 ++ c.r ++ c.g ++ c.b

end Sys2Proof.Machine
end

