-- ==== Sys2Proof/Machine/Flags.lean ====
section
/-! DEFINITION. Every STATUS bit and how it changes: BUSY, LUTRDY, DIRTY, ERR and ERRCODE (R26), the error codes (R230), the
recording rule (R237) and the write-1-to-clear rule (R27). -/

namespace Sys2Proof.Machine

/-- STATUS.BUSY: a command has been accepted and not yet executed (R26). -/
def State.busy (s : State) : Bool := s.latch.isSome

/-- The error causes of R230. -/
inductive ErrorKind where
  | illegalOpcode
  | reservedBits
  | busyCommand
  | geometry
  | misaligned
  | busError
  deriving DecidableEq, Repr

/-- ERRCODE of an error (R230). -/
def ErrorKind.code : ErrorKind → BitVec 4
  | .illegalOpcode => 1#4
  | .reservedBits => 2#4
  | .busyCommand => 3#4
  | .geometry => 4#4
  | .misaligned => 5#4
  | .busError => 6#4

/-- What host reads of RES0, RES1, the dirty registers and LUTRDY show: the values held from before the CMD write until a STATUS read
has returned BUSY = 0, the registers themselves after that (R265; log entry 16). -/
def State.shown (s : State) : Shown :=
  s.held.getD { res0 := s.res0, res1 := s.res1, lutrdy := s.lutrdy, dirty := s.dirty }

/-- LUTRDY as a STATUS read shows it: with BUSY = 0 that read is the one that makes the results visible (R265, R71 b). -/
def State.lutrdyByStatus (s : State) : Bool := if s.busy then s.shown.lutrdy else s.lutrdy

/-- The word STATUS reads as: BUSY, LUTRDY, DIRTY, ERR, ERRCODE in bits 0, 1, 2, 3 and 7:4 (R26). DIRTY is DV itself (R26, R38):
R265 names only LUTRDY of these bits. -/
def State.status (s : State) : Word :=
  0#24 ++ s.errs.code ++ BitVec.ofBool s.errs.err ++ BitVec.ofBool s.dirty.dv ++ BitVec.ofBool s.lutrdyByStatus ++
    BitVec.ofBool s.busy

/-- LUTRDY <- 1 (R42). -/
def State.setLutrdy (s : State) : State := { s with lutrdy := true }

/-- Recording of error e raised by command word c with address a: only the first error since the last clear is kept (R237). -/
def State.record (e : ErrorKind) (c a : Word) (s : State) : State :=
  if s.errs.err then s
  else { s with errs := { err := true, code := e.code, addr := a, cmd := c } }

/-- A host write of v to STATUS: bit 3 = 1 clears the error record, every other bit is ignored (R27). -/
def State.writeStatus (v : Word) (s : State) : State :=
  if v.getLsbD 3 then { s with errs := ErrRec.none } else s

end Sys2Proof.Machine
end

