-- ==== Sys2Proof/Machine/Ops.lean ====
section
/-! DEFINITION. The shared operations of the commands: the latched operands, completion, raising an error (the one operation
every failing command ends with), result and dirty-state writes, events, and the bus accesses a command makes. -/

namespace Sys2Proof.Machine

/-- The latched command: what x[ARG0] … x[CTRL] denote inside a command rule (R9, R40). Step executes only when a command is
latched; with none the operands are those of an empty latch (log entry 13). -/
def State.cmd (s : State) : Latch := s.latch.getD Latch.empty

/-- The latched operand, geometry and buffer registers (R9). -/
def State.ops (s : State) : Regs := s.cmd.regs

/-- Completion of a command: BUSY <- 0 and the latch is empty (R41). The list of raced bytes belongs to the command
(DESIGN CHOICE, log entries 8 and 11). -/
def State.complete (s : State) : State := { s with latch := none, raced := [] }

/-- `raise E(a)`: the command ends at once, the error is recorded by R237 with the latched word, and BDQ is idle (R12, R236,
R241). Every error a command raises when executed goes through here. -/
def State.raise (e : ErrorKind) (a : Word) (s : State) : State := (s.record e s.cmd.word a).complete

/-- RES0 <- a (R24). -/
def State.setRes0 (a : Word) (s : State) : State := { s with res0 := a }

/-- RES0 <- a and RES1 <- b (R24). -/
def State.setRes (a b : Word) (s : State) : State := { s with res0 := a, res1 := b }

/-- DV <- 0 and all four edges <- 0 (R190, R211). -/
def State.clearDirty (s : State) : State := { s with dirty := Dirty.clean }

/-- Emit the events es in order (R11, R182). -/
def State.emit (es : List HsEvent) (s : State) : State := { s with events := s.events ++ es }

/-- The three colour bytes of the word at a; its alpha byte at a + 3 has no effect on any result (R63, R83). -/
def colourBytes (a : Word) : Range := { start := a, len := 3 }

/-- Results of the command that executes are added to those R266 still speaks of. -/
def State.addUses (us : List Use) (s : State) : State := { s with uses := s.uses ++ us }

/-! ### Bus accesses of a command -/

/-- What a command's bus accesses change: memory, the free-value counter, and the bytes that hold a free value because they
overlap the command's input (R76) or were raced (R71 c). -/
structure Bus where
  mem : Memory
  free : Nat
  tainted : List Word
  deriving DecidableEq, Repr

/-- The bus as the command finds it: the raced bytes are the tainted ones. -/
def State.bus (s : State) : Bus := { mem := s.mem, free := s.freeCtr, tainted := s.raced }

/-- Put the memory and the free-value counter back. DESIGN CHOICE (log entry 8): which bytes hold a free value is not kept past the
command. A later command that reads such a byte computes its results from the one free value in memory, although R76's "every later
result that depends on them" could be read to make each of them any value. -/
def State.putBus (b : Bus) (s : State) : State := { s with mem := b.mem, freeCtr := b.free }

/-- Does the colour of the word at a depend on a byte that holds a free value? The alpha byte at a + 3 has no effect on any
result (R83), so it does not count. -/
def colourTainted (b : Bus) (a : Word) : Bool :=
  b.tainted.contains a || b.tainted.contains (a + 1#32) || b.tainted.contains (a + 2#32)

/-- MemRead(a, 4) (R10): the word, and whether its colour depends on a free value; or the failing address (BusError). -/
def busRead (k : Config) (b : Bus) (a : Word) : Except Word (Word × Bool) :=
  if memErrAt k a .read then .error a else .ok (read32 b.mem a, colourTainted b a)

/-- MemWrite(a, 1, v) (R10) of a result byte, or the failing address (BusError). The byte is any value when it overlaps the
range the command reads (R76), when it depends on such a byte (R76), or when it was raced (R71 c). -/
def busWrite (k : Config) (input : Range) (a : Word) (v : Byte) (depends : Bool) (b : Bus) : Except Word Bus :=
  if memErrAt k a .write then .error a
  else if depends || covers input a || b.tainted.contains a then
    .ok { mem := Memory.write b.mem a.toNat (Config.freeByte b.free), free := b.free + 1, tainted := a :: b.tainted }
  else .ok { b with mem := Memory.write b.mem a.toNat v }

/-- Every one of the n bytes from a on holds any value: each gets a free value of its own (R236, R262). -/
def havoc (a : Word) : Nat → Memory → Nat → Memory
  | 0, m, _ => m
  | n + 1, m, f => havoc (a + 1#32) n (Memory.write m a.toNat (Config.freeByte f)) (f + 1)

/-- The bytes of range r hold any value (R236, R262). -/
def State.havocRange (r : Range) (s : State) : State :=
  { s with mem := havoc r.start r.len s.mem s.freeCtr, freeCtr := s.freeCtr + r.len }

/-- The bytes of each range hold any value. -/
def State.havocRanges : List Range → State → State
  | [], s => s
  | r :: rs, s => State.havocRanges rs (s.havocRange r)

/-- BusError (R236): the whole output range holds any value, then the error is raised with the failing address. -/
def State.raiseBusError (out : Range) (a : Word) (s : State) : State := (s.havocRange out).raise .busError a

/-- The value is not a multiple of 4: the alignment check of R64. -/
def misaligned4 (a : Word) : Bool := a.extractLsb' 0 2 != 0#2

end Sys2Proof.Machine
end

