-- ==== Sys2Proof/Machine/Quantizer.lean ====
section
/-! DEFINITION. The colour quantizer: its functions (R100–R104) and the commands NEAREST, DTHR, QPIX, REMAP and QSURF8
(R110–R114). -/

namespace Sys2Proof.Machine

/-! ### Functions -/

/-- The square of the difference of two channels, exactly (R101). -/
def sqDiff (a b : Byte) : Nat := (((a.toNat : Int) - (b.toNat : Int)) * ((a.toNat : Int) - (b.toNat : Int))).toNat

/-- Dist: squared Euclidean distance of a colour and a palette entry (R101). -/
def distSq (c e : Rgb) : Nat := sqDiff c.r e.r + sqDiff c.g e.g + sqDiff c.b e.b

/-- What NEAREST finds: a palette index and its distance (R100). -/
structure Match where
  index : BitVec 4
  distance : Nat
  deriving DecidableEq, Repr

/-- The scan of R100 over the entries from index i on: a strictly smaller distance replaces the best so far. -/
def scan (c : Rgb) (best : Match) (i : Nat) : List Rgb → Match
  | [] => best
  | e :: es =>
    if distSq c e < best.distance then scan c { index := BitVec.ofNat 4 i, distance := distSq c e } (i + 1) es
    else scan c best (i + 1) es

/-- Nearest: the first minimum over the palette in index order (R100). -/
def nearest (p : Palette) (c : Rgb) : Match :=
  scan c { index := 0#4, distance := distSq c p.p0 } 1 p.toList.tail

/-- Thr: the offset (TM[y mod 4][x mod 4] − 8) * 8 (R102). -/
def thr (x y : Nat) : Int := ((tm y x : Int) - 8) * 8

/-- clamp(v + o, 0, 255) for a channel v (R103). -/
def clampAdd (v : Byte) (o : Int) : Byte := BitVec.ofNat 8 (min (max ((v.toNat : Int) + o) 0) 255).toNat

/-- Dither: the offset is added to each channel and clamped (R103). -/
def dither (c : Rgb) (x y : Nat) : Rgb where
  r := clampAdd c.r (thr x y)
  g := clampAdd c.g (thr x y)
  b := clampAdd c.b (thr x y)

/-- Quantize: the dithered palette index of an ARGB32 word at an absolute surface position (R104). -/
def quantize (p : Palette) (w : Word) (x y : Nat) : BitVec 4 := (nearest p (dither (colourOf w) x y)).index

/-! ### Surface addressing, shared with the packer -/

/-- PixAddr(px, py) (R63). -/
def pixAddr (g : Regs) (px py : Nat) : Word := g.surfBase + BitVec.ofNat 32 (4 * (py * g.surfW.toNat + px))

/-- The range the surface occupies (R63, R76). -/
def surfaceRange (g : Regs) : Range := { start := g.surfBase, len := 4 * (g.surfW.toNat * g.surfH.toNat) }

/-- The positions (column, row) of a w × h array, rows top to bottom and columns left to right. -/
def positions (w h : Nat) : List (Nat × Nat) :=
  (List.range h).flatMap fun y => (List.range w).map fun x => (x, y)

/-! ### NEAREST, DTHR, QPIX -/

/-- NEAREST (R110). -/
def execNearest (s : State) : Host.Outcome State Fault Refusal :=
  let n := nearest s.cfg.palette (colourOf s.ops.arg0)
  .next ((s.setRes (n.index.zeroExtend 32) (BitVec.ofNat 32 n.distance)).complete)

/-- DTHR (R111). -/
def execDthr (s : State) : Host.Outcome State Fault Refusal :=
  let x := loHalf s.ops.arg0
  let y := hiHalf s.ops.arg0
  .next ((s.setRes ((BitVec.ofInt 8 (thr x y)).signExtend 32) (BitVec.ofNat 32 (tm y x))).complete)

/-- QPIX (R112). -/
def execQpix (s : State) : Host.Outcome State Fault Refusal :=
  let c := dither (colourOf s.ops.arg0) (loHalf s.ops.arg1) (hiHalf s.ops.arg1)
  .next ((s.setRes ((nearest s.cfg.palette c).index.zeroExtend 32) (colourWord c)).complete)

/-! ### REMAP -/

/-- The number of source entries REMAP reads: min(count, 16) (R113). -/
def remapCount (g : Regs) : Nat := min g.arg1.toNat 16

/-- The address of source entry j (R113). -/
def remapAddr (g : Regs) (j : Nat) : Word := g.arg0 + BitVec.ofNat 32 (4 * j)

/-- REMAP raises Misaligned: it will read at least one entry and ARG0 is not 4-aligned (R64, R113). -/
def remapMisaligned (g : Regs) : Bool := decide (0 < remapCount g) && misaligned4 g.arg0

/-- The index of one source entry w: its nearest palette entry, or any index if its colour was raced (R113, R71 c). -/
def remapIndex (k : Config) (w : Word) (raced : Bool) (f : Nat) : BitVec 4 :=
  if raced then (Config.freeByte f).extractLsb' 0 4 else (nearest k.palette (colourOf w)).index

/-- rem[j] for n entries from entry j on, in order, and the free-value counter after them; or the first failing address
(R113). -/
def remapEntries (k : Config) (g : Regs) (j : Nat) : Nat → Bus → Except Word (List (BitVec 4) × Nat)
  | 0, b => .ok ([], b.free)
  | n + 1, b =>
    match busRead k b (remapAddr g j) with
    | .error a => .error a
    | .ok (w, t) =>
      match remapEntries k g (j + 1) n { b with free := if t then b.free + 1 else b.free } with
      | .error a => .error a
      | .ok (l, f) => .ok (remapIndex k w t b.free :: l, f)

/-- The nibbles of a list in one word, the first in bits [3:0] (R113). -/
def packNibbles : List (BitVec 4) → Word
  | [] => 0#32
  | x :: xs => x.zeroExtend 32 ||| (packNibbles xs <<< 4)

/-- What each nibble of REMAP's result depends on: the colour of its source entry, nothing where none is read (R113, R266). -/
def remapUses (g : Regs) : List Use :=
  (List.range (remapCount g)).map fun j => { inputs := [colourBytes (remapAddr g j)], result := .nibble j }

/-- REMAP (R113). -/
def execRemap (s : State) : Host.Outcome State Fault Refusal :=
  if remapMisaligned s.ops then .next (s.raise .misaligned s.ops.arg0)
  else
    match remapEntries s.cfg s.ops 0 (remapCount s.ops) s.bus with
    | .error a => .next (s.raise .busError a)
    | .ok (l, f) =>
      .next (((({ s with freeCtr := f } : State).setRes (packNibbles (l.take 8)) (packNibbles (l.drop 8))).addUses
        (remapUses s.ops)).complete)

/-! ### QSURF8 -/

/-- The output range of QSURF8 (R76). -/
def qsurfOut (g : Regs) : Range := { start := g.outBase, len := g.surfW.toNat * g.surfH.toNat }

/-- The byte QSURF8 writes for pixel (px, py) (R114). -/
def qsurfAddr (g : Regs) (px py : Nat) : Word := g.outBase + BitVec.ofNat 32 (py * g.surfW.toNat + px)

/-- QSURF8's loop over pixel positions: read, quantize, write (R114). -/
def qsurfLoop (k : Config) (g : Regs) : List (Nat × Nat) → Bus → Except Word Bus
  | [], b => .ok b
  | (px, py) :: ps, b =>
    match busRead k b (pixAddr g px py) with
    | .error a => .error a
    | .ok (w, t) =>
      match busWrite k (surfaceRange g) (qsurfAddr g px py) ((quantize k.palette w px py).zeroExtend 8) t b with
      | .error a => .error a
      | .ok b' => qsurfLoop k g ps b'

/-- What each output byte of QSURF8 depends on: the colour of its pixel (R114, R266). -/
def qsurfUses (g : Regs) : List Use :=
  (positions g.surfW.toNat g.surfH.toNat).map fun p =>
    { inputs := [colourBytes (pixAddr g p.1 p.2)], result := .byte (qsurfAddr g p.1 p.2) }

/-- QSURF8 (R114). -/
def execQsurf8 (s : State) : Host.Outcome State Fault Refusal :=
  if s.ops.surfW.toNat * s.ops.surfH.toNat = 0 then .next s.complete
  else if misaligned4 s.ops.surfBase then .next (s.raise .misaligned s.ops.surfBase)
  else
    match qsurfLoop s.cfg s.ops (positions s.ops.surfW.toNat s.ops.surfH.toNat) s.bus with
    | .error a => .next (s.raiseBusError (qsurfOut s.ops) a)
    | .ok b => .next (((s.putBus b).addUses (qsurfUses s.ops)).complete)

end Sys2Proof.Machine
end

