-- ==== Sys2Proof/Machine/Packer.lean ====
section
/-! DEFINITION. The chunky-to-planar packer: its functions (R140–R145) and the commands LUTINIT, PAIR, PACK8, ALIGN and PACKR
(R150–R154). -/

namespace Sys2Proof.Machine

/-! ### Functions -/

/-- Plane byte k of a row of palette indices, from pair j on: pair j's table entry shifted left by 6 − 2*j, OR-accumulated
(R141). -/
def packPairs (k : Nat) : Nat → List (BitVec 4) → Byte
  | j, p0 :: p1 :: ps => (pl (p0 ++ p1) k <<< (6 - 2 * j)) ||| packPairs k (j + 1) ps
  | _, _ => 0#8

/-- The four plane bytes of eight pixels (R141). -/
structure Planes where
  q0 : Byte
  q1 : Byte
  q2 : Byte
  q3 : Byte
  deriving DecidableEq, Repr

/-- Pack8 of eight palette indices, left to right (R141). -/
def pack8 (p : List (BitVec 4)) : Planes where
  q0 := packPairs 0 0 p
  q1 := packPairs 1 0 p
  q2 := packPairs 2 0 p
  q3 := packPairs 3 0 p

/-- The byte of plane k, k = 0..3. -/
def planeByte (q : Planes) : Nat → Byte
  | 0 => q.q0
  | 1 => q.q1
  | 2 => q.q2
  | _ => q.q3

/-- {q3, q2, q1, q0} (R152). -/
def planesWord (q : Planes) : Word := q.q3 ++ q.q2 ++ q.q1 ++ q.q0

/-- A rectangle (x, y, w, h) (00_scope glossary: Region). -/
structure Region where
  x : Nat
  y : Nat
  w : Nat
  h : Nat
  deriving DecidableEq, Repr

/-- The empty region (0, 0, 0, 0) of R143. -/
def emptyRegion : Region := { x := 0, y := 0, w := 0, h := 0 }

/-- floor8 (R8). -/
def floor8 (v : Nat) : Nat := v - v % 8

/-- ceil8 (R8). -/
def ceil8 (v : Nat) : Nat := floor8 (v + 7)

/-- Align: X to multiples of 8, then both edges clipped to the surface (R143). -/
def alignRegion (x y w h sw sh : Nat) : Region :=
  if w = 0 ∨ h = 0 then emptyRegion
  else if min (ceil8 (x + w)) sw ≤ floor8 x ∨ min (y + h) sh ≤ y then emptyRegion
  else { x := floor8 x, y := y, w := min (ceil8 (x + w)) sw - floor8 x, h := min (y + h) sh - y }

/-- The surface passes the region geometry check (R145). -/
def surfaceOk (g : Regs) : Bool :=
  decide (g.surfW.toNat ≠ 0) && decide (g.surfH.toNat ≠ 0) && decide (g.surfW.toNat % 8 = 0)

/-- The aligned region ALIGN and PACKR work on; none when R145 raises Geometry (R145, R153, R154). -/
def argRegion (g : Regs) : Option Region :=
  if surfaceOk g then
    some (alignRegion (loHalf g.arg0) (hiHalf g.arg0) (loHalf g.arg1) (hiHalf g.arg1) g.surfW.toNat g.surfH.toNat)
  else none

/-- RES0 and RES1 for a region: {y, x} and {h, w} (R153, R154, R190, R191). -/
def State.setResRegion (r : Region) (s : State) : State := s.setRes (halves r.y r.x) (halves r.h r.w)

/-! ### PackRegion -/

/-- bw: the bytes of one packed row (R144). -/
def rowBytes (r : Region) : Nat := r.w / 8

/-- P: the bytes of one plane buffer (R144). -/
def planeSize (r : Region) : Nat := rowBytes r * r.h

/-- The output range of a packed region: 4 * P bytes from OUT_BASE (R76). -/
def packOut (g : Regs) (r : Region) : Range := { start := g.outBase, len := 4 * planeSize r }

/-- The address of byte (column c, row y) of plane k (R144). -/
def packAddr (g : Regs) (r : Region) (k c y : Nat) : Word :=
  g.outBase + BitVec.ofNat 32 (k * planeSize r + y * rowBytes r + c)

/-- n pixels of surface row py from column px on: their dithered indices, and whether one depends on a free value (R144). -/
def readPixels (k : Config) (g : Regs) (b : Bus) (py px : Nat) : Nat → Except Word (List (BitVec 4) × Bool)
  | 0 => .ok ([], false)
  | n + 1 =>
    match busRead k b (pixAddr g px py) with
    | .error a => .error a
    | .ok (w, t) =>
      match readPixels k g b py (px + 1) n with
      | .error a => .error a
      | .ok (ps, ts) => .ok (quantize k.palette w px py :: ps, t || ts)

/-- The four plane bytes of one packed byte column, written to the output in plane order (R144). -/
def writePlanes (k : Config) (g : Regs) (r : Region) (c y : Nat) (q : Planes) (t : Bool) :
    List Nat → Bus → Except Word Bus
  | [], b => .ok b
  | i :: is, b =>
    match busWrite k (surfaceRange g) (packAddr g r i c y) (planeByte q i) t b with
    | .error a => .error a
    | .ok b' => writePlanes k g r c y q t is b'

/-- The internal copy of four plane bytes (R144): any value where they depend on a free value (R76). -/
def keptPlanes (q : Planes) (t : Bool) (b : Bus) : Planes × Bus :=
  if t then
    ({ q0 := Config.freeByte b.free, q1 := Config.freeByte (b.free + 1), q2 := Config.freeByte (b.free + 2),
       q3 := Config.freeByte (b.free + 3) }, { b with free := b.free + 4 })
  else (q, b)

/-- PackRegion's loop over byte columns (c, y): read 8 pixels, pack, write 4 bytes, keep a copy (R144). The copies come out in
loop order, so byte y*bw + c of plane k is `planeByte` k of entry y*bw + c. -/
def packLoop (k : Config) (g : Regs) (r : Region) : List (Nat × Nat) → Bus → Except Word (List Planes × Bus)
  | [], b => .ok ([], b)
  | (c, y) :: ps, b =>
    match readPixels k g b (r.y + y) (r.x + 8 * c) 8 with
    | .error a => .error a
    | .ok (px, t) =>
      match writePlanes k g r c y (pack8 px) t [0, 1, 2, 3] b with
      | .error a => .error a
      | .ok b1 =>
        match packLoop k g r ps (keptPlanes (pack8 px) t b1).2 with
        | .error a => .error a
        | .ok (pb, b2) => .ok ((keptPlanes (pack8 px) t b1).1 :: pb, b2)

/-- PackRegion (R144). -/
def packRegion (k : Config) (g : Regs) (r : Region) (b : Bus) : Except Word (List Planes × Bus) :=
  packLoop k g r (positions (rowBytes r) r.h) b

/-- The colours of the eight pixels packed byte column c of row y depends on (R144). -/
def columnInputs (g : Regs) (r : Region) (c y : Nat) : List Range :=
  (List.range 8).map fun i => colourBytes (pixAddr g (r.x + 8 * c + i) (r.y + y))

/-- Results of plane k = 0..3 of every packed byte column, each with the pixels it depends on (R144, R266). -/
def columnUses (g : Regs) (r : Region) (f : Nat → Nat → Nat → Result) : List Use :=
  (positions (rowBytes r) r.h).flatMap fun p =>
    (List.range 4).map fun k => { inputs := columnInputs g r p.1 p.2, result := f k p.1 p.2 }

/-- What each output byte of PackRegion depends on (R144, R266). -/
def packUses (g : Regs) (r : Region) : List Use := columnUses g r fun k c y => .byte (packAddr g r k c y)

/-- The part PACKR, PFLUSH and PFULL share: nothing to pack for an empty region, else the alignment check, PackRegion with its
BusError, and fin with the packed bytes (R154, R190, R191). -/
def State.packThen (r : Region) (fin : List Planes → State → State) (s : State) : State :=
  if r.w = 0 then fin [] s
  else if misaligned4 s.ops.surfBase then s.raise .misaligned s.ops.surfBase
  else
    match packRegion s.cfg s.ops r s.bus with
    | .error a => s.raiseBusError (packOut s.ops r) a
    | .ok (pb, b) => fin pb ((s.putBus b).addUses (packUses s.ops r))

/-! ### Commands -/

/-- LUTINIT (R150). -/
def execLutinit (s : State) : Host.Outcome State Fault Refusal := .next s.setLutrdy.complete

/-- The four table entries of pair byte b, plane k in byte k (R151). -/
def pairEntries (b : Byte) : Word := pl b 3 ++ pl b 2 ++ pl b 1 ++ pl b 0

/-- PAIR (R151). -/
def execPair (s : State) : Host.Outcome State Fault Refusal :=
  .next ((s.setLutrdy.setRes0 (pairEntries (pairByteOf s.ops.arg0))).complete)

/-- PACK8 (R152). -/
def execPack8 (s : State) : Host.Outcome State Fault Refusal :=
  .next ((s.setLutrdy.setRes0 (planesWord (pack8 (idx8List s.ops.arg0)))).complete)

/-- ALIGN (R153). -/
def execAlign (s : State) : Host.Outcome State Fault Refusal :=
  match argRegion s.ops with
  | none => .next (s.raise .geometry 0#32)
  | some r => .next ((s.setResRegion r).complete)

/-- PACKR (R154). -/
def execPackr (s : State) : Host.Outcome State Fault Refusal :=
  match argRegion s.ops with
  | none => .next (s.setLutrdy.raise .geometry 0#32)
  | some r => .next (s.setLutrdy.packThen r fun _ t => (t.setResRegion r).complete)

end Sys2Proof.Machine
end

