-- ==== Sys2Proof/Machine/Flush.lean ====
section
/-! DEFINITION. The planar flush: the events of one planar write (R180–R188) and the commands PFLUSH and PFULL (R190, R191). -/

namespace Sys2Proof.Machine

/-- The latched geometry passes the flush check (R185). -/
def flushOk (g : Regs) : Bool :=
  decide (g.surfW = g.scrW) && decide (g.surfH = g.scrH) && decide (g.scrW.toNat ≠ 0) && decide (g.scrH.toNat ≠ 0) &&
    decide (g.scrW.toNat % 8 = 0)

/-- The device stride in bytes (R181). -/
def stride (g : Regs) : Nat := g.scrW.toNat / 8

/-- The device offset of row y of a region (R181, R188). -/
def deviceOffset (g : Regs) (r : Region) (y : Nat) : Word := BitVec.ofNat 32 ((r.y + y) * stride g + r.x / 8)

/-- Row y of plane k of the packed bytes (R188). -/
def planeRow (r : Region) (pb : List Planes) (k y : Nat) : List Byte :=
  ((pb.drop (y * rowBytes r)).take (rowBytes r)).map fun q => planeByte q k

/-- The events of plane k: select it, then copy its rows top to bottom (R188). -/
def planeEvents (g : Regs) (r : Region) (pb : List Planes) (k : Nat) : List HsEvent :=
  .selectPlane (BitVec.ofNat 2 k) :: (List.range r.h).map fun y => .copyIntoDevice (deviceOffset g r y) (planeRow r pb k y)

/-- RESTORE_SEQ as events (R186). -/
def restoreEvents (k : Config) : List HsEvent := k.restoreSeq.map fun w => .outPort w.port w.value

/-- EmitRegion: planes 0, 1, 2, 3, then RESTORE_SEQ (R188). -/
def regionEvents (k : Config) (g : Regs) (r : Region) (pb : List Planes) : List HsEvent :=
  planeEvents g r pb 0 ++ planeEvents g r pb 1 ++ planeEvents g r pb 2 ++ planeEvents g r pb 3 ++ restoreEvents k

/-- The aligned dirty rectangle PFLUSH works on; none when R185 raises Geometry (R185, R190). -/
def dirtyRegion (g : Regs) (d : Dirty) : Option Region :=
  if flushOk g then
    some (alignRegion d.dl.toNat d.dt.toNat (d.dr.toNat - d.dl.toNat) (d.db.toNat - d.dt.toNat) g.surfW.toNat g.surfH.toNat)
  else none

/-- The whole screen, the region of PFULL; none when R185 raises Geometry (R185, R191). -/
def screenRegion (g : Regs) : Option Region :=
  if flushOk g then some { x := 0, y := 0, w := g.scrW.toNat, h := g.scrH.toNat } else none

/-- What each byte the events of a region carry depends on, with n events delivered before them: plane k's copies follow its
SelectPlane, one a row (R188, R266). -/
def eventUses (g : Regs) (r : Region) (n : Nat) : List Use :=
  columnUses g r fun k c y => .eventByte (n + k * (1 + r.h) + 1 + y) c

/-- Emit the events of a packed region; an empty region emits none (R188, R190). -/
def State.emitRegion (r : Region) (pb : List Planes) (s : State) : State :=
  if r.w = 0 then s else (s.emit (regionEvents s.cfg s.ops r pb)).addUses (eventUses s.ops r s.events.length)

/-- PFLUSH (R190). -/
def execPflush (s : State) : Host.Outcome State Fault Refusal :=
  if !s.ops.hsen || !s.dirty.dv then .next s.setLutrdy.complete
  else
    match dirtyRegion s.ops s.dirty with
    | none => .next (s.setLutrdy.raise .geometry 0#32)
    | some r => .next (s.setLutrdy.packThen r fun pb t => (((t.emitRegion r pb).clearDirty).setResRegion r).complete)

/-- PFULL (R191). -/
def execPfull (s : State) : Host.Outcome State Fault Refusal :=
  if !s.ops.hsen then .next s.setLutrdy.complete
  else
    match screenRegion s.ops with
    | none => .next (s.setLutrdy.raise .geometry 0#32)
    | some r => .next (s.setLutrdy.packThen r fun pb t => ((t.emitRegion r pb).setResRegion r).complete)

end Sys2Proof.Machine
end

