-- ==== Sys2Proof/Machine/Tracker.lean ====
section
/-! DEFINITION. The dirty-region tracker: the union law (R200) and the commands MARK and CLEAR (R210, R211). -/

namespace Sys2Proof.Machine

/-- The exclusive right or bottom edge of a marked rectangle: 17 bits hold any sum of two 16-bit values (R37, R200). -/
def edgeSum (a n : Nat) : BitVec 17 := BitVec.ofNat 17 (a + n)

/-- The dirty state after a rectangle is marked: exactly it when clean, else the bounding box of both (R200, R210). -/
def Dirty.mark (d : Dirty) (x y w h : Nat) : Dirty :=
  if d.dv then
    { dv := true
      dl := BitVec.ofNat 16 (min d.dl.toNat x)
      dt := BitVec.ofNat 16 (min d.dt.toNat y)
      dr := BitVec.ofNat 17 (max d.dr.toNat (x + w))
      db := BitVec.ofNat 17 (max d.db.toNat (y + h)) }
  else { dv := true, dl := BitVec.ofNat 16 x, dt := BitVec.ofNat 16 y, dr := edgeSum x w, db := edgeSum y h }

/-- Mark the rectangle (x, y, w, h) (R210). -/
def State.markRect (x y w h : Nat) (s : State) : State := { s with dirty := s.dirty.mark x y w h }

/-- MARK (R210). -/
def execMark (s : State) : Host.Outcome State Fault Refusal :=
  .next ((s.markRect (loHalf s.ops.arg0) (hiHalf s.ops.arg0) (loHalf s.ops.arg1) (hiHalf s.ops.arg1)).complete)

/-- CLEAR (R211). -/
def execClear (s : State) : Host.Outcome State Fault Refusal := .next s.clearDirty.complete

end Sys2Proof.Machine
end

