-- ==== Sys2Proof/Machine/Dispatch.lean ====
section
/-! DEFINITION. One arm per command: which meaning runs. -/

namespace Sys2Proof.Machine

def exec (i : Instr) (s : State) : Host.Outcome State Fault Refusal :=
  match i with
  | .nop => Sys2Proof.Machine.execNop s
  | .nearest => Sys2Proof.Machine.execNearest s
  | .dthr => Sys2Proof.Machine.execDthr s
  | .qpix => Sys2Proof.Machine.execQpix s
  | .remap => Sys2Proof.Machine.execRemap s
  | .qsurf8 => Sys2Proof.Machine.execQsurf8 s
  | .lutinit => Sys2Proof.Machine.execLutinit s
  | .pair => Sys2Proof.Machine.execPair s
  | .pack8 => Sys2Proof.Machine.execPack8 s
  | .align => Sys2Proof.Machine.execAlign s
  | .packr => Sys2Proof.Machine.execPackr s
  | .pflush => Sys2Proof.Machine.execPflush s
  | .pfull => Sys2Proof.Machine.execPfull s
  | .mark => Sys2Proof.Machine.execMark s
  | .clear => Sys2Proof.Machine.execClear s

end Sys2Proof.Machine
end

