-- ==== Sys2Proof/Machine/Execute.lean ====
section
/-! DEFINITION. Execution of the latched command (R41): the decode checks of R88, then the command's meaning. -/

namespace Sys2Proof.Machine

/-- The latched command executes: an illegal OP or nonzero RSV raises its error (R85, R86, R231, R232), every other word runs
its command. -/
def executeLatched (s : State) : Host.Outcome State Fault Refusal :=
  match decode s.cmd.word with
  | .ok i => exec i s
  | .error .illegalOpcode => .next (s.raise .illegalOpcode 0#32)
  | .error .reservedBits => .next (s.raise .reservedBits 0#32)

end Sys2Proof.Machine
end

