-- ==== Sys2Proof/Machine/Reach.lean ====
section
/-! DEFINITION. Which bytes of memory a command reads and writes: its output range (R76) and what R266 tells the host to leave
alone while it runs. -/

namespace Sys2Proof.Machine

/-- The surface bytes of a region, one range a row (R63, R266). -/
def regionReads (g : Regs) (r : Region) : List Range :=
  (List.range r.h).map fun y => { start := pixAddr g r.x (r.y + y), len := 4 * r.w }

/-- Reads and output range of a command that packs region r. One that will raise Misaligned reads nothing (R235); its output
range is still R76's (R262, log entry 10). -/
def packReach (g : Regs) : Option Region → Footprint
  | none => Footprint.empty
  | some r =>
    if r.w = 0 then Footprint.empty
    else { reads := if misaligned4 g.surfBase then [] else regionReads g r, writes := [packOut g r] }

/-- The bytes command i reads and writes when it runs with latched registers g and dirty state d. -/
def reachOf (g : Regs) (d : Dirty) : Instr → Footprint
  | .nop => Footprint.empty
  | .nearest => Footprint.empty
  | .dthr => Footprint.empty
  | .qpix => Footprint.empty
  | .remap =>
    { reads := if misaligned4 g.arg0 then [] else [{ start := g.arg0, len := 4 * remapCount g }], writes := [] }
  | .qsurf8 =>
    { reads := if misaligned4 g.surfBase then [] else [surfaceRange g], writes := [qsurfOut g] }
  | .lutinit => Footprint.empty
  | .pair => Footprint.empty
  | .pack8 => Footprint.empty
  | .align => Footprint.empty
  | .packr => packReach g (argRegion g)
  | .pflush => if g.hsen && d.dv then packReach g (dirtyRegion g d) else Footprint.empty
  | .pfull => if g.hsen then packReach g (screenRegion g) else Footprint.empty
  | .mark => Footprint.empty
  | .clear => Footprint.empty

/-- The same for a command word: a word that does not decode touches no memory (R236). -/
def wordReach (g : Regs) (d : Dirty) (c : Word) : Footprint :=
  match decode c with
  | .ok i => reachOf g d i
  | .error _ => Footprint.empty

end Sys2Proof.Machine
end

