-- ==== Sys2Proof/Machine/Registers.lean ====
section
/-! DEFINITION. The register window (R20–R22): every register by name, its offset, what a host read returns and what a host write
does, the CMD write among them (R40, R233). -/

namespace Sys2Proof.Machine

/-- The registers of R22. -/
inductive Reg where
  | id
  | status
  | cmd
  | ctrl
  | arg0
  | arg1
  | arg2
  | arg3
  | res0
  | res1
  | erraddr
  | errcmd
  | dirtyX
  | dirtyY
  | dirtyW
  | dirtyH
  | scrW
  | scrH
  | surfBase
  | surfW
  | surfH
  | outBase
  /-- PALi, i = 0..15. -/
  | pal (i : BitVec 4)
  /-- TMATy, y = 0..3. -/
  | tmat (y : BitVec 2)
  deriving DecidableEq, Repr

/-- The byte offset of a register in the window (R22). -/
def Reg.offset : Reg → Nat
  | .id => 0x00
  | .status => 0x04
  | .cmd => 0x08
  | .ctrl => 0x0C
  | .arg0 => 0x10
  | .arg1 => 0x14
  | .arg2 => 0x18
  | .arg3 => 0x1C
  | .res0 => 0x20
  | .res1 => 0x24
  | .erraddr => 0x28
  | .errcmd => 0x2C
  | .dirtyX => 0x30
  | .dirtyY => 0x34
  | .dirtyW => 0x38
  | .dirtyH => 0x3C
  | .scrW => 0x40
  | .scrH => 0x44
  | .surfBase => 0x48
  | .surfW => 0x4C
  | .surfH => 0x50
  | .outBase => 0x54
  | .pal i => 0x80 + 4 * i.toNat
  | .tmat y => 0xC0 + 4 * y.toNat

/-- The registers of the window with a fixed offset, in the order of R22. -/
def Reg.fixed : List Reg :=
  [.id, .status, .cmd, .ctrl, .arg0, .arg1, .arg2, .arg3, .res0, .res1, .erraddr, .errcmd, .dirtyX, .dirtyY, .dirtyW, .dirtyH,
    .scrW, .scrH, .surfBase, .surfW, .surfH, .outBase]

/-- Every register of R22. -/
def Reg.all : List Reg :=
  Reg.fixed ++ (List.range 16).map (fun i => .pal (BitVec.ofNat 4 i)) ++ (List.range 4).map (fun y => .tmat (BitVec.ofNat 2 y))

/-- The register at an offset of the window; none where R22 names none (R21). -/
def regAt (off : Nat) : Option Reg := Reg.all.find? fun r => decide (r.offset = off)

/-- x[TMAT_y]: byte x is TM[y][x] (R35). -/
def tmatWord (y : Nat) : Word :=
  BitVec.ofNat 8 (tm y 3) ++ BitVec.ofNat 8 (tm y 2) ++ BitVec.ofNat 8 (tm y 1) ++ BitVec.ofNat 8 (tm y 0)

/-- What a host read of a register returns (R21, R22, R26, R34–R36, R38), a command's results as R265 shows them. -/
def readReg (s : State) : Reg → Word
  | .id => idWord
  | .status => s.status
  | .cmd => 0#32
  | .ctrl => (BitVec.ofBool s.regs.hsen).zeroExtend 32
  | .arg0 => s.regs.arg0
  | .arg1 => s.regs.arg1
  | .arg2 => s.regs.arg2
  | .arg3 => s.regs.arg3
  | .res0 => s.shown.res0
  | .res1 => s.shown.res1
  | .erraddr => s.errs.addr
  | .errcmd => s.errs.cmd
  | .dirtyX => s.shown.dirty.dl.zeroExtend 32
  | .dirtyY => s.shown.dirty.dt.zeroExtend 32
  | .dirtyW => (s.shown.dirty.dr - s.shown.dirty.dl.zeroExtend 17).zeroExtend 32
  | .dirtyH => (s.shown.dirty.db - s.shown.dirty.dt.zeroExtend 17).zeroExtend 32
  | .scrW => s.regs.scrW.zeroExtend 32
  | .scrH => s.regs.scrH.zeroExtend 32
  | .surfBase => s.regs.surfBase
  | .surfW => s.regs.surfW.zeroExtend 32
  | .surfH => s.regs.surfH.zeroExtend 32
  | .outBase => s.regs.outBase
  | .pal i => colourWord (paletteEntry s.cfg.palette i)
  | .tmat y => tmatWord y.toNat

/-- A host read of STATUS that returns BUSY = 0 makes the results visible (R265, R71 b) and ends what R266 tells the host to leave
alone. -/
def State.acknowledge (s : State) : State :=
  if s.busy then s else { s with held := none, hazard := Footprint.empty, uses := [] }

/-- What a host read of a register changes: nothing, but that a STATUS read may acknowledge a completion. -/
def afterRead (s : State) : Reg → State
  | .status => s.acknowledge
  | _ => s

/-- A footprint together with another. -/
def Footprint.join (p q : Footprint) : Footprint := { reads := p.reads ++ q.reads, writes := p.writes ++ q.writes }

/-- Acceptance of command word c: the latch takes the word and copies of the registers, BUSY becomes 1 (R40), the values host reads
show are held (R265), and the bytes the command reads and writes are to be left alone (R266).
DESIGN CHOICE (log entry 11): the command starts with no raced byte. A byte raced before its CMD write, BUSY = 0 not yet read back,
holds one free value that the command finds in memory, and its results are computed from that value, although R266 could be read to
make each of them any value. -/
def State.accept (c : Word) (s : State) : State :=
  { s with
    latch := some { word := c, regs := s.regs }
    held := some s.shown
    hazard := s.hazard.join (wordReach s.regs s.dirty c)
    raced := [] }

/-- A host write of word c to CMD: accepted when BUSY = 0, dropped with BusyCommand when BUSY = 1 (R40, R233). -/
def State.writeCmd (c : Word) (s : State) : State :=
  if s.busy then s.record .busyCommand c 0#32 else s.accept c

/-- The registers a host write changes directly (R22, R28, R29): bits the register does not have are dropped. -/
def Regs.write (g : Regs) (v : Word) : Reg → Regs
  | .ctrl => { g with hsen := v.getLsbD 0 }
  | .arg0 => { g with arg0 := v }
  | .arg1 => { g with arg1 := v }
  | .arg2 => { g with arg2 := v }
  | .arg3 => { g with arg3 := v }
  | .scrW => { g with scrW := v.extractLsb' 0 16 }
  | .scrH => { g with scrH := v.extractLsb' 0 16 }
  | .surfBase => { g with surfBase := v }
  | .surfW => { g with surfW := v.extractLsb' 0 16 }
  | .surfH => { g with surfH := v.extractLsb' 0 16 }
  | .outBase => { g with outBase := v }
  | .id => g
  | .status => g
  | .cmd => g
  | .res0 => g
  | .res1 => g
  | .erraddr => g
  | .errcmd => g
  | .dirtyX => g
  | .dirtyY => g
  | .dirtyW => g
  | .dirtyH => g
  | .pal _ => g
  | .tmat _ => g

/-- A host write of v to a register: CMD and STATUS act (R27, R40), a read/write register stores, any other ignores it (R21). -/
def writeReg (v : Word) (s : State) : Reg → State
  | .cmd => s.writeCmd v
  | .status => s.writeStatus v
  | r => { s with regs := s.regs.write v r }

end Sys2Proof.Machine
end

