-- ==== Sys2Proof/Machine/HostBus.lean ====
section
/-! DEFINITION. One action of the host: stores and loads of the register window and of memory, poll, and the reset input
(R20, R21, R71, R89, R260–R262, R266, R270). -/

namespace Sys2Proof.Machine

/-- The byte addresses of an access of a width, lowest first. -/
def accessBytes (a : Word) : Width → List Word
  | .byte => [a]
  | .half => [a, a + 1#32]
  | .word => [a, a + 1#32, a + 2#32, a + 3#32]

/-- The offset of an address from BDQ_BASE. -/
def windowOffset (k : Config) (a : Word) : Nat := (a - k.base).toNat

/-- The access touches the 256-byte register window (R20). -/
def touchesWindow (k : Config) (a : Word) (w : Width) : Bool :=
  (accessBytes a w).any fun b => decide (windowOffset k b < 256)

/-- An access to the window is defined only when it is 32 bits wide and its offset is 4-aligned (R20). -/
def windowAccessOk (k : Config) (a : Word) (w : Width) : Bool :=
  decide (w = .word) && decide (windowOffset k a % 4 = 0)

/-! ### A host access against R266 -/

/-- The word w with nibble j replaced by v. -/
def putNibble (w : Word) (j : Nat) (v : BitVec 4) : Word :=
  (w &&& ~~~(0xF#32 <<< (4 * j))) ||| (v.zeroExtend 32 <<< (4 * j))

/-- An event with byte c of what it copies replaced by v. -/
def HsEvent.putByte (c : Nat) (v : Byte) : HsEvent → HsEvent
  | .selectPlane k => .selectPlane k
  | .copyIntoDevice o bs => .copyIntoDevice o (bs.set c v)
  | .outPort p x => .outPort p x

/-- A result becomes any value: the next free one (R266, R71 c). -/
def State.freeResult (s : State) : Result → State
  | .nibble j =>
    if j < 8 then
      { s with res0 := putNibble s.res0 j ((Config.freeByte s.freeCtr).extractLsb' 0 4), freeCtr := s.freeCtr + 1 }
    else { s with res1 := putNibble s.res1 (j - 8) ((Config.freeByte s.freeCtr).extractLsb' 0 4), freeCtr := s.freeCtr + 1 }
  | .byte a => { s with mem := Memory.write s.mem a.toNat (Config.freeByte s.freeCtr), freeCtr := s.freeCtr + 1 }
  | .eventByte i c =>
    { s with events := s.events.modify i (HsEvent.putByte c (Config.freeByte s.freeCtr)), freeCtr := s.freeCtr + 1 }

/-- The bytes of memory a result lies in. -/
def Result.addresses : Result → List Word
  | .nibble _ => []
  | .byte a => [a]
  | .eventByte _ _ => []

/-- One of the result's inputs lies at one of the addresses. -/
def Use.dependsOn (u : Use) (as : List Word) : Bool := as.any fun a => coveredBy u.inputs a

/-- Every result that depends on a byte at one of the addresses becomes any value, and so does what later commands made of it; with
the addresses of all bytes that did (R266). -/
def State.freeDependents (s : State) (as : List Word) : List Use → State × List Word
  | [] => (s, as)
  | u :: us =>
    if u.dependsOn as then State.freeDependents (s.freeResult u.result) (u.result.addresses ++ as) us
    else State.freeDependents s as us

/-- A race at byte a (R266, R71 c, I6): the byte holds any value, every result that depends on it is any value, and what the
running command makes of these bytes will be. DESIGN CHOICE (log entry 11): with BUSY = 0 nothing is listed for the next command,
whose results are computed from the one free value the byte holds; R266 does not say whether they are any value too. -/
def State.raceByte (a : Word) (s : State) : State :=
  let p := State.freeDependents (s.freeResult (.byte a)) [a] s.uses
  { p.1 with raced := if s.busy then p.2 ++ s.raced else s.raced }

/-- The host stores one byte of memory. Where R266 forbids it (a byte a command reads or writes, BUSY = 0 not read back since its
CMD write) it is a race and not a store of v. -/
def hostPutByte (s : State) (a : Word) (v : Byte) : State :=
  if coveredBy s.hazard.reads a || coveredBy s.hazard.writes a then s.raceByte a
  else { s with mem := Memory.write s.mem a.toNat v }

/-- The host stores consecutive bytes of v, least significant first (R62). -/
def hostPut (v : Word) : List Word → State → State
  | [], s => s
  | a :: as, s => hostPut (v >>> 8) as (hostPutByte s a (v.extractLsb' 0 8))

/-- The byte a host load of address a returns: any value where R266 forbids the load, in a command's output range (R71 c, I6). -/
def hostByte (s : State) (a : Word) : Byte :=
  if coveredBy s.hazard.writes a then Config.freeByte s.freeCtr else byteAt s.mem a

/-- What a host load of one byte changes: nothing, but where R266 forbids it the byte is raced (I6). -/
def afterHostByte (s : State) (a : Word) : State :=
  if coveredBy s.hazard.writes a then State.raceByte a { s with freeCtr := s.freeCtr + 1 } else s

/-- The host loads consecutive bytes, least significant first (R62): their value and the state after. -/
def hostGet : List Word → State → Word × State
  | [], s => (0#32, s)
  | a :: as, s =>
    match hostGet as (afterHostByte s a) with
    | (v, t) => ((v <<< 8) ||| (hostByte s a).zeroExtend 32, t)

/-- A host store (R89: `wr`, `mw32`). -/
def hostStore (a : Word) (w : Width) (v : Word) (s : State) : Host.Outcome State Fault Refusal :=
  if touchesWindow s.cfg a w then
    if windowAccessOk s.cfg a w then
      match regAt (windowOffset s.cfg a) with
      | some r => .next (writeReg v s r)
      | none => .next s
    else .refused .hostAccess
  else .next (hostPut v (accessBytes a w) s)

/-- The host variable takes the loaded value (R89). -/
def State.bindVar (x : Nat) (v : Word) (s : State) : State := { s with vars := s.vars ++ [(x, v)] }

/-- A host load (R89: `rd`, `mr8`). -/
def hostLoad (a : Word) (w : Width) (x : Nat) (s : State) : Host.Outcome State Fault Refusal :=
  if touchesWindow s.cfg a w then
    if windowAccessOk s.cfg a w then
      match regAt (windowOffset s.cfg a) with
      | some r => .next ((afterRead s r).bindVar x (readReg s r))
      | none => .next (s.bindVar x 0#32)
    else .refused .hostAccess
  else .next ((hostGet (accessBytes a w) s).2.bindVar x (hostGet (accessBytes a w) s).1)

/-! ### Reset -/

/-- Every piece of BDQ state takes its reset value; memory, the delivered events, the parameters and the host stay (R260, R261).
DESIGN CHOICE (log entry 11): reset also ends the span in which R266 and R71 (c) forbid host accesses, although R266 ends it only
when BUSY = 0 is read back and names no reset: hazard, raced and uses are emptied, so a later host access of those bytes is an
ordinary one. -/
def State.clearBdq (s : State) : State :=
  { s with
    regs := Regs.reset
    res0 := 0#32
    res1 := 0#32
    lutrdy := false
    dirty := Dirty.clean
    errs := ErrRec.none
    latch := none
    held := none
    hazard := Footprint.empty
    raced := []
    uses := [] }

/-- The events the latched command would deliver if it executed now. -/
def pendingEvents (s : State) : List HsEvent :=
  match executeLatched s with
  | .next t => t.events.drop s.events.length
  | .fault _ => []
  | .refused _ => []

/-- Reset while BUSY = 1: the output range of the discarded command holds any value and any number of its first events has been
delivered (R262). The number is free value freeCtr; the event bytes and the range take the ones after it. -/
def State.abort (s : State) : State :=
  let s1 := { s with freeCtr := s.freeCtr + 1 }
  let s2 := match executeLatched s1 with
    | .next t => { s1 with freeCtr := t.freeCtr }
    | .fault _ => s1
    | .refused _ => s1
  (s2.emit ((pendingEvents s1).take (Config.freeCount s.freeCtr))).havocRanges (wordReach s.ops s.dirty s.cmd.word).writes

/-- The reset input (R260–R262). -/
def State.resetInput (s : State) : State := if s.busy then s.abort.clearBdq else s.clearBdq

/-- One round of a poll: `rd STATUS -> x`, and once more as the next action if that read returned BUSY = 1 (R89). -/
def State.pollOnce (x : Nat) (s : State) : State :=
  let t := (afterRead s .status).bindVar x (readReg s .status)
  if s.busy then { t with host := .poll x :: t.host } else t

/-- One host action, the rest of the host's actions already put back. -/
def hostAct (act : HostAction) (s : State) : Host.Outcome State Fault Refusal :=
  match act with
  | .store a w v => hostStore a w v s
  | .load a w x => hostLoad a w x s
  | .poll x => .next (s.pollOnce x)
  | .reset => .next s.resetInput

/-- The host's next action; with none pending nothing happens (R250). -/
def hostStep (s : State) : Host.Outcome State Fault Refusal :=
  match s.host with
  | [] => .next s
  | act :: rest => hostAct act { s with host := rest }

end Sys2Proof.Machine
end

