-- ==== Sys2Proof/Machine/Engine.lean ====
section
/-! DEFINITION. Who moves in one step (R41), and how a command word is placed so that the next step runs it. -/

namespace Sys2Proof.Machine

/-- One step. With BUSY = 0 only the host can move. With BUSY = 1 the next turn says whether the host acts or BDQ executes the
latched command; with no turn left BDQ executes, so an accepted command is executed after finitely many steps (R41). -/
def advance (s : State) : Host.Outcome State Fault Refusal :=
  if s.busy then
    match s.turns with
    | [] => executeLatched s
    | .bdq :: ts => executeLatched { s with turns := ts }
    | .host :: ts => hostStep { s with turns := ts }
  else hostStep s

/-- Command word c accepted (R40) with BDQ to move next. -/
def State.placeCommand (c : Word) (s : State) : State := { s.accept c with turns := .bdq :: s.turns }

end Sys2Proof.Machine
end

