-- ==== Sys2Proof/Machine/Step.lean ====
section
/-! DEFINITION. The step function and the placing of one command word, both by their operations in Engine.lean. -/

namespace Sys2Proof.Machine

def step (s : State) : Host.Outcome State Fault Refusal := advance s

/-- BDQ fetches no instruction (R25): a command runs once a CMD write has latched it. So the word is latched as a CMD write
latches it (R40) and BDQ is to move next (log entry 19). -/
def State.withFetchWord (s : State) (nbits w : Nat) : State := s.placeCommand (commandWord nbits w)

end Sys2Proof.Machine
end

