-- ==== Sys2Proof/Safety.lean ====
section
/-! DEFINITION. What counts as a good state (the invariant every step keeps) and as a host that obeys the duties whose breach the
model refuses. -/

namespace Sys2Proof.Machine

/-- The dirty state of R37: all edges 0 when clean, and no edge past its opposite when pending. -/
def Dirty.wf (d : Dirty) : Bool :=
  if d.dv then decide (d.dl.toNat ≤ d.dr.toNat) && decide (d.dt.toNat ≤ d.db.toNat) else decide (d = Dirty.clean)

/-- The error record: all 0 when ERR = 0 (R26, R27), one of the codes 1 to 6 of R230 when ERR = 1 (V3). -/
def ErrRec.wf (e : ErrRec) : Bool :=
  if e.err then decide (1 ≤ e.code.toNat) && decide (e.code.toNat ≤ 6) else decide (e = ErrRec.none)

/-- The invariant: parameters that obey R6 and R30, memory in canonical form, R37's dirty state (the one host reads show too),
R230's error record. -/
def State.Inv (s : State) : Prop :=
  s.cfg.wf = true ∧ Memory.wf s.mem = true ∧ s.dirty.wf = true ∧ s.shown.dirty.wf = true ∧ s.errs.wf = true

/-- A host action keeps R20 and R270: it touches the register window only with 32-bit accesses at 4-aligned offsets. -/
def HostAction.obeysWidth (k : Config) : HostAction → Bool
  | .store a w _ => !touchesWindow k a w || windowAccessOk k a w
  | .load a w _ => !touchesWindow k a w || windowAccessOk k a w
  | .poll _ => true
  | .reset => true

/-- Every pending host action keeps R20. -/
def State.hostObeys (s : State) : Bool := s.host.all fun a => a.obeysWidth s.cfg

/-! ### Words the statements use -/

/-- OP of a command word is one R84 lists; R85 lists the others as 0x06–0x0F, 0x15–0x1F, 0x22–0x2F and 0x32–0xFF. -/
def LegalOp (c : Word) : Prop :=
  c.toNat % 256 ≤ 0x05 ∨ (0x10 ≤ c.toNat % 256 ∧ c.toNat % 256 ≤ 0x14) ∨ (0x20 ≤ c.toNat % 256 ∧ c.toNat % 256 ≤ 0x21) ∨
    (0x30 ≤ c.toNat % 256 ∧ c.toNat % 256 ≤ 0x31)

/-- What no command touches: the parameters, the read/write registers, what host reads show until BUSY = 0 is read, and the host's
side. -/
def SetupKept (s t : State) : Prop :=
  t.cfg = s.cfg ∧ t.regs = s.regs ∧ t.host = s.host ∧ t.vars = s.vars ∧ t.turns = s.turns ∧ t.held = s.held ∧
    t.hazard = s.hazard

/-- Every byte of memory reads as before. -/
def MemoryKept (s t : State) : Prop := ∀ a : Word, byteAt t.mem a = byteAt s.mem a

/-- BUSY = 0 and nothing is latched (R41). -/
def Idle (t : State) : Prop := t.latch = none ∧ t.raced = []

/-- What an error leaves alone beside memory and LUTRDY: RES0, RES1, the dirty state and the events (R236). -/
def ErrorKept (s t : State) : Prop := t.res0 = s.res0 ∧ t.res1 = s.res1 ∧ t.dirty = s.dirty ∧ t.events = s.events

/-- The record of error e raised by the latched command with address a (R237). -/
def Recorded (e : ErrorKind) (a : Word) (s t : State) : Prop :=
  (s.errs.err = true → t.errs = s.errs) ∧
    (s.errs.err = false → t.errs = { err := true, code := e.code, addr := a, cmd := s.cmd.word })

/-- An event with the values of the bytes it copies left out. -/
def HsEvent.shape : HsEvent → HsEvent
  | .selectPlane k => .selectPlane k
  | .copyIntoDevice o bs => .copyIntoDevice o (bs.map fun _ => 0#8)
  | .outPort p v => .outPort p v

/-- Nibble j of REMAP's sixteen as RES0 and RES1 hold it (R113). -/
def nibbleAt (s : State) (j : Nat) : BitVec 4 :=
  if j < 8 then s.res0.extractLsb' (4 * j) 4 else s.res1.extractLsb' (4 * (j - 8)) 4

/-- The result holds one of the free values used between s and t: "any value" of R76 and R266 (log entries 8, 11 and 12). -/
def FreeIn (s t : State) (r : Result) : Prop :=
  ∃ n, s.freeCtr ≤ n ∧ n < t.freeCtr ∧
    match r with
    | .nibble j => j < 16 → nibbleAt t j = (Config.freeByte n).extractLsb' 0 4
    | .byte a => byteAt t.mem a = Config.freeByte n
    | .eventByte i c => ∀ o bs, t.events[i]? = some (.copyIntoDevice o bs) → c < bs.length → bs[c]? = some (Config.freeByte n)

/-- The result holds what it held. -/
def ResultKept (s t : State) : Result → Prop
  | .nibble j => j < 16 → nibbleAt t j = nibbleAt s j
  | .byte a => byteAt t.mem a = byteAt s.mem a
  | .eventByte i c => ∀ o bs, s.events[i]? = some (.copyIntoDevice o bs) →
      ∃ bs', t.events[i]? = some (.copyIntoDevice o bs') ∧ bs'[c]? = bs[c]?

/-- Result number n of the list depends on the byte at a: that byte is among its inputs, or an output byte is that depends on it
and was written before (R266; log entry 11). -/
inductive DependsOn (us : List Use) (a : Word) : Nat → Prop
  | direct {n : Nat} {u : Use} (hu : us[n]? = some u) (ha : coveredBy u.inputs a = true) : DependsOn us a n
  | through {m n : Nat} {u v : Use} {b : Word} (hmn : m < n) (hm : DependsOn us a m) (hv : us[m]? = some v)
      (hb : v.result = .byte b) (hu : us[n]? = some u) (ha : coveredBy u.inputs b = true) : DependsOn us a n

/-- What a race at byte a leaves (R266, R71 c): the byte and exactly the results of executed commands that depend on it hold free
values, every other byte, nibble and copied byte is as before, and so is the rest of the machine; the bytes that became free are
raced to the command that still runs. -/
def RacedAt (s t : State) (a : Word) : Prop :=
  FreeIn s t (.byte a) ∧ (∀ n u, s.uses[n]? = some u → DependsOn s.uses a n → FreeIn s t u.result) ∧
    (∀ r : Result, r ≠ .byte a → (∀ n u, s.uses[n]? = some u → DependsOn s.uses a n → u.result ≠ r) → ResultKept s t r) ∧
    (∀ b : Word, b ∈ t.raced ↔ b ∈ s.raced ∨
      (s.busy = true ∧ (b = a ∨ ∃ n u, s.uses[n]? = some u ∧ DependsOn s.uses a n ∧ u.result = .byte b))) ∧
    t.events.map HsEvent.shape = s.events.map HsEvent.shape ∧
    t.cfg = s.cfg ∧ t.regs = s.regs ∧ t.lutrdy = s.lutrdy ∧ t.dirty = s.dirty ∧ t.errs = s.errs ∧ t.latch = s.latch ∧
    t.held = s.held ∧ t.hazard = s.hazard ∧ t.uses = s.uses ∧ t.host = s.host ∧ t.turns = s.turns

/-- A region is packed without an error or an unspecified byte: the surface is 4-aligned (R64), no access of PackRegion fails
(R10), no output byte lies in the surface (R76) and the host raced no byte (R266). -/
def PackRuns (s : State) (r : Region) : Prop :=
  s.ops.surfBase.toNat % 4 = 0 ∧
  (∀ px py, r.x ≤ px → px < r.x + r.w → r.y ≤ py → py < r.y + r.h → memErrAt s.cfg (pixAddr s.ops px py) .read = false) ∧
  (∀ n, n < 4 * planeSize r →
    memErrAt s.cfg (s.ops.outBase + BitVec.ofNat 32 n) .write = false ∧
    covers (surfaceRange s.ops) (s.ops.outBase + BitVec.ofNat 32 n) = false) ∧
  s.raced = []

/-- One bus access of a command: its address, and its direction, which fixes the size (R10, R65). -/
abbrev Access := Word × Dir

/-- The accesses of REMAP in the order of its pseudocode (R113). -/
def remapAccesses (g : Regs) : List Access :=
  (List.range (min g.arg1.toNat 16)).map fun j => (g.arg0 + BitVec.ofNat 32 (4 * j), .read)

/-- The accesses of QSURF8 in the order of its pseudocode: each pixel is read, then its byte written (R114). -/
def qsurfAccesses (g : Regs) : List Access :=
  (List.range g.surfH.toNat).flatMap fun y => (List.range g.surfW.toNat).flatMap fun x =>
    [(pixAddr g x y, .read), (g.outBase + BitVec.ofNat 32 (y * g.surfW.toNat + x), .write)]

/-- The accesses of PackRegion in the order of its pseudocode: for each byte column eight reads, then four writes (R144). -/
def packAccesses (g : Regs) (r : Region) : List Access :=
  (List.range r.h).flatMap fun y => (List.range (r.w / 8)).flatMap fun c =>
    ((List.range 8).map fun i => (pixAddr g (r.x + 8 * c + i) (r.y + y), Dir.read)) ++
      (List.range 4).map fun k => (g.outBase + BitVec.ofNat 32 (k * (r.w / 8 * r.h) + y * (r.w / 8) + c), Dir.write)

/-- What R266 tells the host to leave alone while a command makes these accesses: the bytes its 4-byte reads cover, unless their base
is misaligned and it makes none (R235), and the bytes it writes, which are R76's range (R262: also when it makes none). -/
def Guards (f : Footprint) (base : Word) (as : List Access) : Prop :=
  ∀ a : Word,
    (coveredBy f.reads a = true ↔ base.toNat % 4 = 0 ∧ ∃ p ∈ as, p.2 = Dir.read ∧ (a - p.1).toNat < 4) ∧
    (coveredBy f.writes a = true ↔ (a, Dir.write) ∈ as)

/-- The three colour bytes of a surface pixel, on which a result computed from it depends (R63, R83; log entry 11). -/
def pixelColour (g : Regs) (px py : Nat) : Range :=
  { start := g.surfBase + BitVec.ofNat 32 (4 * (py * g.surfW.toNat + px)), len := 3 }

/-- For each byte column of a region, row by row, and in it for each plane k: a result f k column row, and the colours of the
column's eight pixels, on which it depends (R144, R266; log entry 11). -/
def planeDependences (g : Regs) (r : Region) (f : Nat → Nat → Nat → Result) : List Use :=
  (List.range r.h).flatMap fun y => (List.range (r.w / 8)).flatMap fun c => (List.range 4).map fun k =>
    { inputs := (List.range 8).map fun i => pixelColour g (r.x + 8 * c + i) (r.y + y), result := f k c y }

/-- The first of a command's accesses that returns a bus error (R238). -/
def firstFailing (k : Config) (as : List Access) : Option Access := as.find? fun p => memErrAt k p.1 p.2

/-- Command i makes the accesses in this order: at the first that fails it raises BusError with that address, and no byte outside
its output range changes; if none fails it raises nothing (R236, R238). -/
def EndsAtFirstFailing (i : Instr) (s : State) (out : List Range) (as : List Access) : Prop :=
  ∃ t, exec i s = .next t ∧ Idle t ∧ SetupKept s t ∧
    (∀ p, firstFailing s.cfg as = some p →
      Recorded .busError p.1 s t ∧ ErrorKept s t ∧ ∀ a : Word, coveredBy out a = false → byteAt t.mem a = byteAt s.mem a) ∧
    (firstFailing s.cfg as = none → t.errs = s.errs)

/-- The surface passes the region check of R145. -/
def SurfaceFits (g : Regs) : Prop := g.surfW.toNat ≠ 0 ∧ g.surfH.toNat ≠ 0 ∧ g.surfW.toNat % 8 = 0

/-- The geometry passes the flush check of R185. -/
def FlushFits (g : Regs) : Prop :=
  g.surfW = g.scrW ∧ g.surfH = g.scrH ∧ 0 < g.scrW.toNat ∧ 0 < g.scrH.toNat ∧ g.scrW.toNat % 8 = 0

/-- The region ARG0 and ARG1 name, aligned and clipped to the surface (R153, R154). -/
def requestedRegion (g : Regs) : Region :=
  alignRegion (g.arg0.toNat % 65536) (g.arg0.toNat / 65536) (g.arg1.toNat % 65536) (g.arg1.toNat / 65536) g.surfW.toNat
    g.surfH.toNat

/-- The dirty rectangle, aligned and clipped to the surface (R190). -/
def pendingRegion (g : Regs) (d : Dirty) : Region :=
  alignRegion d.dl.toNat d.dt.toNat (d.dr.toNat - d.dl.toNat) (d.db.toNat - d.dt.toNat) g.surfW.toNat g.surfH.toNat

/-- The whole screen (R191). -/
def wholeScreen (g : Regs) : Region := { x := 0, y := 0, w := g.scrW.toNat, h := g.scrH.toNat }

/-- The byte v is plane k's of (column c, row y) by R142 and R144: bit 7 − i is bit k of the dithered index of surface pixel
(x + 8c + i, y + row). -/
def PackedByte (s : State) (r : Region) (k c y : Nat) (v : Byte) : Prop :=
  ∀ i, i < 8 → v.getLsbD (7 - i) =
    (quantize s.cfg.palette (read32 s.mem (pixAddr s.ops (r.x + 8 * c + i) (r.y + y))) (r.x + 8 * c + i) (r.y + y)).getLsbD k

/-- The output of PackRegion (R144): every byte of the four plane buffers is the packed one. -/
def PackedFrom (s t : State) (r : Region) : Prop :=
  ∀ k c y, k < 4 → c < rowBytes r → y < r.h → PackedByte s r k c y (byteAt t.mem (packAddr s.ops r k c y))

/-- Every byte outside the region's output range reads as before (R236, R144). -/
def OutsideOutputKept (s t : State) (r : Region) : Prop :=
  ∀ a : Word, covers (packOut s.ops r) a = false → byteAt t.mem a = byteAt s.mem a

/-- The events of R188 for a region whose packed bytes lie in the memory of t: per plane, SelectPlane and one copy a row, then
RESTORE_SEQ. -/
def FlushEvents (s t : State) (r : Region) : List HsEvent :=
  (List.range 4).flatMap (fun k =>
    HsEvent.selectPlane (BitVec.ofNat 2 k) ::
      (List.range r.h).map fun y =>
        HsEvent.copyIntoDevice (BitVec.ofNat 32 ((r.y + y) * (s.ops.scrW.toNat / 8) + r.x / 8))
          ((List.range (rowBytes r)).map fun c => byteAt t.mem (packAddr s.ops r k c y))) ++
    s.cfg.restoreSeq.map fun w => HsEvent.outPort w.port w.value

/-! ### Results that are any value to the running command (R76, R71 c) -/

/-- The colour at a is any value to the latched command: one of its three bytes was raced (R71 c), or the command has written one
(R76: that byte lies in its input and in its output). -/
def ColourOpen (s : State) (written : Word → Prop) (a : Word) : Prop :=
  ∃ d, d < 3 ∧ (a + BitVec.ofNat 32 d ∈ s.raced ∨ written (a + BitVec.ofNat 32 d))

/-- The output byte at a is any value whatever is written to it: it was raced (R71 c) or lies in the surface (R76). -/
def ByteOpen (s : State) (a : Word) : Prop := a ∈ s.raced ∨ covers (surfaceRange s.ops) a = true

/-- The bytes QSURF8 has written when it reads pixel (px, py) (R114). -/
def qsurfWritten (g : Regs) (px py : Nat) (b : Word) : Prop :=
  ∃ n, n < py * g.surfW.toNat + px ∧ b = g.outBase + BitVec.ofNat 32 n

/-- The bytes PackRegion has written when it reads byte column c of row y (R144). -/
def packWritten (g : Regs) (r : Region) (c y : Nat) (b : Word) : Prop :=
  ∃ k c' y', k < 4 ∧ c' < rowBytes r ∧ y' * rowBytes r + c' < y * rowBytes r + c ∧ b = packAddr g r k c' y'

/-- A pixel of byte column c of row y is any value to the command. -/
def ColumnOpen (s : State) (r : Region) (c y : Nat) : Prop :=
  ∃ i, i < 8 ∧ ColourOpen s (packWritten s.ops r c y) (pixAddr s.ops (r.x + 8 * c + i) (r.y + y))

/-- What PackRegion leaves in memory, on any bytes: a free value where R76 or R71 (c) says any value, the packed byte elsewhere, and
no byte outside the output range changed. -/
def PackedWhereDefinite (s t : State) (r : Region) : Prop :=
  (∀ k c y, k < 4 → c < rowBytes r → y < r.h →
    (ColumnOpen s r c y ∨ ByteOpen s (packAddr s.ops r k c y) → FreeIn s t (.byte (packAddr s.ops r k c y))) ∧
    (¬ (ColumnOpen s r c y ∨ ByteOpen s (packAddr s.ops r k c y)) →
      PackedByte s r k c y (byteAt t.mem (packAddr s.ops r k c y)))) ∧
  OutsideOutputKept s t r

/-- What a flush delivers, on any bytes: the events of R188, each copied byte a free value where a pixel of its column is any value
to the command and the packed byte elsewhere, as the copies are of the command's own bytes and not of memory (R144). -/
def EventsWhereDefinite (s t : State) (r : Region) : Prop :=
  t.events.take s.events.length = s.events ∧
  t.events.map HsEvent.shape = (s.events ++ FlushEvents s t r).map HsEvent.shape ∧
  ∀ k c y, k < 4 → c < rowBytes r → y < r.h →
    (ColumnOpen s r c y → FreeIn s t (.eventByte (s.events.length + k * (1 + r.h) + 1 + y) c)) ∧
    (¬ ColumnOpen s r c y → ∃ o bs v, t.events[s.events.length + k * (1 + r.h) + 1 + y]? = some (.copyIntoDevice o bs) ∧
      bs[c]? = some v ∧ PackedByte s r k c y v)

end Sys2Proof.Machine
end

