-- ==== Sys2Proof/Certificates/Slice0/Obligations.lean ====
section
/-! DEFINITION. The statements for the provers, taken from the numbered rules of the spec. -/

open Sys2Proof Sys2Proof.Machine

/-! ### Encoding and decoding -/

/-- R91: the fifteen command words, written out, decode to their commands and are what the encoder gives. -/
def Obligations.LegalWordsDecode : Prop :=
  decode 0x00000000#32 = .ok .nop ∧ decode 0x00000001#32 = .ok .nearest ∧ decode 0x00000002#32 = .ok .dthr ∧
  decode 0x00000003#32 = .ok .qpix ∧ decode 0x00000004#32 = .ok .remap ∧ decode 0x00000005#32 = .ok .qsurf8 ∧
  decode 0x00000010#32 = .ok .lutinit ∧ decode 0x00000011#32 = .ok .pair ∧ decode 0x00000012#32 = .ok .pack8 ∧
  decode 0x00000013#32 = .ok .align ∧ decode 0x00000014#32 = .ok .packr ∧ decode 0x00000020#32 = .ok .pflush ∧
  decode 0x00000021#32 = .ok .pfull ∧ decode 0x00000030#32 = .ok .mark ∧ decode 0x00000031#32 = .ok .clear ∧
  Instr.all.map encode = [0x00000000#32, 0x00000001#32, 0x00000002#32, 0x00000003#32, 0x00000004#32, 0x00000005#32,
    0x00000010#32, 0x00000011#32, 0x00000012#32, 0x00000013#32, 0x00000014#32, 0x00000020#32, 0x00000021#32, 0x00000030#32,
    0x00000031#32]

/-- R81, R84, R88: a word decodes to a command exactly when it is that command's encoding: no second word and no lost bit. -/
def Obligations.DecodeEncodeAgree : Prop :=
  ∀ (c : Word) (i : Instr), decode c = .ok i ↔ c = encode i

/-- R88: the decoder is total and checks OP before RSV; execution raises the one error found, or runs the one command. -/
def Obligations.DecodeOrderTotal : Prop :=
  ∀ (c : Word) (s : State), s.cmd.word = c →
    (¬ LegalOp c → decode c = .error .illegalOpcode ∧ executeLatched s = .next (s.raise .illegalOpcode 0#32)) ∧
    (LegalOp c → 256 ≤ c.toNat → decode c = .error .reservedBits ∧ executeLatched s = .next (s.raise .reservedBits 0#32)) ∧
    (LegalOp c → c.toNat < 256 → ∃ i, decode c = .ok i ∧ c = encode i ∧ executeLatched s = exec i s)

/-! ### Steps, acceptance and errors -/

/-- R41, R88, R89, R250: a step. When BDQ moves and the latched word decodes, the step is that command's meaning, on the latched
operands (with the turn used up); when the host moves, with BUSY = 0 or on its turn, it is the host's next store or load; with no
action left the host changes nothing, so that with BUSY = 0 all state is kept. Who moves while BUSY = 1 is the model's list of
turns (log entry 6, DESIGN CHOICE), the host's program its list of actions (log entry 5, DESIGN CHOICE). -/
def Obligations.StepRunsDecodedCommand : Prop :=
  (∀ (s : State) (l : Latch) (i : Instr), s.latch = some l → decode l.word = .ok i →
    s.cmd = l ∧ s.ops = l.regs ∧ (s.turns = [] → step s = exec i s) ∧
    (∀ ts, s.turns = .bdq :: ts → step s = exec i { s with turns := ts })) ∧
  (∀ (s : State) (a : Word) (w : Width) (v : Word) (rest : List HostAction), s.host = .store a w v :: rest →
    (s.busy = false → step s = hostStore a w v { s with host := rest }) ∧
    (∀ ts, s.busy = true → s.turns = .host :: ts → step s = hostStore a w v { s with host := rest, turns := ts })) ∧
  (∀ (s : State) (a : Word) (w : Width) (x : Nat) (rest : List HostAction), s.host = .load a w x :: rest →
    (s.busy = false → step s = hostLoad a w x { s with host := rest }) ∧
    (∀ ts, s.busy = true → s.turns = .host :: ts → step s = hostLoad a w x { s with host := rest, turns := ts })) ∧
  (∀ s : State, s.host = [] →
    (s.busy = false → step s = .next s) ∧
    (∀ ts, s.busy = true → s.turns = .host :: ts → step s = .next { s with turns := ts }))

/-- R231: an illegal OP raises IllegalOpcode at execution; nothing but the error record and BUSY changes. -/
def Obligations.IllegalOpcodeRaised : Prop :=
  ∀ (s : State) (l : Latch), s.latch = some l → s.turns = [] → ¬ LegalOp l.word →
    ∃ t, step s = .next t ∧ Recorded .illegalOpcode 0#32 s t ∧ Idle t ∧ SetupKept s t ∧ ErrorKept s t ∧ MemoryKept s t ∧
      t.lutrdy = s.lutrdy ∧ t.freeCtr = s.freeCtr

/-- R86, R232: a legal OP with nonzero RSV raises ReservedBits at execution; nothing but the error record and BUSY changes. -/
def Obligations.ReservedBitsRaised : Prop :=
  ∀ (s : State) (l : Latch), s.latch = some l → s.turns = [] → LegalOp l.word → 256 ≤ l.word.toNat →
    ∃ t, step s = .next t ∧ Recorded .reservedBits 0#32 s t ∧ Idle t ∧ SetupKept s t ∧ ErrorKept s t ∧ MemoryKept s t ∧
      t.lutrdy = s.lutrdy ∧ t.freeCtr = s.freeCtr

/-- R40, R233: a CMD write with BUSY = 0 latches the word and the registers and leaves the registers, RES0, RES1, LUTRDY, the dirty
state, the error record, memory and the events as they are; with BUSY = 1 it is dropped with BusyCommand; writes to other registers
leave the latch alone, and no read shows what is latched. -/
def Obligations.CmdWriteLatchesOrDrops : Prop :=
  (∀ (s : State) (c : Word), s.busy = false →
    (writeReg c s .cmd).busy = true ∧ (writeReg c s .cmd).latch = some { word := c, regs := s.regs } ∧
    (writeReg c s .cmd).errs = s.errs ∧ (writeReg c s .cmd).regs = s.regs ∧
    (writeReg c s .cmd).res0 = s.res0 ∧ (writeReg c s .cmd).res1 = s.res1 ∧ (writeReg c s .cmd).lutrdy = s.lutrdy ∧
    (writeReg c s .cmd).dirty = s.dirty ∧ (writeReg c s .cmd).mem = s.mem ∧ (writeReg c s .cmd).events = s.events ∧
    (writeReg c s .cmd).cfg = s.cfg ∧ (writeReg c s .cmd).host = s.host ∧ (writeReg c s .cmd).vars = s.vars) ∧
  (∀ (s : State) (c : Word), s.busy = true →
    (writeReg c s .cmd).latch = s.latch ∧
    (s.errs.err = true → writeReg c s .cmd = s) ∧
    (s.errs.err = false → writeReg c s .cmd = { s with errs := { err := true, code := 3#4, addr := 0#32, cmd := c } })) ∧
  (∀ (s : State) (r : Reg) (v : Word), r ≠ .cmd → (writeReg v s r).latch = s.latch) ∧
  (∀ (s : State) (r : Reg) (l l' : Latch), readReg { s with latch := some l } r = readReg { s with latch := some l' } r)

/-- R27: a STATUS write clears the error record exactly when bit 3 of the value is 1, with BUSY 0 or 1, and does nothing else; an
error the running command raises after it is recorded. -/
def Obligations.StatusWriteClears : Prop :=
  ∀ (s : State) (v : Word),
    (v.getLsbD 3 = true →
      writeReg v s .status = { s with errs := { err := false, code := 0#4, addr := 0#32, cmd := 0#32 } } ∧
      ∀ (e : ErrorKind) (a : Word),
        ((writeReg v s .status).raise e a).errs = { err := true, code := e.code, addr := a, cmd := s.cmd.word }) ∧
    (v.getLsbD 3 = false → writeReg v s .status = s)

/-- R237: the first error since the last clear is kept, a later one is not recorded. -/
def Obligations.FirstErrorKept : Prop :=
  ∀ (s : State) (e e' : ErrorKind) (c c' a a' : Word),
    (s.errs.err = false → (s.record e c a).errs = { err := true, code := e.code, addr := a, cmd := c }) ∧
    (s.errs.err = true → s.record e c a = s) ∧
    (s.record e c a).record e' c' a' = s.record e c a

/-! ### The register window -/

/-- R26, R39: the fields of STATUS, DIRTY being DV, and the error registers ERRADDR and ERRCMD as the host reads them. That LUTRDY
shows the value held from before the CMD write while BUSY = 1, and the current one in the read that returns BUSY = 0, is the
model's reading of R265 (log entry 16, DEDUCED). -/
def Obligations.StatusWordLayout : Prop :=
  ∀ s : State,
    (readReg s .status).getLsbD 0 = s.latch.isSome ∧
    (s.latch = none ∨ s.held = none → (readReg s .status).getLsbD 1 = s.lutrdy) ∧
    (∀ h, s.latch.isSome = true → s.held = some h → (readReg s .status).getLsbD 1 = h.lutrdy) ∧
    (readReg s .status).getLsbD 2 = s.dirty.dv ∧ (readReg s .status).getLsbD 3 = s.errs.err ∧
    (readReg s .status).extractLsb' 4 4 = s.errs.code ∧ (readReg s .status).extractLsb' 8 24 = 0#24 ∧
    readReg s .erraddr = s.errs.addr ∧ readReg s .errcmd = s.errs.cmd

/-- R34, R35, R36: ID and the views of TM and PALETTE. -/
def Obligations.ConstantViews : Prop :=
  ∀ s : State,
    readReg s .id = 0x42445101#32 ∧
    readReg s (.tmat 0#2) = 0x0A020800#32 ∧ readReg s (.tmat 1#2) = 0x060E040C#32 ∧
    readReg s (.tmat 2#2) = 0x09010B03#32 ∧ readReg s (.tmat 3#2) = 0x050D070F#32 ∧
    (∀ (i : BitVec 4) (e : Rgb), s.cfg.palette.toList[i.toNat]? = some e → readReg s (.pal i) = 0x00#8 ++ e.r ++ e.g ++ e.b) ∧
    (∀ i : BitVec 4, ∃ e : Rgb, s.cfg.palette.toList[i.toNat]? = some e)

/-- R38: STATUS.DIRTY is DV in every state; the dirty registers are views of the dirty state once the host has read BUSY = 0 (no
value is held, R265). The widths are differences of edges, so they are stated for dirty states that obey R37. -/
def Obligations.DirtyViews : Prop :=
  (∀ s : State, (readReg s .status).getLsbD 2 = s.dirty.dv) ∧
  ∀ s : State, s.held = none →
    (readReg s .dirtyX).toNat = s.dirty.dl.toNat ∧ (readReg s .dirtyY).toNat = s.dirty.dt.toNat ∧
    (s.dirty.wf = true →
      (readReg s .dirtyW).toNat = s.dirty.dr.toNat - s.dirty.dl.toNat ∧
      (readReg s .dirtyH).toNat = s.dirty.db.toNat - s.dirty.dt.toNat ∧
      (s.dirty.dv = false → readReg s .dirtyX = 0#32 ∧ readReg s .dirtyY = 0#32 ∧ readReg s .dirtyW = 0#32 ∧
        readReg s .dirtyH = 0#32))

/-- R265: from a CMD write until a STATUS read returns BUSY = 0, host reads of the result and dirty registers return the previous
values, also when the command has executed; after that STATUS read they return the command's results. That the previous values stay
also between execution and the STATUS read is R265's wording (log entry 16). -/
def Obligations.EarlyReadsShowPreviousValues : Prop :=
  ∀ (s t : State) (c : Word) (r : Reg), s.busy = false → s.held = none →
    r ∈ [Reg.res0, .res1, .dirtyX, .dirtyY, .dirtyW, .dirtyH] →
    readReg (writeReg c s .cmd) r = readReg s r ∧
    (readReg (writeReg c s .cmd) .status).getLsbD 1 = s.lutrdy ∧ (readReg (writeReg c s .cmd) .status).getLsbD 2 = s.dirty.dv ∧
    (executeLatched (writeReg c s .cmd) = .next t →
      readReg t r = readReg s r ∧
      (readReg t .status).getLsbD 0 = false ∧ (readReg t .status).getLsbD 1 = t.lutrdy ∧
      (readReg t .status).getLsbD 2 = t.dirty.dv ∧ (afterRead t .status).held = none ∧
      readReg (afterRead t .status) .res0 = t.res0 ∧ readReg (afterRead t .status) .res1 = t.res1 ∧
      readReg (afterRead t .status) .dirtyX = t.dirty.dl.zeroExtend 32 ∧
      readReg (afterRead t .status) .dirtyY = t.dirty.dt.zeroExtend 32)

/-- R20, R21, R22, R89: a 32-bit host store at a register's offset writes that register and a load there binds what it reads as (of
the registers a read of STATUS alone changes anything, and that only with BUSY = 0); the offsets are R22's; a 4-aligned offset that
names none reads 0 and ignores writes; read-only registers ignore writes; CMD reads 0. What a STATUS read with BUSY = 0 ends, the
values held for host reads and the ranges to be left alone, is the model's reading of R265 and R266 (log entries 16, DEDUCED, and
11, DESIGN CHOICE). -/
def Obligations.UnnamedOffsetsReadZero : Prop :=
  (∀ r : Reg, regAt r.offset = some r) ∧
  [Reg.id, .status, .cmd, .ctrl, .arg0, .arg1, .arg2, .arg3, .res0, .res1, .erraddr, .errcmd, .dirtyX, .dirtyY, .dirtyW,
    .dirtyH, .scrW, .scrH, .surfBase, .surfW, .surfH, .outBase].map Reg.offset = (List.range 22).map (4 * ·) ∧
  (∀ i : BitVec 4, (Reg.pal i).offset = 0x80 + 4 * i.toNat) ∧ (∀ y : BitVec 2, (Reg.tmat y).offset = 0xC0 + 4 * y.toNat) ∧
  (∀ (s : State) (r : Reg) (v : Word) (x : Nat),
    hostStore (s.cfg.base + BitVec.ofNat 32 r.offset) .word v s = .next (writeReg v s r) ∧
    hostLoad (s.cfg.base + BitVec.ofNat 32 r.offset) .word x s =
      .next { afterRead s r with vars := s.vars ++ [(x, readReg s r)] } ∧
    (r ≠ .status ∨ s.busy = true → afterRead s r = s)) ∧
  (∀ s : State, s.busy = false →
    afterRead s .status = { s with held := none, hazard := { reads := [], writes := [] }, uses := [] }) ∧
  (∀ (s : State) (off x : Nat) (v : Word), off < 256 → off % 4 = 0 → (∀ r : Reg, r.offset ≠ off) →
    hostStore (s.cfg.base + BitVec.ofNat 32 off) .word v s = .next s ∧
    hostLoad (s.cfg.base + BitVec.ofNat 32 off) .word x s = .next { s with vars := s.vars ++ [(x, 0#32)] }) ∧
  (∀ (s : State) (v : Word) (r : Reg),
    r ∈ [Reg.id, .res0, .res1, .erraddr, .errcmd, .dirtyX, .dirtyY, .dirtyW, .dirtyH] ∨ (∃ i, r = .pal i) ∨ (∃ y, r = .tmat y) →
    writeReg v s r = s) ∧
  (∀ s : State, readReg s .cmd = 0#32)

/-- R22, R23, R28, R29: each read/write register reads as the field of the registers a CMD write latches (R40) that bears its name;
what it stores of a written value, and that a write changes no other register. -/
def Obligations.RegisterWriteReadBack : Prop :=
  (∀ s : State,
    readReg s .arg0 = s.regs.arg0 ∧ readReg s .arg1 = s.regs.arg1 ∧ readReg s .arg2 = s.regs.arg2 ∧
    readReg s .arg3 = s.regs.arg3 ∧ readReg s .surfBase = s.regs.surfBase ∧ readReg s .outBase = s.regs.outBase ∧
    (readReg s .scrW).toNat = s.regs.scrW.toNat ∧ (readReg s .scrH).toNat = s.regs.scrH.toNat ∧
    (readReg s .surfW).toNat = s.regs.surfW.toNat ∧ (readReg s .surfH).toNat = s.regs.surfH.toNat ∧
    readReg s .ctrl = if s.regs.hsen then 1#32 else 0#32) ∧
  (∀ (s : State) (v : Word) (r : Reg), r ∈ [Reg.arg0, .arg1, .arg2, .arg3, .surfBase, .outBase] → readReg (writeReg v s r) r = v) ∧
  (∀ (s : State) (v : Word) (r : Reg), r ∈ [Reg.scrW, .scrH, .surfW, .surfH] →
    (readReg (writeReg v s r) r).toNat = v.toNat % 65536) ∧
  (∀ (s : State) (v : Word), (readReg (writeReg v s .ctrl) .ctrl).toNat = v.toNat % 2) ∧
  (∀ (s : State) (v : Word) (r r' : Reg), r ≠ .cmd → r ≠ .status → r ≠ r' → readReg (writeReg v s r) r' = readReg s r')

/-- R20, R270: an access touches the 256-byte register window when one of its bytes lies there; a host access that touches the
register window and is not a 32-bit access at a 4-aligned offset is refused, and no other store or load is. The refusal is log entry
7 (DESIGN CHOICE). Outside the window every width and address is taken (log entry 18, DESIGN CHOICE: R89 names the 32-bit store and
the byte load), whatever MEM_ERR says (log entry 15, DEDUCED). -/
def Obligations.NarrowWindowAccessRefused : Prop :=
  (∀ (k : Config) (a : Word),
    (touchesWindow k a .byte = true ↔ (a - k.base).toNat < 256) ∧
    (touchesWindow k a .half = true ↔ ∃ i, i < 2 ∧ (a + BitVec.ofNat 32 i - k.base).toNat < 256) ∧
    (touchesWindow k a .word = true ↔ ∃ i, i < 4 ∧ (a + BitVec.ofNat 32 i - k.base).toNat < 256)) ∧
  ∀ (s : State) (a v : Word) (w : Width) (x : Nat),
    (touchesWindow s.cfg a w = true → ¬ (w = .word ∧ (a - s.cfg.base).toNat % 4 = 0) →
      hostStore a w v s = .refused .hostAccess ∧ hostLoad a w x s = .refused .hostAccess) ∧
    (touchesWindow s.cfg a w = false ∨ (w = .word ∧ (a - s.cfg.base).toNat % 4 = 0) →
      (∃ t, hostStore a w v s = .next t) ∧ ∃ t, hostLoad a w x s = .next t)

/-! ### Colour quantizer -/

/-- R100, R101: Nearest returns the first entry of least squared distance, computed exactly. -/
def Obligations.NearestFirstMinimum : Prop :=
  (∀ (p : Palette) (i : BitVec 4), p.toList[i.toNat]? = some (paletteEntry p i)) ∧
  (∀ c e : Rgb, (distSq c e : Int) = ((c.r.toNat : Int) - e.r.toNat) ^ 2 + ((c.g.toNat : Int) - e.g.toNat) ^ 2 +
    ((c.b.toNat : Int) - e.b.toNat) ^ 2 ∧ distSq c e ≤ 195075) ∧
  (∀ (p : Palette) (c : Rgb),
    (nearest p c).distance = distSq c (paletteEntry p (nearest p c).index) ∧
    (∀ j : BitVec 4, (nearest p c).distance ≤ distSq c (paletteEntry p j) ∧
      (j.toNat < (nearest p c).index.toNat → (nearest p c).distance < distSq c (paletteEntry p j))))

/-- R110: NEAREST (word 0x00000001) writes index and distance of the nearest entry to the colour in ARG0, alpha ignored, and
changes nothing else. -/
def Obligations.NearestResult : Prop :=
  decode 0x00000001#32 = .ok .nearest ∧ ∀ s : State, ∃ t, exec .nearest s = .next t ∧
    t.res0.toNat = (nearest s.cfg.palette (Rgb.mk (s.ops.arg0.extractLsb' 16 8)
      (s.ops.arg0.extractLsb' 8 8) (s.ops.arg0.extractLsb' 0 8))).index.toNat ∧
    t.res1.toNat = (nearest s.cfg.palette (Rgb.mk (s.ops.arg0.extractLsb' 16 8)
      (s.ops.arg0.extractLsb' 8 8) (s.ops.arg0.extractLsb' 0 8))).distance ∧
    (s.cfg.wf = true → s.ops.arg0 = 0x00AAAAAA#32 → t.res0 = 7#32 ∧ t.res1 = 0#32) ∧
    Idle t ∧ SetupKept s t ∧ MemoryKept s t ∧ t.events = s.events ∧ t.dirty = s.dirty ∧ t.errs = s.errs ∧
    t.lutrdy = s.lutrdy ∧ t.freeCtr = s.freeCtr

/-- R105 (b): every entry's colour finds its own index at distance 0 if and only if the entries are pairwise distinct. -/
def Obligations.PaletteRoundTrip : Prop :=
  ∀ p : Palette,
    (∀ i : BitVec 4, nearest p (paletteEntry p i) = { index := i, distance := 0 }) ↔
      (∀ i j : BitVec 4, paletteEntry p i = paletteEntry p j → i = j)

/-- R111: DTHR (word 0x00000002) writes (m − 8) * 8 sign-extended and m, m = TM[y mod 4][x mod 4] of R32, and changes nothing
else. -/
def Obligations.DthrResult : Prop :=
  decode 0x00000002#32 = .ok .dthr ∧ ∀ s : State, ∃ (t : State) (m : Nat),
    exec .dthr s = .next t ∧
    [0, 8, 2, 10, 12, 4, 14, 6, 3, 11, 1, 9, 15, 7, 13, 5][4 * ((s.ops.arg0.toNat / 65536) % 4) + s.ops.arg0.toNat % 4]? =
      some m ∧
    t.res0.toInt = ((m : Int) - 8) * 8 ∧ t.res1.toNat = m ∧
    Idle t ∧ SetupKept s t ∧ MemoryKept s t ∧ t.events = s.events ∧ t.dirty = s.dirty ∧ t.errs = s.errs ∧
    t.lutrdy = s.lutrdy ∧ t.freeCtr = s.freeCtr

/-- R112: QPIX (word 0x00000003) writes the index nearest to the dithered colour and that colour, each channel clamped to 0..255. -/
def Obligations.QpixResult : Prop :=
  decode 0x00000003#32 = .ok .qpix ∧ ∀ s : State, ∃ (t : State) (c : Rgb),
    exec .qpix s = .next t ∧
    (c.r.toNat : Int) =
      min (max (((s.ops.arg0.extractLsb' 16 8).toNat : Int) + thr (s.ops.arg1.toNat % 65536) (s.ops.arg1.toNat / 65536)) 0) 255 ∧
    (c.g.toNat : Int) =
      min (max (((s.ops.arg0.extractLsb' 8 8).toNat : Int) + thr (s.ops.arg1.toNat % 65536) (s.ops.arg1.toNat / 65536)) 0) 255 ∧
    (c.b.toNat : Int) =
      min (max (((s.ops.arg0.extractLsb' 0 8).toNat : Int) + thr (s.ops.arg1.toNat % 65536) (s.ops.arg1.toNat / 65536)) 0) 255 ∧
    t.res0.toNat = (nearest s.cfg.palette c).index.toNat ∧ t.res1 = 0x00#8 ++ c.r ++ c.g ++ c.b ∧
    Idle t ∧ SetupKept s t ∧ MemoryKept s t ∧ t.events = s.events ∧ t.dirty = s.dirty ∧ t.errs = s.errs ∧
    t.lutrdy = s.lutrdy ∧ t.freeCtr = s.freeCtr

/-- R102, R103, R104, R105 (d) and (e): the dithered index is that of the entry nearest to the colour whose channels are those of
the word plus the offset, clamped to 0..255; the offset lies in −64..56 and depends only on x mod 4 and y mod 4, and so does the
index; where the offset is 0, exactly at (1, 0), it is the index of the plain colour. -/
def Obligations.QuantizePositionLaws : Prop :=
  ∀ (p : Palette) (c : Word) (x y : Nat),
    (∃ d : Rgb, quantize p c x y = (nearest p d).index ∧
      (d.r.toNat : Int) = min (max (((c.extractLsb' 16 8).toNat : Int) + thr x y) 0) 255 ∧
      (d.g.toNat : Int) = min (max (((c.extractLsb' 8 8).toNat : Int) + thr x y) 0) 255 ∧
      (d.b.toNat : Int) = min (max (((c.extractLsb' 0 8).toNat : Int) + thr x y) 0) 255) ∧
    (∀ m : Nat, [0, 8, 2, 10, 12, 4, 14, 6, 3, 11, 1, 9, 15, 7, 13, 5][4 * (y % 4) + x % 4]? = some m →
      thr x y = ((m : Int) - 8) * 8) ∧
    thr x y = thr (x % 4) (y % 4) ∧ -64 ≤ thr x y ∧ thr x y ≤ 56 ∧
    quantize p c x y = quantize p c (x % 4) (y % 4) ∧
    (tm y x = 8 ↔ x % 4 = 1 ∧ y % 4 = 0) ∧
    (tm y x = 8 → quantize p c x y = (nearest p { r := c.extractLsb' 16 8, g := c.extractLsb' 8 8, b := c.extractLsb' 0 8 }).index)

/-- R113: REMAP writes the nearest index of each of the first min(count, 16) source entries, index 0 for the rest, and changes
nothing else; no alignment is asked for when it reads nothing. The first source entry whose read fails is the one BusError names
(R236, R238); RES0 and RES1 stay. That a nibble is recorded to depend on the three colour bytes of its entry (uses) is the model's
reading of R266 (log entry 11); raced entries are OverlapOrRaceFreesResults. -/
def Obligations.RemapResult : Prop :=
  (∀ w : Word, colourOf w = { r := w.extractLsb' 16 8, g := w.extractLsb' 8 8, b := w.extractLsb' 0 8 }) ∧
  (∀ s : State, s.raced = [] → (s.ops.arg1.toNat = 0 ∨ s.ops.arg0.toNat % 4 = 0) →
    (∀ j, j < min s.ops.arg1.toNat 16 → memErrAt s.cfg (s.ops.arg0 + BitVec.ofNat 32 (4 * j)) .read = false) →
    ∃ t, exec .remap s = .next t ∧
      (∀ j, j < 16 →
        (if j < 8 then t.res0.extractLsb' (4 * j) 4 else t.res1.extractLsb' (4 * (j - 8)) 4) =
          if j < min s.ops.arg1.toNat 16 then
            (nearest s.cfg.palette (colourOf (read32 s.mem (s.ops.arg0 + BitVec.ofNat 32 (4 * j))))).index
          else 0#4) ∧
      Idle t ∧ SetupKept s t ∧ MemoryKept s t ∧ t.events = s.events ∧ t.dirty = s.dirty ∧ t.errs = s.errs ∧
      t.lutrdy = s.lutrdy ∧ t.freeCtr = s.freeCtr ∧
      t.uses = s.uses ++ (List.range (min s.ops.arg1.toNat 16)).map fun j =>
        { inputs := [{ start := s.ops.arg0 + BitVec.ofNat 32 (4 * j), len := 3 }], result := .nibble j }) ∧
  ∀ (s : State) (j : Nat), s.ops.arg0.toNat % 4 = 0 → j < min s.ops.arg1.toNat 16 →
    (∀ i, i < j → memErrAt s.cfg (s.ops.arg0 + BitVec.ofNat 32 (4 * i)) .read = false) →
    memErrAt s.cfg (s.ops.arg0 + BitVec.ofNat 32 (4 * j)) .read = true →
    ∃ t, exec .remap s = .next t ∧ Recorded .busError (s.ops.arg0 + BitVec.ofNat 32 (4 * j)) s t ∧
      Idle t ∧ SetupKept s t ∧ ErrorKept s t ∧ MemoryKept s t ∧ t.lutrdy = s.lutrdy

/-- R63, R114: a surface pixel lies at SURF_BASE + 4 * (py * SURF_W + px), mod 2^32 (R66); QSURF8 writes the dithered index of
every pixel to its output byte, with the upper nibble 0, and no byte outside its output range; RES0, RES1 and the dirty state stay.
A surface with no pixel makes it do nothing and raise nothing, whatever SURF_BASE holds. That a byte is recorded to depend on the
three colour bytes of its pixel (uses) is the model's reading of R266 (log entry 11); output that overlaps the surface and raced
bytes are OverlapOrRaceFreesResults. -/
def Obligations.QsurfResult : Prop :=
  (∀ (g : Regs) (px py : Nat),
    (pixAddr g px py).toNat = (g.surfBase.toNat + 4 * (py * g.surfW.toNat + px)) % 2 ^ 32 ∧
    (pixelColour g px py).start = pixAddr g px py ∧
    surfaceRange g = { start := g.surfBase, len := 4 * (g.surfW.toNat * g.surfH.toNat) }) ∧
  (∀ s : State, s.ops.surfW = 0#16 ∨ s.ops.surfH = 0#16 → exec .qsurf8 s = .next { s with latch := none, raced := [] }) ∧
  ∀ s : State, Memory.wf s.mem = true → s.raced = [] → s.ops.surfBase.toNat % 4 = 0 →
    s.ops.surfW.toNat ≠ 0 → s.ops.surfH.toNat ≠ 0 →
    (∀ px py, px < s.ops.surfW.toNat → py < s.ops.surfH.toNat → memErrAt s.cfg (pixAddr s.ops px py) .read = false) →
    (∀ n, n < s.ops.surfW.toNat * s.ops.surfH.toNat →
      memErrAt s.cfg (s.ops.outBase + BitVec.ofNat 32 n) .write = false ∧
      covers (surfaceRange s.ops) (s.ops.outBase + BitVec.ofNat 32 n) = false) →
    ∃ t, exec .qsurf8 s = .next t ∧
      (∀ px py, px < s.ops.surfW.toNat → py < s.ops.surfH.toNat →
        (byteAt t.mem (s.ops.outBase + BitVec.ofNat 32 (py * s.ops.surfW.toNat + px))).toNat =
          (quantize s.cfg.palette (read32 s.mem (pixAddr s.ops px py)) px py).toNat) ∧
      (∀ a : Word, covers (qsurfOut s.ops) a = false → byteAt t.mem a = byteAt s.mem a) ∧
      Idle t ∧ SetupKept s t ∧ t.res0 = s.res0 ∧ t.res1 = s.res1 ∧ t.dirty = s.dirty ∧ t.events = s.events ∧
      t.errs = s.errs ∧ t.lutrdy = s.lutrdy ∧ t.freeCtr = s.freeCtr ∧
      t.uses = s.uses ++ (List.range s.ops.surfH.toNat).flatMap fun y => (List.range s.ops.surfW.toNat).map fun x =>
        { inputs := [pixelColour s.ops x y], result := .byte (s.ops.outBase + BitVec.ofNat 32 (y * s.ops.surfW.toNat + x)) }

/-! ### Packer -/

/-- R150: LUTINIT (word 0x00000010) sets LUTRDY and changes nothing else. -/
def Obligations.LutinitResult : Prop :=
  decode 0x00000010#32 = .ok .lutinit ∧ ∀ s : State, exec .lutinit s = .next { s with lutrdy := true, latch := none, raced := [] }

/-- R33, R151: PAIR (word 0x00000011) writes the four table entries of pair byte ARG0[7:0], plane k's in byte k of RES0: twice bit
k of the left pixel plus bit k of the right one; it sets LUTRDY and changes nothing else. -/
def Obligations.PairResult : Prop :=
  decode 0x00000011#32 = .ok .pair ∧ ∀ s : State, ∃ t, exec .pair s = .next t ∧
    (∀ k, k < 4 → t.res0.toNat / 256 ^ k % 256 =
      2 * (s.ops.arg0.toNat / 2 ^ (4 + k) % 2) + s.ops.arg0.toNat / 2 ^ k % 2) ∧
    t.res1 = s.res1 ∧ t.lutrdy = true ∧
    Idle t ∧ SetupKept s t ∧ MemoryKept s t ∧ t.events = s.events ∧ t.dirty = s.dirty ∧ t.errs = s.errs ∧
    t.freeCtr = s.freeCtr

/-- R142, R152: PACK8's (word 0x00000012) bit 7 − i of plane byte k (byte k of RES0) is bit k of pixel i = ARG0[31−4i : 28−4i]; it
sets LUTRDY and changes nothing else. -/
def Obligations.PackEightBitLaw : Prop :=
  decode 0x00000012#32 = .ok .pack8 ∧ ∀ s : State, ∃ t, exec .pack8 s = .next t ∧
    (∀ i k, i < 8 → k < 4 → t.res0.getLsbD (8 * k + (7 - i)) = s.ops.arg0.getLsbD (28 - 4 * i + k)) ∧
    t.res1 = s.res1 ∧ t.lutrdy = true ∧
    Idle t ∧ SetupKept s t ∧ MemoryKept s t ∧ t.events = s.events ∧ t.dirty = s.dirty ∧ t.errs = s.errs ∧
    t.freeCtr = s.freeCtr

/-- R143: the aligned region is made of whole 8-pixel columns, lies in the surface, covers exactly the surface pixels whose row is
in the region and whose 8-pixel column the region touches, and is (0, 0, 0, 0) when it covers none. -/
def Obligations.AlignRegionPixels : Prop :=
  ∀ (x y w h sw sh : Nat), sw % 8 = 0 →
    (alignRegion x y w h sw sh).x % 8 = 0 ∧ (alignRegion x y w h sw sh).w % 8 = 0 ∧
    (alignRegion x y w h sw sh).x + (alignRegion x y w h sw sh).w ≤ sw ∧
    (alignRegion x y w h sw sh).y + (alignRegion x y w h sw sh).h ≤ sh ∧
    (∀ px py,
      ((alignRegion x y w h sw sh).x ≤ px ∧ px < (alignRegion x y w h sw sh).x + (alignRegion x y w h sw sh).w ∧
        (alignRegion x y w h sw sh).y ≤ py ∧ py < (alignRegion x y w h sw sh).y + (alignRegion x y w h sw sh).h) ↔
      (0 < w ∧ 0 < h ∧ px < sw ∧ py < sh ∧ x / 8 ≤ px / 8 ∧ px / 8 ≤ (x + w - 1) / 8 ∧ y ≤ py ∧ py < y + h)) ∧
    ((alignRegion x y w h sw sh).w = 0 ∨ (alignRegion x y w h sw sh).h = 0 →
      alignRegion x y w h sw sh = { x := 0, y := 0, w := 0, h := 0 })

/-- R153: with a surface that passes R145, ALIGN writes the aligned region, every part in full, and changes nothing else. -/
def Obligations.AlignResult : Prop :=
  ∀ s : State, s.ops.surfW.toNat ≠ 0 → s.ops.surfH.toNat ≠ 0 → s.ops.surfW.toNat % 8 = 0 →
    ∃ (t : State) (r : Region), exec .align s = .next t ∧
      r = alignRegion (s.ops.arg0.toNat % 65536) (s.ops.arg0.toNat / 65536) (s.ops.arg1.toNat % 65536)
        (s.ops.arg1.toNat / 65536) s.ops.surfW.toNat s.ops.surfH.toNat ∧
      t.res0.toNat = r.y * 65536 + r.x ∧ t.res1.toNat = r.h * 65536 + r.w ∧
      r.x < 65536 ∧ r.y < 65536 ∧ r.w < 65536 ∧ r.h < 65536 ∧
      Idle t ∧ SetupKept s t ∧ MemoryKept s t ∧ t.events = s.events ∧ t.dirty = s.dirty ∧ t.errs = s.errs ∧
      t.lutrdy = s.lutrdy ∧ t.freeCtr = s.freeCtr

/-- R154, R144: byte (column c, row y) of plane buffer k lies at OUT_BASE + k * P + y * bw + c, mod 2^32 (R66); with a surface that
passes R145, PACKR packs the aligned region into its four plane buffers, writes no other byte, sets LUTRDY and returns the region;
no event, and the dirty state stays. A region that aligns to empty makes it write nothing and return (0, 0, 0, 0), whatever
SURF_BASE holds. That a byte is recorded to depend on the colour bytes of its column's eight pixels (uses) is the model's reading
of R266 (log entry 11); output that overlaps the surface and raced bytes are OverlapOrRaceFreesResults. -/
def Obligations.PackrResult : Prop :=
  (∀ (g : Regs) (r : Region) (k c y : Nat),
    (packAddr g r k c y).toNat = (g.outBase.toNat + k * (r.w / 8 * r.h) + y * (r.w / 8) + c) % 2 ^ 32 ∧
    rowBytes r = r.w / 8 ∧ planeSize r = r.w / 8 * r.h ∧ packOut g r = { start := g.outBase, len := 4 * (r.w / 8 * r.h) }) ∧
  ∀ (s : State) (r : Region), SurfaceFits s.ops → r = requestedRegion s.ops →
    (r.w = 0 →
      exec .packr s = .next { s with res0 := 0#32, res1 := 0#32, lutrdy := true, latch := none, raced := [] }) ∧
    (r.w ≠ 0 → Memory.wf s.mem = true → PackRuns s r →
      ∃ t, exec .packr s = .next t ∧ PackedFrom s t r ∧ OutsideOutputKept s t r ∧
        t.res0.toNat = r.y * 65536 + r.x ∧ t.res1.toNat = r.h * 65536 + r.w ∧ t.lutrdy = true ∧
        Idle t ∧ SetupKept s t ∧ t.events = s.events ∧ t.dirty = s.dirty ∧ t.errs = s.errs ∧ t.freeCtr = s.freeCtr ∧
        t.uses = s.uses ++ planeDependences s.ops r fun k c y => .byte (packAddr s.ops r k c y))

/-! ### Planar flush -/

/-- R184: with HSEN = 0, PFLUSH and PFULL only set LUTRDY; R190: so does PFLUSH with a clean dirty state. -/
def Obligations.FlushGates : Prop :=
  ∀ s : State,
    (s.ops.hsen = false →
      exec .pflush s = .next { s with lutrdy := true, latch := none, raced := [] } ∧
      exec .pfull s = .next { s with lutrdy := true, latch := none, raced := [] }) ∧
    (s.dirty.dv = false → exec .pflush s = .next { s with lutrdy := true, latch := none, raced := [] })

/-- R190, R144, R185, R188: with HSEN = 1, DV = 1 and a flush geometry that passes, PFLUSH packs the aligned dirty rectangle, emits
the events of R188 with the packed bytes, clears the dirty state and returns the region; a dirty rectangle that aligns to empty is
cleared and (0, 0, 0, 0) returned, with no access and no event. That a byte and the copy of it that an event carries are recorded
to depend on the colour bytes of the column's eight pixels (uses) is the model's reading of R266 (log entry 11); output that
overlaps the surface and raced bytes are OverlapOrRaceFreesResults. -/
def Obligations.PflushResult : Prop :=
  ∀ (s : State) (r : Region), s.ops.hsen = true → s.dirty.dv = true → FlushFits s.ops → r = pendingRegion s.ops s.dirty →
    (r.w = 0 →
      exec .pflush s = .next { s with
        res0 := 0#32
        res1 := 0#32
        lutrdy := true
        dirty := { dv := false, dl := 0#16, dt := 0#16, dr := 0#17, db := 0#17 }
        latch := none
        raced := [] }) ∧
    (r.w ≠ 0 → Memory.wf s.mem = true → PackRuns s r →
      ∃ t, exec .pflush s = .next t ∧ PackedFrom s t r ∧ OutsideOutputKept s t r ∧
        t.events = s.events ++ FlushEvents s t r ∧
        t.dirty = { dv := false, dl := 0#16, dt := 0#16, dr := 0#17, db := 0#17 } ∧
        t.res0.toNat = r.y * 65536 + r.x ∧ t.res1.toNat = r.h * 65536 + r.w ∧ t.lutrdy = true ∧
        Idle t ∧ SetupKept s t ∧ t.errs = s.errs ∧ t.freeCtr = s.freeCtr ∧
        t.uses = s.uses ++ (planeDependences s.ops r fun k c y => .byte (packAddr s.ops r k c y)) ++
        planeDependences s.ops r fun k c y => .eventByte (s.events.length + k * (1 + r.h) + 1 + y) c)

/-- R191, R144, R185, R188: with HSEN = 1 and a flush geometry that passes, PFULL packs the whole screen, emits the events of R188
and returns (0, 0, SCR_W, SCR_H); the dirty state stays. That a byte and the copy of it that an event carries are recorded to
depend on the colour bytes of the column's eight pixels (uses) is the model's reading of R266 (log entry 11); output that overlaps
the surface and raced bytes are OverlapOrRaceFreesResults. -/
def Obligations.PfullResult : Prop :=
  ∀ (s : State) (r : Region), Memory.wf s.mem = true → s.ops.hsen = true → FlushFits s.ops → r = wholeScreen s.ops →
    PackRuns s r →
    ∃ t, exec .pfull s = .next t ∧ PackedFrom s t r ∧ OutsideOutputKept s t r ∧
      t.events = s.events ++ FlushEvents s t r ∧ t.dirty = s.dirty ∧
      t.res0 = 0#32 ∧ t.res1.toNat = s.ops.scrH.toNat * 65536 + s.ops.scrW.toNat ∧ t.lutrdy = true ∧
      Idle t ∧ SetupKept s t ∧ t.errs = s.errs ∧ t.freeCtr = s.freeCtr ∧
      t.uses = s.uses ++ (planeDependences s.ops r fun k c y => .byte (packAddr s.ops r k c y)) ++
        planeDependences s.ops r fun k c y => .eventByte (s.events.length + k * (1 + r.h) + 1 + y) c

/-- R188, R181: a region of ah rows emits 4 + 4 * ah + |RESTORE_SEQ| events, the last of them RESTORE_SEQ; every device offset of
a region inside the screen fits 29 bits, and each copy carries one packed row. -/
def Obligations.RegionEventCount : Prop :=
  ∀ (k : Config) (g : Regs) (r : Region) (pb : List Planes),
    (regionEvents k g r pb).length = 4 + 4 * r.h + k.restoreSeq.length ∧
    (regionEvents k g r pb).drop (4 + 4 * r.h) = k.restoreSeq.map (fun w => HsEvent.outPort w.port w.value) ∧
    (r.x + r.w ≤ g.scrW.toNat → r.y + r.h ≤ g.scrH.toNat → 0 < r.w → g.scrW.toNat % 8 = 0 → pb.length = r.w / 8 * r.h →
      ∀ (o : Word) (bs : List Byte), HsEvent.copyIntoDevice o bs ∈ regionEvents k g r pb →
        o.toNat < 2 ^ 29 ∧ bs.length = r.w / 8 ∧ ∃ y, y < r.h ∧ o.toNat = (r.y + y) * (g.scrW.toNat / 8) + r.x / 8)

/-! ### Dirty tracker and NOP -/

/-- R210, R200: MARK (word 0x00000030) makes a clean tracker exactly the rectangle in ARG0 and ARG1 and a pending one the bounding
box of both; it changes nothing else. -/
def Obligations.MarkResult : Prop :=
  decode 0x00000030#32 = .ok .mark ∧ ∀ s : State, ∃ t, exec .mark s = .next t ∧ t.dirty.dv = true ∧
    (s.dirty.dv = false →
      t.dirty.dl.toNat = s.ops.arg0.toNat % 65536 ∧ t.dirty.dt.toNat = s.ops.arg0.toNat / 65536 ∧
      t.dirty.dr.toNat = s.ops.arg0.toNat % 65536 + s.ops.arg1.toNat % 65536 ∧
      t.dirty.db.toNat = s.ops.arg0.toNat / 65536 + s.ops.arg1.toNat / 65536) ∧
    (s.dirty.dv = true →
      t.dirty.dl.toNat = min s.dirty.dl.toNat (s.ops.arg0.toNat % 65536) ∧
      t.dirty.dt.toNat = min s.dirty.dt.toNat (s.ops.arg0.toNat / 65536) ∧
      t.dirty.dr.toNat = max s.dirty.dr.toNat (s.ops.arg0.toNat % 65536 + s.ops.arg1.toNat % 65536) ∧
      t.dirty.db.toNat = max s.dirty.db.toNat (s.ops.arg0.toNat / 65536 + s.ops.arg1.toNat / 65536)) ∧
    t.res0 = s.res0 ∧ t.res1 = s.res1 ∧
    Idle t ∧ SetupKept s t ∧ MemoryKept s t ∧ t.events = s.events ∧ t.errs = s.errs ∧ t.lutrdy = s.lutrdy ∧
    t.freeCtr = s.freeCtr

/-- R201: after any MARKs since the tracker was clean, the dirty rectangle is the least bounding box of all of them, and their
order does not matter. A rectangle is (x, y, w, h), each below 65536. -/
def Obligations.MarkSequenceBoundingBox : Prop :=
  ∀ (q : Nat × Nat × Nat × Nat) (l : List (Nat × Nat × Nat × Nat)),
    (∀ p ∈ q :: l, p.1 < 65536 ∧ p.2.1 < 65536 ∧ p.2.2.1 < 65536 ∧ p.2.2.2 < 65536) →
    (∀ (d : Dirty), d = (q :: l).foldl (fun d p => d.mark p.1 p.2.1 p.2.2.1 p.2.2.2) Dirty.clean →
      d.dv = true ∧
      (∀ p ∈ q :: l, d.dl.toNat ≤ p.1 ∧ d.dt.toNat ≤ p.2.1 ∧ p.1 + p.2.2.1 ≤ d.dr.toNat ∧ p.2.1 + p.2.2.2 ≤ d.db.toNat) ∧
      (∃ p ∈ q :: l, d.dl.toNat = p.1) ∧ (∃ p ∈ q :: l, d.dt.toNat = p.2.1) ∧
      (∃ p ∈ q :: l, d.dr.toNat = p.1 + p.2.2.1) ∧ (∃ p ∈ q :: l, d.db.toNat = p.2.1 + p.2.2.2) ∧
      (∀ l', List.Perm l' (q :: l) → l'.foldl (fun d p => d.mark p.1 p.2.1 p.2.2.1 p.2.2.2) Dirty.clean = d))

/-- R211: CLEAR (word 0x00000031) makes the tracker clean and changes nothing else. -/
def Obligations.ClearResult : Prop :=
  decode 0x00000031#32 = .ok .clear ∧ ∀ s : State, exec .clear s = .next { s with
    dirty := { dv := false, dl := 0#16, dt := 0#16, dr := 0#17, db := 0#17 }
    latch := none
    raced := [] }

/-- R220: NOP (word 0x00000000; 0x00000100 is no NOP) changes nothing but BUSY, which its completion clears. -/
def Obligations.NopResult : Prop :=
  decode 0x00000000#32 = .ok .nop ∧ decode 0x00000100#32 = .error .reservedBits ∧
    ∀ s : State, exec .nop s = .next { s with latch := none, raced := [] }

/-! ### Errors raised by commands -/

/-- R145, R185, R234: the geometry checks of ALIGN, PACKR, PFLUSH and PFULL raise Geometry with no access, no event, RES and dirty
state unchanged, LUTRDY set by all but ALIGN. -/
def Obligations.GeometryRaised : Prop :=
  (∀ s : State, ¬ SurfaceFits s.ops →
    (∃ t, exec .align s = .next t ∧ Recorded .geometry 0#32 s t ∧ Idle t ∧ SetupKept s t ∧ ErrorKept s t ∧ MemoryKept s t ∧
      t.lutrdy = s.lutrdy) ∧
    (∃ t, exec .packr s = .next t ∧ Recorded .geometry 0#32 s t ∧ Idle t ∧ SetupKept s t ∧ ErrorKept s t ∧ MemoryKept s t ∧
      t.lutrdy = true)) ∧
  (∀ s : State, s.ops.hsen = true →
    ¬ FlushFits s.ops →
    (s.dirty.dv = true → ∃ t, exec .pflush s = .next t ∧ Recorded .geometry 0#32 s t ∧ Idle t ∧ SetupKept s t ∧ ErrorKept s t ∧
      MemoryKept s t ∧ t.lutrdy = true) ∧
    (∃ t, exec .pfull s = .next t ∧ Recorded .geometry 0#32 s t ∧ Idle t ∧ SetupKept s t ∧ ErrorKept s t ∧ MemoryKept s t ∧
      t.lutrdy = true))

/-- R64, R235: a 4-byte read base that is not 4-aligned raises Misaligned with that base, before any access and event, in every
command that reads memory, exactly when it has something to read: no other command, and none with nothing to read, raises it. -/
def Obligations.MisalignedRaised : Prop :=
  (∀ s : State, s.ops.arg1.toNat ≠ 0 → s.ops.arg0.toNat % 4 ≠ 0 →
    ∃ t, exec .remap s = .next t ∧ Recorded .misaligned s.ops.arg0 s t ∧ Idle t ∧ SetupKept s t ∧ ErrorKept s t ∧
      MemoryKept s t ∧ t.lutrdy = s.lutrdy) ∧
  (∀ s : State, s.ops.surfBase.toNat % 4 ≠ 0 →
    (s.ops.surfW.toNat * s.ops.surfH.toNat ≠ 0 →
      ∃ t, exec .qsurf8 s = .next t ∧ Recorded .misaligned s.ops.surfBase s t ∧ Idle t ∧ SetupKept s t ∧ ErrorKept s t ∧
        MemoryKept s t ∧ t.lutrdy = s.lutrdy) ∧
    (SurfaceFits s.ops → (requestedRegion s.ops).w ≠ 0 →
      ∃ t, exec .packr s = .next t ∧ Recorded .misaligned s.ops.surfBase s t ∧ Idle t ∧ SetupKept s t ∧ ErrorKept s t ∧
        MemoryKept s t ∧ t.lutrdy = true) ∧
    (s.ops.hsen = true → s.dirty.dv = true → FlushFits s.ops → (pendingRegion s.ops s.dirty).w ≠ 0 →
      ∃ t, exec .pflush s = .next t ∧ Recorded .misaligned s.ops.surfBase s t ∧ Idle t ∧ SetupKept s t ∧ ErrorKept s t ∧
        MemoryKept s t ∧ t.lutrdy = true) ∧
    (s.ops.hsen = true → FlushFits s.ops →
      ∃ t, exec .pfull s = .next t ∧ Recorded .misaligned s.ops.surfBase s t ∧ Idle t ∧ SetupKept s t ∧ ErrorKept s t ∧
        MemoryKept s t ∧ t.lutrdy = true)) ∧
  (∀ (i : Instr) (s t : State), exec i s = .next t → s.errs.err = false → t.errs.code = 5#4 → s.errs.code ≠ 5#4 →
    i = .remap ∧ s.ops.arg1.toNat ≠ 0 ∧ s.ops.arg0.toNat % 4 ≠ 0 ∨
      s.ops.surfBase.toNat % 4 ≠ 0 ∧
        (i = .qsurf8 ∧ s.ops.surfW.toNat * s.ops.surfH.toNat ≠ 0 ∨
          i = .packr ∧ SurfaceFits s.ops ∧ (requestedRegion s.ops).w ≠ 0 ∨
          i = .pflush ∧ s.ops.hsen = true ∧ s.dirty.dv = true ∧ FlushFits s.ops ∧ (pendingRegion s.ops s.dirty).w ≠ 0 ∨
          i = .pfull ∧ s.ops.hsen = true ∧ FlushFits s.ops))

/-- R236, R238: each command that reads memory, once its checks have passed, raises BusError with the address of the first of its
accesses in pseudocode order that fails, and nothing when none fails (R113, R114, R154, R190, R191, R144); whenever a command
records BusError, an access at the recorded address fails, no event is emitted, RES and dirty state stay, and no byte outside the
command's output range changes. -/
def Obligations.BusErrorEffects : Prop :=
  (∀ s : State, s.ops.arg1.toNat = 0 ∨ s.ops.arg0.toNat % 4 = 0 → EndsAtFirstFailing .remap s [] (remapAccesses s.ops)) ∧
  (∀ s : State, s.ops.surfBase.toNat % 4 = 0 →
    EndsAtFirstFailing .qsurf8 s [{ start := s.ops.outBase, len := s.ops.surfW.toNat * s.ops.surfH.toNat }]
      (qsurfAccesses s.ops) ∧
    (SurfaceFits s.ops →
      EndsAtFirstFailing .packr s [packOut s.ops (requestedRegion s.ops)] (packAccesses s.ops (requestedRegion s.ops))) ∧
    (s.ops.hsen = true → FlushFits s.ops →
      (s.dirty.dv = true →
        EndsAtFirstFailing .pflush s [packOut s.ops (pendingRegion s.ops s.dirty)]
          (packAccesses s.ops (pendingRegion s.ops s.dirty))) ∧
      EndsAtFirstFailing .pfull s [packOut s.ops (wholeScreen s.ops)] (packAccesses s.ops (wholeScreen s.ops)))) ∧
  ∀ (i : Instr) (s t : State), exec i s = .next t → s.errs.err = false → t.errs.code = 6#4 → s.errs.code ≠ 6#4 →
    (i = .remap ∨ i = .qsurf8 ∨ i = .packr ∨ i = .pflush ∨ i = .pfull) ∧
    t.errs.err = true ∧ t.errs.cmd = s.cmd.word ∧
    (memErrAt s.cfg t.errs.addr .read = true ∨ memErrAt s.cfg t.errs.addr .write = true) ∧
    ErrorKept s t ∧ Idle t ∧ SetupKept s t ∧
    (∀ a : Word, coveredBy (reachOf s.ops s.dirty i).writes a = false → byteAt t.mem a = byteAt s.mem a)

/-! ### Rules over all commands and all steps -/

/-- R42: exactly the six commands that use the planar table set LUTRDY, error or not; the others leave it; and no step clears it
but the reset input. -/
def Obligations.LutrdySetOnceTillReset : Prop :=
  (∀ (i : Instr) (s t : State), exec i s = .next t →
    t.lutrdy = if i ∈ [Instr.lutinit, .pair, .pack8, .packr, .pflush, .pfull] then true else s.lutrdy) ∧
  (∀ s t : State, step s = .next t → s.lutrdy = true → t.lutrdy = true ∨ s.host.head? = some .reset)

/-- R41, R241: every command completes in every state, with BUSY = 0 after it; none faults and none is refused. -/
def Obligations.EveryCommandCompletes : Prop :=
  ∀ (i : Instr) (s : State), ∃ t, exec i s = .next t ∧ t.busy = false ∧ Idle t ∧ SetupKept s t

/-- R13, R24, R61: the commands that reach no memory and emit nothing, and REMAP, leave every byte and the event sequence alone;
MARK and CLEAR alone of them change the dirty state; REMAP alone of them has results that depend on memory (R266, log entry
11). -/
def Obligations.RegisterCommandFrames : Prop :=
  ∀ (i : Instr) (s t : State), exec i s = .next t →
    i ∈ [Instr.nop, .nearest, .dthr, .qpix, .remap, .lutinit, .pair, .pack8, .align, .mark, .clear] →
    MemoryKept s t ∧ t.events = s.events ∧ (i ≠ .mark → i ≠ .clear → t.dirty = s.dirty) ∧
    (i ∈ [Instr.nop, .lutinit, .mark, .clear] → t.res0 = s.res0 ∧ t.res1 = s.res1) ∧
    (i = .pair ∨ i = .pack8 → t.res1 = s.res1) ∧
    (i ≠ .remap → i ≠ .align → t.errs = s.errs) ∧ (i ≠ .remap → t.uses = s.uses)

/-- R61, R76, R236: whatever a command does, no byte outside its output range changes; QSURF8's range is SURF_W * SURF_H bytes from
OUT_BASE, and that of PACKR, PFLUSH and PFULL 4 * P bytes from there. -/
def Obligations.OnlyOutputRangeWritten : Prop :=
  (∀ (r : Range) (rs : List Range) (a : Word),
    (covers r a = true ↔ (a - r.start).toNat < r.len) ∧ (coveredBy rs a = true ↔ ∃ q ∈ rs, covers q a = true)) ∧
  (∀ (i : Instr) (s t : State), exec i s = .next t →
    ∀ a : Word, coveredBy (reachOf s.ops s.dirty i).writes a = false → byteAt t.mem a = byteAt s.mem a) ∧
  (∀ (g : Regs) (d : Dirty) (i : Instr) (q : Range), q ∈ (reachOf g d i).writes →
    q.start = g.outBase ∧
    (i = .qsurf8 ∧ q.len = g.surfW.toNat * g.surfH.toNat ∨
      ∃ r : Region, q.len = 4 * (r.w / 8 * r.h) ∧
        (i = .packr ∧ SurfaceFits g ∧ r = requestedRegion g ∨ i = .pflush ∧ FlushFits g ∧ r = pendingRegion g d ∨
          i = .pfull ∧ FlushFits g ∧ r = wholeScreen g)))

/-- R11, R180, R261: no step takes back a delivered event or its place in the sequence, and of the commands only PFLUSH and PFULL
emit any. What a delivered event says changes in no step while no result of an executed command waits for BUSY = 0 to be read, and
otherwise in the values of copied bytes alone (R266: the model's reading, log entry 11). -/
def Obligations.EventsOnlyAppended : Prop :=
  (∀ s t : State, step s = .next t → s.uses = [] ∨ s.hazard = { reads := [], writes := [] } → ∃ es, t.events = s.events ++ es) ∧
  (∀ s t : State, step s = .next t → ∃ es, t.events.map HsEvent.shape = s.events.map HsEvent.shape ++ es) ∧
  (∀ (i : Instr) (s t : State), exec i s = .next t → i ≠ .pflush → i ≠ .pfull → t.events = s.events)

/-- R6, R44: no step changes a parameter. -/
def Obligations.ParametersConstant : Prop :=
  ∀ s t : State, step s = .next t → t.cfg = s.cfg

/-- R260, R261: the reset input with BUSY = 0 puts every piece of BDQ state at its reset value, so that host reads of RES0, RES1
and the dirty registers give 0, and leaves memory and the delivered events alone. -/
def Obligations.ResetInputClears : Prop :=
  ∀ (s : State) (rest : List HostAction), s.busy = false → s.host = .reset :: rest →
    ∃ t, step s = .next t ∧
      t.latch = none ∧ t.lutrdy = false ∧ t.res0 = 0#32 ∧ t.res1 = 0#32 ∧
      t.dirty = { dv := false, dl := 0#16, dt := 0#16, dr := 0#17, db := 0#17 } ∧
      t.errs = { err := false, code := 0#4, addr := 0#32, cmd := 0#32 } ∧
      t.regs = Regs.mk false 0#32 0#32 0#32 0#32 0#16 0#16 0#32 0#16 0#16 0#32 ∧ t.held = none ∧
      (∀ r ∈ [Reg.status, .res0, .res1, .dirtyX, .dirtyY, .dirtyW, .dirtyH], readReg t r = 0#32) ∧
      MemoryKept s t ∧ t.events = s.events ∧ t.host = rest

/-- R262: the reset input with BUSY = 1 discards the command: BDQ's state is the reset state (host reads of RES0, RES1 and the dirty
registers give 0), no byte outside the command's output range changes, and what was delivered of its events is a first part of what
it would have emitted. Which range a discarded command has (none for one that would raise Geometry), and that its events are those
of executing it at that moment, is the model's reading of R262 (log entry 10, DEDUCED). -/
def Obligations.ResetDuringCommand : Prop :=
  ∀ (s : State) (l : Latch) (rest : List HostAction) (ts : List Turn), s.latch = some l → s.turns = .host :: ts →
    s.host = .reset :: rest →
    ∃ (t t' : State) (n : Nat), step s = .next t ∧
      t.latch = none ∧ t.lutrdy = false ∧ t.res0 = 0#32 ∧ t.res1 = 0#32 ∧ t.dirty = Dirty.clean ∧ t.errs = ErrRec.none ∧
      t.regs = Regs.reset ∧ t.host = rest ∧ t.held = none ∧
      (∀ r ∈ [Reg.status, .res0, .res1, .dirtyX, .dirtyY, .dirtyW, .dirtyH], readReg t r = 0#32) ∧
      (∀ a : Word, coveredBy (wordReach l.regs s.dirty l.word).writes a = false → byteAt t.mem a = byteAt s.mem a) ∧
      executeLatched { s with turns := ts, host := rest, freeCtr := s.freeCtr + 1 } = .next t' ∧
      t.events = t'.events.take (s.events.length + n) ∧ s.events.length ≤ t.events.length

/-- R23, R40: a running command reads only the latched copies: with other values in the read/write registers it does the same. -/
def Obligations.LatchedOperandsOnly : Prop :=
  ∀ (i : Instr) (s t : State) (g : Regs) (l : Latch), s.latch = some l → exec i s = .next t →
    exec i { s with regs := g } = .next { t with regs := g }

/-- R242, R243: the error record never decides what a command does: with another record the next state differs in the record
alone. -/
def Obligations.ErrorRecordDoesNotBlock : Prop :=
  ∀ (i : Instr) (s t : State) (e : ErrRec), exec i s = .next t →
    ∃ e', exec i { s with errs := e } = .next { t with errs := e' }

/-- R41: an accepted command is executed. R41 sets no bound: that, with the host doing nothing, BDQ is idle after as many steps as
there are turns left and one more is the model's choice (log entry 6, DESIGN CHOICE). -/
def Obligations.AcceptedCommandExecutes : Prop :=
  ∀ s : State, s.busy = true → s.host = [] →
    ∃ t, Host.Core.run Sys2Proof.core (s.turns.length + 1) s = .next t ∧ t.busy = false

/-- R22, R43, R260: what reset leaves in every register and in BDQ's internal state. -/
def Obligations.ResetValues : Prop :=
  State.reset.latch = none ∧ State.reset.lutrdy = false ∧
  State.reset.dirty = { dv := false, dl := 0#16, dt := 0#16, dr := 0#17, db := 0#17 } ∧
  State.reset.errs = { err := false, code := 0#4, addr := 0#32, cmd := 0#32 } ∧
  (∀ r ∈ [Reg.status, .cmd, .ctrl, .arg0, .arg1, .arg2, .arg3, .res0, .res1, .erraddr, .errcmd, .dirtyX, .dirtyY, .dirtyW,
    .dirtyH, .scrW, .scrH, .surfBase, .surfW, .surfH, .outBase], readReg State.reset r = 0x00000000#32) ∧
  readReg State.reset .id = 0x42445101#32

/-- R30, R37, R230 and the canonical form of memory hold at reset. The parameters at reset are the model's choice (log entries 1
and 2), and so is the form of memory (log entry 4). -/
def Obligations.ResetStateIsGood : Prop := State.reset.Inv

/-- R30, R37, R230 (V3) and the canonical form of memory: every step from a good state gives a good state. -/
def Obligations.StepKeepsGoodState : Prop :=
  ∀ s t : State, s.Inv → step s = .next t → t.Inv

/-- R62, R89: outside the register window and where R266 forbids no store of its bytes, a 32-bit host store (mw32) is what BDQ's
4-byte read at that address returns, least significant byte lowest, and changes no other byte and nothing but memory, whatever
ranges other bytes lie in; anywhere outside the window it is the stores of its four bytes, lowest first, each of which is plain
where R266 forbids no store and a race where it does (RaceFreesDependents). A 1-byte host load (mr8) outside every output range
R266 speaks of binds the byte there and changes nothing else. That this holds also of a load of a byte a command reads, BUSY = 0
not read back, is the model's choice (log entry 11, DESIGN CHOICE: R266 and R71 (c) forbid such stores and not such loads, I6
speaks of any access). So are the 1-byte store, mw32 at an address that is not 4-aligned, and that a 32-bit store is the stores of
its bytes (log entry 18, DESIGN CHOICE: R89 names only mw32 and mr8); that all of it holds whatever MEM_ERR says of the address is
the model's reading of R10 (log entry 15, DEDUCED). -/
def Obligations.HostMemoryStoreAndLoad : Prop :=
  (∀ (s : State) (a v : Word), Memory.wf s.mem = true → touchesWindow s.cfg a .word = false →
    (∀ i, i < 4 → coveredBy s.hazard.reads (a + BitVec.ofNat 32 i) = false ∧
      coveredBy s.hazard.writes (a + BitVec.ofNat 32 i) = false) →
    ∃ m, hostStore a .word v s = .next { s with mem := m } ∧ read32 m a = v ∧
      (∀ i, i < 4 → (byteAt m (a + BitVec.ofNat 32 i)).toNat = v.toNat / 256 ^ i % 256) ∧
      (∀ b : Word, 4 ≤ (b - a).toNat → byteAt m b = byteAt s.mem b)) ∧
  (∀ (s : State) (a v : Word), touchesWindow s.cfg a .word = false →
    ∃ s1 s2 s3 t, hostStore a .byte v s = .next s1 ∧ hostStore (a + 1#32) .byte (v >>> 8) s1 = .next s2 ∧
      hostStore (a + 2#32) .byte (v >>> 16) s2 = .next s3 ∧ hostStore (a + 3#32) .byte (v >>> 24) s3 = .next t ∧
      hostStore a .word v s = .next t) ∧
  (∀ (s : State) (a v : Word), Memory.wf s.mem = true → touchesWindow s.cfg a .byte = false →
    coveredBy s.hazard.reads a = false → coveredBy s.hazard.writes a = false →
    ∃ m, hostStore a .byte v s = .next { s with mem := m } ∧ (byteAt m a).toNat = v.toNat % 256 ∧
      ∀ b : Word, b ≠ a → byteAt m b = byteAt s.mem b) ∧
  (∀ (s : State) (a : Word) (x : Nat), coveredBy s.hazard.writes a = false → touchesWindow s.cfg a .byte = false →
    hostLoad a .byte x s = .next { s with vars := s.vars ++ [(x, (byteAt s.mem a).zeroExtend 32)] })

/-- R89: a poll is repeated reads of STATUS: each binds what STATUS reads as (an entry of vars, log entry 22); with BUSY = 1 it
changes nothing else and the poll goes on, with BUSY = 0 the poll ends and the read makes the results visible as any STATUS read
does. What such a read ends, the values held for host reads and the ranges to be left alone, is the model's reading of R265 and
R266 (log entries 16, DEDUCED, and 11, DESIGN CHOICE). -/
def Obligations.PollRepeatsStatusRead : Prop :=
  ∀ (s : State) (x : Nat) (rest : List HostAction), s.host = .poll x :: rest →
    (s.busy = false →
      step s = hostLoad (s.cfg.base + BitVec.ofNat 32 Reg.status.offset) .word x { s with host := rest } ∧
      step s = .next { s with
        host := rest
        vars := s.vars ++ [(x, readReg s .status)]
        held := none
        hazard := { reads := [], writes := [] }
        uses := [] }) ∧
    (∀ ts, s.busy = true → s.turns = .host :: ts →
      step s = .next { s with turns := ts, vars := s.vars ++ [(x, readReg s .status)] } ∧
      (readReg s .status).getLsbD 0 = true)

/-- R266, R71 (c), I6: a host store of one byte a command reads or writes, BUSY = 0 not read back since its CMD write, makes that
byte and every result that depends on it any value, results already in place included, and changes no other byte, register or
event; so does a host load of a byte a command writes, and it returns any value. The bytes that became any value are the raced ones
of a command that still runs (OverlapOrRaceFreesResults says what it makes of them). A wider store is the stores of its bytes
(HostMemoryStoreAndLoad). What counts as dependent is the model's reading (log entry 11, DESIGN CHOICE), a 1-byte store its
choice (log entry 18, DESIGN CHOICE), and that MEM_ERR concerns no host access log entry 15 (DEDUCED). -/
def Obligations.RaceFreesDependents : Prop :=
  ∀ (s : State) (a : Word), Memory.wf s.mem = true → touchesWindow s.cfg a .byte = false →
    (∀ v : Word, coveredBy s.hazard.reads a = true ∨ coveredBy s.hazard.writes a = true →
      ∃ t, hostStore a .byte v s = .next t ∧ RacedAt s t a ∧ t.vars = s.vars) ∧
    (∀ x : Nat, coveredBy s.hazard.writes a = true →
      ∃ (t : State) (n : Nat), hostLoad a .byte x s = .next t ∧ RacedAt s t a ∧ s.freeCtr ≤ n ∧ n < t.freeCtr ∧
        t.vars = s.vars ++ [(x, (Config.freeByte n).zeroExtend 32)])

/-- R76, R266, R71 (c), I5, I6: what a command computes when the host raced bytes while it was busy (State.raced) or its output
overlaps its surface. A result is any value when a colour it is computed from has a raced byte or one the command wrote before, or
when its own output byte was raced or lies in the surface; every other result is the one of the memory the command found. REMAP's
nibbles, QSURF8's bytes, the plane bytes of PACKR, PFLUSH and PFULL, and the bytes the last two deliver, which are the command's own
copies. That the overlap is taken with the whole surface is log entry 8 (DESIGN CHOICE); what counts as dependent is log entry 11.
A byte that an earlier command's overlap or a race before the CMD write left with a free value is to the command a byte of memory
like any other (log entries 8 and 11, DESIGN CHOICE). -/
def Obligations.OverlapOrRaceFreesResults : Prop :=
  (∀ s : State, (s.ops.arg1.toNat = 0 ∨ s.ops.arg0.toNat % 4 = 0) → firstFailing s.cfg (remapAccesses s.ops) = none →
    ∃ t, exec .remap s = .next t ∧ Idle t ∧ SetupKept s t ∧ MemoryKept s t ∧ t.errs = s.errs ∧
      ∀ j, j < 16 →
        (min s.ops.arg1.toNat 16 ≤ j → nibbleAt t j = 0#4) ∧
        (j < min s.ops.arg1.toNat 16 →
          (ColourOpen s (fun _ => False) (s.ops.arg0 + BitVec.ofNat 32 (4 * j)) → FreeIn s t (.nibble j)) ∧
          (¬ ColourOpen s (fun _ => False) (s.ops.arg0 + BitVec.ofNat 32 (4 * j)) →
            nibbleAt t j =
              (nearest s.cfg.palette (colourOf (read32 s.mem (s.ops.arg0 + BitVec.ofNat 32 (4 * j))))).index))) ∧
  (∀ s : State, Memory.wf s.mem = true → s.ops.surfBase.toNat % 4 = 0 → s.ops.surfW.toNat * s.ops.surfH.toNat ≠ 0 →
    firstFailing s.cfg (qsurfAccesses s.ops) = none →
    ∃ t, exec .qsurf8 s = .next t ∧ Idle t ∧ SetupKept s t ∧ t.errs = s.errs ∧
      (∀ px py, px < s.ops.surfW.toNat → py < s.ops.surfH.toNat → ∀ b : Word,
        b = s.ops.outBase + BitVec.ofNat 32 (py * s.ops.surfW.toNat + px) →
        (ColourOpen s (qsurfWritten s.ops px py) (pixAddr s.ops px py) ∨ ByteOpen s b → FreeIn s t (.byte b)) ∧
        (¬ (ColourOpen s (qsurfWritten s.ops px py) (pixAddr s.ops px py) ∨ ByteOpen s b) →
          (byteAt t.mem b).toNat = (quantize s.cfg.palette (read32 s.mem (pixAddr s.ops px py)) px py).toNat)) ∧
      ∀ a : Word, covers (qsurfOut s.ops) a = false → byteAt t.mem a = byteAt s.mem a) ∧
  (∀ (s : State) (r : Region), Memory.wf s.mem = true → s.ops.surfBase.toNat % 4 = 0 → r.w ≠ 0 →
    firstFailing s.cfg (packAccesses s.ops r) = none →
    (SurfaceFits s.ops → r = requestedRegion s.ops →
      ∃ t, exec .packr s = .next t ∧ Idle t ∧ SetupKept s t ∧ t.errs = s.errs ∧ PackedWhereDefinite s t r ∧
        t.events = s.events ∧ t.dirty = s.dirty ∧
        t.res0.toNat = r.y * 65536 + r.x ∧ t.res1.toNat = r.h * 65536 + r.w) ∧
    (s.ops.hsen = true → FlushFits s.ops → s.dirty.dv = true → r = pendingRegion s.ops s.dirty →
      ∃ t, exec .pflush s = .next t ∧ Idle t ∧ SetupKept s t ∧ t.errs = s.errs ∧ PackedWhereDefinite s t r ∧
        EventsWhereDefinite s t r ∧ t.dirty = { dv := false, dl := 0#16, dt := 0#16, dr := 0#17, db := 0#17 } ∧
        t.res0.toNat = r.y * 65536 + r.x ∧ t.res1.toNat = r.h * 65536 + r.w) ∧
    (s.ops.hsen = true → FlushFits s.ops → r = wholeScreen s.ops →
      ∃ t, exec .pfull s = .next t ∧ Idle t ∧ SetupKept s t ∧ t.errs = s.errs ∧ PackedWhereDefinite s t r ∧
        EventsWhereDefinite s t r ∧ t.dirty = s.dirty ∧
        t.res0.toNat = r.y * 65536 + r.x ∧ t.res1.toNat = r.h * 65536 + r.w))

/-- R266, R71 (c): an accepted CMD write adds to what the host is to leave alone (State.hazard) exactly what its command will read
and write: the bytes its read accesses in pseudocode order cover and the bytes its write accesses name (R113, R114, R144), for a
command that reaches memory with these operands, and nothing for any other or for a word that does not decode. That a command that
will raise Misaligned guards its output range and no input, and one that will raise BusError all it would access without it, is
the model's reading (log entries 10 and 11, DEDUCED), that the ranges of several commands add up its choice (log entry 11, DESIGN
CHOICE). -/
def Obligations.AcceptanceGuardsItsBytes : Prop :=
  (∀ (s : State) (c : Word), s.busy = false →
    (∀ i, decode c = .ok i →
      (writeReg c s .cmd).hazard.reads = s.hazard.reads ++ (reachOf s.regs s.dirty i).reads ∧
      (writeReg c s .cmd).hazard.writes = s.hazard.writes ++ (reachOf s.regs s.dirty i).writes) ∧
    (∀ e, decode c = .error e → (writeReg c s .cmd).hazard = s.hazard)) ∧
  ∀ (g : Regs) (d : Dirty),
    Guards (reachOf g d .remap) g.arg0 (remapAccesses g) ∧ Guards (reachOf g d .qsurf8) g.surfBase (qsurfAccesses g) ∧
    (SurfaceFits g → Guards (reachOf g d .packr) g.surfBase (packAccesses g (requestedRegion g))) ∧
    (g.hsen = true → d.dv = true → FlushFits g →
      Guards (reachOf g d .pflush) g.surfBase (packAccesses g (pendingRegion g d))) ∧
    (g.hsen = true → FlushFits g → Guards (reachOf g d .pfull) g.surfBase (packAccesses g (wholeScreen g))) ∧
    (∀ i, i ∉ [Instr.remap, .qsurf8, .packr, .pflush, .pfull] ∨ (i = .packr ∧ ¬ SurfaceFits g) ∨
      (i = .pflush ∧ ¬ (g.hsen = true ∧ d.dv = true ∧ FlushFits g)) ∨ (i = .pfull ∧ ¬ (g.hsen = true ∧ FlushFits g)) →
      reachOf g d i = { reads := [], writes := [] })
end

