-- ==== Sys2Proof/Laws/Memory.lean ====
section
/-! SUPPORT. The laws of memory: a read after a write, and the canonical form that every write keeps. -/

namespace Sys2Proof.Machine

/-- Canonical from lo on is canonical from any lower address on. -/
theorem Memory.wfFrom_mono {lo lo' : Nat} (h : lo' ≤ lo) {m : Memory} (hm : Memory.wfFrom lo m = true) :
    Memory.wfFrom lo' m = true := by
  cases m with
  | nil => rfl
  | cons c m =>
    simp only [Memory.wfFrom, Bool.and_eq_true, decide_eq_true_eq] at hm ⊢
    exact ⟨⟨⟨by omega, hm.1.1.2⟩, hm.1.2⟩, hm.2⟩

/-- Nothing is listed below the address a memory is canonical from. -/
theorem Memory.read_below {lo a : Nat} {m : Memory} (hm : Memory.wfFrom lo m = true) (h : a < lo) :
    Memory.read m a = unlistedByte := by
  induction m generalizing lo with
  | nil => rfl
  | cons c m ih =>
    simp only [Memory.wfFrom, Bool.and_eq_true, decide_eq_true_eq] at hm
    rw [Memory.read, if_neg (by omega)]
    exact ih hm.2 (by omega)

/-- A write leaves every other address as it was. -/
theorem Memory.read_write_other {m : Memory} {a b : Nat} {v : Byte} (h : b ≠ a) :
    Memory.read (Memory.write m a v) b = Memory.read m b := by
  induction m with
  | nil => unfold Memory.write; split <;> simp [Memory.read, h]
  | cons c m ih =>
    unfold Memory.write
    split
    · split <;> simp [Memory.read, h]
    · split
      · next hax => split <;> simp [Memory.read, ← hax, h]
      · simp [Memory.read, ih]

/-- In canonical memory a read returns what was last written. -/
theorem Memory.read_write_same {lo a : Nat} {m : Memory} {v : Byte} (hm : Memory.wfFrom lo m = true) :
    Memory.read (Memory.write m a v) a = v := by
  induction m generalizing lo with
  | nil =>
    unfold Memory.write
    split
    · next h => simp [Memory.read, h]
    · simp [Memory.read]
  | cons c m ih =>
    obtain ⟨x, w⟩ := c
    have hm' := hm
    simp only [Memory.wfFrom, Bool.and_eq_true, decide_eq_true_eq] at hm
    unfold Memory.write
    split
    · next hlt =>
      split
      · next h =>
        rw [Memory.read, if_neg (by omega), h]
        exact Memory.read_below hm.2 (by omega)
      · simp [Memory.read]
    · split
      · next heq =>
        split
        · next h => rw [h]; exact Memory.read_below hm.2 (by omega)
        · simp [Memory.read]
      · next hne => rw [Memory.read, if_neg hne]; exact ih hm.2

/-- A write at or above lo keeps the canonical form from lo on. -/
theorem Memory.wfFrom_write {lo a : Nat} {m : Memory} {v : Byte} (hm : Memory.wfFrom lo m = true) (hlo : lo ≤ a)
    (ha : a < 2 ^ 32) : Memory.wfFrom lo (Memory.write m a v) = true := by
  induction m generalizing lo with
  | nil =>
    unfold Memory.write
    split
    · rfl
    · next h => simp only [Memory.wfFrom, Bool.and_eq_true, decide_eq_true_eq]; exact ⟨⟨⟨hlo, ha⟩, h⟩, trivial⟩
  | cons c m ih =>
    obtain ⟨x, w⟩ := c
    have hm' := hm
    simp only [Memory.wfFrom, Bool.and_eq_true, decide_eq_true_eq] at hm
    unfold Memory.write
    split
    · next hlt =>
      split
      · exact hm'
      · next h =>
        simp only [Memory.wfFrom, Bool.and_eq_true, decide_eq_true_eq]
        exact ⟨⟨⟨hlo, ha⟩, h⟩, ⟨⟨by omega, hm.1.1.2⟩, hm.1.2⟩, hm.2⟩
    · split
      · next heq =>
        split
        · exact Memory.wfFrom_mono (by omega) hm.2
        · next h =>
          simp only [Memory.wfFrom, Bool.and_eq_true, decide_eq_true_eq]
          exact ⟨⟨⟨hlo, ha⟩, h⟩, heq ▸ hm.2⟩
      · simp only [Memory.wfFrom, Bool.and_eq_true, decide_eq_true_eq]
        exact ⟨hm.1, ih hm.2 (by omega)⟩

/-- Every write at a bus address keeps the canonical form. -/
theorem Memory.wf_write {m : Memory} {a : Word} {v : Byte} (hm : Memory.wf m = true) :
    Memory.wf (Memory.write m a.toNat v) = true :=
  Memory.wfFrom_write hm (Nat.zero_le _) a.isLt

/-- The memory of State.reset is canonical. -/
theorem Memory.wf_reset : Memory.wf State.reset.mem = true := rfl

/-- A write leaves every other bus address as it was. -/
theorem byteAt_write_other {m : Memory} {a b : Word} {v : Byte} (h : b ≠ a) :
    byteAt (Memory.write m a.toNat v) b = byteAt m b :=
  Memory.read_write_other fun hn => h (BitVec.eq_of_toNat_eq hn)

/-- In canonical memory a bus address reads as what was last written there. -/
theorem byteAt_write_same {m : Memory} {a : Word} {v : Byte} (hm : Memory.wf m = true) :
    byteAt (Memory.write m a.toNat v) a = v :=
  Memory.read_write_same hm

end Sys2Proof.Machine
end

