-- ==== Sys2Proof/Laws/State.lean ====
section
/-! SUPPORT. One lemma per field of State per update, so that no proof unfolds a record update. -/

namespace Sys2Proof.Machine

/-! ### setLutrdy -/

@[simp] theorem State.setLutrdy_cfg (s : State) : s.setLutrdy.cfg = s.cfg := rfl
@[simp] theorem State.setLutrdy_regs (s : State) : s.setLutrdy.regs = s.regs := rfl
@[simp] theorem State.setLutrdy_res0 (s : State) : s.setLutrdy.res0 = s.res0 := rfl
@[simp] theorem State.setLutrdy_res1 (s : State) : s.setLutrdy.res1 = s.res1 := rfl
@[simp] theorem State.setLutrdy_lutrdy (s : State) : s.setLutrdy.lutrdy = true := rfl
@[simp] theorem State.setLutrdy_dirty (s : State) : s.setLutrdy.dirty = s.dirty := rfl
@[simp] theorem State.setLutrdy_errs (s : State) : s.setLutrdy.errs = s.errs := rfl
@[simp] theorem State.setLutrdy_latch (s : State) : s.setLutrdy.latch = s.latch := rfl
@[simp] theorem State.setLutrdy_mem (s : State) : s.setLutrdy.mem = s.mem := rfl
@[simp] theorem State.setLutrdy_events (s : State) : s.setLutrdy.events = s.events := rfl
@[simp] theorem State.setLutrdy_host (s : State) : s.setLutrdy.host = s.host := rfl
@[simp] theorem State.setLutrdy_vars (s : State) : s.setLutrdy.vars = s.vars := rfl
@[simp] theorem State.setLutrdy_turns (s : State) : s.setLutrdy.turns = s.turns := rfl
@[simp] theorem State.setLutrdy_held (s : State) : s.setLutrdy.held = s.held := rfl
@[simp] theorem State.setLutrdy_hazard (s : State) : s.setLutrdy.hazard = s.hazard := rfl
@[simp] theorem State.setLutrdy_raced (s : State) : s.setLutrdy.raced = s.raced := rfl
@[simp] theorem State.setLutrdy_uses (s : State) : s.setLutrdy.uses = s.uses := rfl
@[simp] theorem State.setLutrdy_freeCtr (s : State) : s.setLutrdy.freeCtr = s.freeCtr := rfl
@[simp] theorem State.setLutrdy_cmd (s : State) : s.setLutrdy.cmd = s.cmd := rfl
@[simp] theorem State.setLutrdy_ops (s : State) : s.setLutrdy.ops = s.ops := rfl
@[simp] theorem State.setLutrdy_busy (s : State) : s.setLutrdy.busy = s.busy := rfl

/-! ### complete -/

@[simp] theorem State.complete_cfg (s : State) : s.complete.cfg = s.cfg := rfl
@[simp] theorem State.complete_regs (s : State) : s.complete.regs = s.regs := rfl
@[simp] theorem State.complete_res0 (s : State) : s.complete.res0 = s.res0 := rfl
@[simp] theorem State.complete_res1 (s : State) : s.complete.res1 = s.res1 := rfl
@[simp] theorem State.complete_lutrdy (s : State) : s.complete.lutrdy = s.lutrdy := rfl
@[simp] theorem State.complete_dirty (s : State) : s.complete.dirty = s.dirty := rfl
@[simp] theorem State.complete_errs (s : State) : s.complete.errs = s.errs := rfl
@[simp] theorem State.complete_latch (s : State) : s.complete.latch = none := rfl
@[simp] theorem State.complete_mem (s : State) : s.complete.mem = s.mem := rfl
@[simp] theorem State.complete_events (s : State) : s.complete.events = s.events := rfl
@[simp] theorem State.complete_host (s : State) : s.complete.host = s.host := rfl
@[simp] theorem State.complete_vars (s : State) : s.complete.vars = s.vars := rfl
@[simp] theorem State.complete_turns (s : State) : s.complete.turns = s.turns := rfl
@[simp] theorem State.complete_held (s : State) : s.complete.held = s.held := rfl
@[simp] theorem State.complete_hazard (s : State) : s.complete.hazard = s.hazard := rfl
@[simp] theorem State.complete_raced (s : State) : s.complete.raced = [] := rfl
@[simp] theorem State.complete_uses (s : State) : s.complete.uses = s.uses := rfl
@[simp] theorem State.complete_freeCtr (s : State) : s.complete.freeCtr = s.freeCtr := rfl

/-! ### setRes0 -/

@[simp] theorem State.setRes0_cfg (a : Word) (s : State) : (s.setRes0 a).cfg = s.cfg := rfl
@[simp] theorem State.setRes0_regs (a : Word) (s : State) : (s.setRes0 a).regs = s.regs := rfl
@[simp] theorem State.setRes0_res0 (a : Word) (s : State) : (s.setRes0 a).res0 = a := rfl
@[simp] theorem State.setRes0_res1 (a : Word) (s : State) : (s.setRes0 a).res1 = s.res1 := rfl
@[simp] theorem State.setRes0_lutrdy (a : Word) (s : State) : (s.setRes0 a).lutrdy = s.lutrdy := rfl
@[simp] theorem State.setRes0_dirty (a : Word) (s : State) : (s.setRes0 a).dirty = s.dirty := rfl
@[simp] theorem State.setRes0_errs (a : Word) (s : State) : (s.setRes0 a).errs = s.errs := rfl
@[simp] theorem State.setRes0_latch (a : Word) (s : State) : (s.setRes0 a).latch = s.latch := rfl
@[simp] theorem State.setRes0_mem (a : Word) (s : State) : (s.setRes0 a).mem = s.mem := rfl
@[simp] theorem State.setRes0_events (a : Word) (s : State) : (s.setRes0 a).events = s.events := rfl
@[simp] theorem State.setRes0_host (a : Word) (s : State) : (s.setRes0 a).host = s.host := rfl
@[simp] theorem State.setRes0_vars (a : Word) (s : State) : (s.setRes0 a).vars = s.vars := rfl
@[simp] theorem State.setRes0_turns (a : Word) (s : State) : (s.setRes0 a).turns = s.turns := rfl
@[simp] theorem State.setRes0_held (a : Word) (s : State) : (s.setRes0 a).held = s.held := rfl
@[simp] theorem State.setRes0_hazard (a : Word) (s : State) : (s.setRes0 a).hazard = s.hazard := rfl
@[simp] theorem State.setRes0_raced (a : Word) (s : State) : (s.setRes0 a).raced = s.raced := rfl
@[simp] theorem State.setRes0_uses (a : Word) (s : State) : (s.setRes0 a).uses = s.uses := rfl
@[simp] theorem State.setRes0_freeCtr (a : Word) (s : State) : (s.setRes0 a).freeCtr = s.freeCtr := rfl
@[simp] theorem State.setRes0_cmd (a : Word) (s : State) : (s.setRes0 a).cmd = s.cmd := rfl
@[simp] theorem State.setRes0_ops (a : Word) (s : State) : (s.setRes0 a).ops = s.ops := rfl
@[simp] theorem State.setRes0_busy (a : Word) (s : State) : (s.setRes0 a).busy = s.busy := rfl

/-! ### setRes -/

@[simp] theorem State.setRes_cfg (a b : Word) (s : State) : (s.setRes a b).cfg = s.cfg := rfl
@[simp] theorem State.setRes_regs (a b : Word) (s : State) : (s.setRes a b).regs = s.regs := rfl
@[simp] theorem State.setRes_res0 (a b : Word) (s : State) : (s.setRes a b).res0 = a := rfl
@[simp] theorem State.setRes_res1 (a b : Word) (s : State) : (s.setRes a b).res1 = b := rfl
@[simp] theorem State.setRes_lutrdy (a b : Word) (s : State) : (s.setRes a b).lutrdy = s.lutrdy := rfl
@[simp] theorem State.setRes_dirty (a b : Word) (s : State) : (s.setRes a b).dirty = s.dirty := rfl
@[simp] theorem State.setRes_errs (a b : Word) (s : State) : (s.setRes a b).errs = s.errs := rfl
@[simp] theorem State.setRes_latch (a b : Word) (s : State) : (s.setRes a b).latch = s.latch := rfl
@[simp] theorem State.setRes_mem (a b : Word) (s : State) : (s.setRes a b).mem = s.mem := rfl
@[simp] theorem State.setRes_events (a b : Word) (s : State) : (s.setRes a b).events = s.events := rfl
@[simp] theorem State.setRes_host (a b : Word) (s : State) : (s.setRes a b).host = s.host := rfl
@[simp] theorem State.setRes_vars (a b : Word) (s : State) : (s.setRes a b).vars = s.vars := rfl
@[simp] theorem State.setRes_turns (a b : Word) (s : State) : (s.setRes a b).turns = s.turns := rfl
@[simp] theorem State.setRes_held (a b : Word) (s : State) : (s.setRes a b).held = s.held := rfl
@[simp] theorem State.setRes_hazard (a b : Word) (s : State) : (s.setRes a b).hazard = s.hazard := rfl
@[simp] theorem State.setRes_raced (a b : Word) (s : State) : (s.setRes a b).raced = s.raced := rfl
@[simp] theorem State.setRes_uses (a b : Word) (s : State) : (s.setRes a b).uses = s.uses := rfl
@[simp] theorem State.setRes_freeCtr (a b : Word) (s : State) : (s.setRes a b).freeCtr = s.freeCtr := rfl
@[simp] theorem State.setRes_cmd (a b : Word) (s : State) : (s.setRes a b).cmd = s.cmd := rfl
@[simp] theorem State.setRes_ops (a b : Word) (s : State) : (s.setRes a b).ops = s.ops := rfl
@[simp] theorem State.setRes_busy (a b : Word) (s : State) : (s.setRes a b).busy = s.busy := rfl

/-! ### setResRegion -/

@[simp] theorem State.setResRegion_cfg (r : Region) (s : State) : (s.setResRegion r).cfg = s.cfg := rfl
@[simp] theorem State.setResRegion_regs (r : Region) (s : State) : (s.setResRegion r).regs = s.regs := rfl
@[simp] theorem State.setResRegion_res0 (r : Region) (s : State) : (s.setResRegion r).res0 = halves r.y r.x := rfl
@[simp] theorem State.setResRegion_res1 (r : Region) (s : State) : (s.setResRegion r).res1 = halves r.h r.w := rfl
@[simp] theorem State.setResRegion_lutrdy (r : Region) (s : State) : (s.setResRegion r).lutrdy = s.lutrdy := rfl
@[simp] theorem State.setResRegion_dirty (r : Region) (s : State) : (s.setResRegion r).dirty = s.dirty := rfl
@[simp] theorem State.setResRegion_errs (r : Region) (s : State) : (s.setResRegion r).errs = s.errs := rfl
@[simp] theorem State.setResRegion_latch (r : Region) (s : State) : (s.setResRegion r).latch = s.latch := rfl
@[simp] theorem State.setResRegion_mem (r : Region) (s : State) : (s.setResRegion r).mem = s.mem := rfl
@[simp] theorem State.setResRegion_events (r : Region) (s : State) : (s.setResRegion r).events = s.events := rfl
@[simp] theorem State.setResRegion_host (r : Region) (s : State) : (s.setResRegion r).host = s.host := rfl
@[simp] theorem State.setResRegion_vars (r : Region) (s : State) : (s.setResRegion r).vars = s.vars := rfl
@[simp] theorem State.setResRegion_turns (r : Region) (s : State) : (s.setResRegion r).turns = s.turns := rfl
@[simp] theorem State.setResRegion_held (r : Region) (s : State) : (s.setResRegion r).held = s.held := rfl
@[simp] theorem State.setResRegion_hazard (r : Region) (s : State) : (s.setResRegion r).hazard = s.hazard := rfl
@[simp] theorem State.setResRegion_raced (r : Region) (s : State) : (s.setResRegion r).raced = s.raced := rfl
@[simp] theorem State.setResRegion_uses (r : Region) (s : State) : (s.setResRegion r).uses = s.uses := rfl
@[simp] theorem State.setResRegion_freeCtr (r : Region) (s : State) : (s.setResRegion r).freeCtr = s.freeCtr := rfl
@[simp] theorem State.setResRegion_cmd (r : Region) (s : State) : (s.setResRegion r).cmd = s.cmd := rfl
@[simp] theorem State.setResRegion_ops (r : Region) (s : State) : (s.setResRegion r).ops = s.ops := rfl
@[simp] theorem State.setResRegion_busy (r : Region) (s : State) : (s.setResRegion r).busy = s.busy := rfl

/-! ### clearDirty -/

@[simp] theorem State.clearDirty_cfg (s : State) : s.clearDirty.cfg = s.cfg := rfl
@[simp] theorem State.clearDirty_regs (s : State) : s.clearDirty.regs = s.regs := rfl
@[simp] theorem State.clearDirty_res0 (s : State) : s.clearDirty.res0 = s.res0 := rfl
@[simp] theorem State.clearDirty_res1 (s : State) : s.clearDirty.res1 = s.res1 := rfl
@[simp] theorem State.clearDirty_lutrdy (s : State) : s.clearDirty.lutrdy = s.lutrdy := rfl
@[simp] theorem State.clearDirty_dirty (s : State) : s.clearDirty.dirty = Dirty.clean := rfl
@[simp] theorem State.clearDirty_errs (s : State) : s.clearDirty.errs = s.errs := rfl
@[simp] theorem State.clearDirty_latch (s : State) : s.clearDirty.latch = s.latch := rfl
@[simp] theorem State.clearDirty_mem (s : State) : s.clearDirty.mem = s.mem := rfl
@[simp] theorem State.clearDirty_events (s : State) : s.clearDirty.events = s.events := rfl
@[simp] theorem State.clearDirty_host (s : State) : s.clearDirty.host = s.host := rfl
@[simp] theorem State.clearDirty_vars (s : State) : s.clearDirty.vars = s.vars := rfl
@[simp] theorem State.clearDirty_turns (s : State) : s.clearDirty.turns = s.turns := rfl
@[simp] theorem State.clearDirty_held (s : State) : s.clearDirty.held = s.held := rfl
@[simp] theorem State.clearDirty_hazard (s : State) : s.clearDirty.hazard = s.hazard := rfl
@[simp] theorem State.clearDirty_raced (s : State) : s.clearDirty.raced = s.raced := rfl
@[simp] theorem State.clearDirty_uses (s : State) : s.clearDirty.uses = s.uses := rfl
@[simp] theorem State.clearDirty_freeCtr (s : State) : s.clearDirty.freeCtr = s.freeCtr := rfl
@[simp] theorem State.clearDirty_cmd (s : State) : s.clearDirty.cmd = s.cmd := rfl
@[simp] theorem State.clearDirty_ops (s : State) : s.clearDirty.ops = s.ops := rfl
@[simp] theorem State.clearDirty_busy (s : State) : s.clearDirty.busy = s.busy := rfl

/-! ### emit -/

@[simp] theorem State.emit_cfg (es : List HsEvent) (s : State) : (s.emit es).cfg = s.cfg := rfl
@[simp] theorem State.emit_regs (es : List HsEvent) (s : State) : (s.emit es).regs = s.regs := rfl
@[simp] theorem State.emit_res0 (es : List HsEvent) (s : State) : (s.emit es).res0 = s.res0 := rfl
@[simp] theorem State.emit_res1 (es : List HsEvent) (s : State) : (s.emit es).res1 = s.res1 := rfl
@[simp] theorem State.emit_lutrdy (es : List HsEvent) (s : State) : (s.emit es).lutrdy = s.lutrdy := rfl
@[simp] theorem State.emit_dirty (es : List HsEvent) (s : State) : (s.emit es).dirty = s.dirty := rfl
@[simp] theorem State.emit_errs (es : List HsEvent) (s : State) : (s.emit es).errs = s.errs := rfl
@[simp] theorem State.emit_latch (es : List HsEvent) (s : State) : (s.emit es).latch = s.latch := rfl
@[simp] theorem State.emit_mem (es : List HsEvent) (s : State) : (s.emit es).mem = s.mem := rfl
@[simp] theorem State.emit_events (es : List HsEvent) (s : State) : (s.emit es).events = s.events ++ es := rfl
@[simp] theorem State.emit_host (es : List HsEvent) (s : State) : (s.emit es).host = s.host := rfl
@[simp] theorem State.emit_vars (es : List HsEvent) (s : State) : (s.emit es).vars = s.vars := rfl
@[simp] theorem State.emit_turns (es : List HsEvent) (s : State) : (s.emit es).turns = s.turns := rfl
@[simp] theorem State.emit_held (es : List HsEvent) (s : State) : (s.emit es).held = s.held := rfl
@[simp] theorem State.emit_hazard (es : List HsEvent) (s : State) : (s.emit es).hazard = s.hazard := rfl
@[simp] theorem State.emit_raced (es : List HsEvent) (s : State) : (s.emit es).raced = s.raced := rfl
@[simp] theorem State.emit_uses (es : List HsEvent) (s : State) : (s.emit es).uses = s.uses := rfl
@[simp] theorem State.emit_freeCtr (es : List HsEvent) (s : State) : (s.emit es).freeCtr = s.freeCtr := rfl
@[simp] theorem State.emit_cmd (es : List HsEvent) (s : State) : (s.emit es).cmd = s.cmd := rfl
@[simp] theorem State.emit_ops (es : List HsEvent) (s : State) : (s.emit es).ops = s.ops := rfl
@[simp] theorem State.emit_busy (es : List HsEvent) (s : State) : (s.emit es).busy = s.busy := rfl

/-! ### putBus -/

@[simp] theorem State.putBus_cfg (b : Bus) (s : State) : (s.putBus b).cfg = s.cfg := rfl
@[simp] theorem State.putBus_regs (b : Bus) (s : State) : (s.putBus b).regs = s.regs := rfl
@[simp] theorem State.putBus_res0 (b : Bus) (s : State) : (s.putBus b).res0 = s.res0 := rfl
@[simp] theorem State.putBus_res1 (b : Bus) (s : State) : (s.putBus b).res1 = s.res1 := rfl
@[simp] theorem State.putBus_lutrdy (b : Bus) (s : State) : (s.putBus b).lutrdy = s.lutrdy := rfl
@[simp] theorem State.putBus_dirty (b : Bus) (s : State) : (s.putBus b).dirty = s.dirty := rfl
@[simp] theorem State.putBus_errs (b : Bus) (s : State) : (s.putBus b).errs = s.errs := rfl
@[simp] theorem State.putBus_latch (b : Bus) (s : State) : (s.putBus b).latch = s.latch := rfl
@[simp] theorem State.putBus_mem (b : Bus) (s : State) : (s.putBus b).mem = b.mem := rfl
@[simp] theorem State.putBus_events (b : Bus) (s : State) : (s.putBus b).events = s.events := rfl
@[simp] theorem State.putBus_host (b : Bus) (s : State) : (s.putBus b).host = s.host := rfl
@[simp] theorem State.putBus_vars (b : Bus) (s : State) : (s.putBus b).vars = s.vars := rfl
@[simp] theorem State.putBus_turns (b : Bus) (s : State) : (s.putBus b).turns = s.turns := rfl
@[simp] theorem State.putBus_held (b : Bus) (s : State) : (s.putBus b).held = s.held := rfl
@[simp] theorem State.putBus_hazard (b : Bus) (s : State) : (s.putBus b).hazard = s.hazard := rfl
@[simp] theorem State.putBus_raced (b : Bus) (s : State) : (s.putBus b).raced = s.raced := rfl
@[simp] theorem State.putBus_uses (b : Bus) (s : State) : (s.putBus b).uses = s.uses := rfl
@[simp] theorem State.putBus_freeCtr (b : Bus) (s : State) : (s.putBus b).freeCtr = b.free := rfl
@[simp] theorem State.putBus_cmd (b : Bus) (s : State) : (s.putBus b).cmd = s.cmd := rfl
@[simp] theorem State.putBus_ops (b : Bus) (s : State) : (s.putBus b).ops = s.ops := rfl
@[simp] theorem State.putBus_busy (b : Bus) (s : State) : (s.putBus b).busy = s.busy := rfl

/-! ### havocRange -/

@[simp] theorem State.havocRange_cfg (r : Range) (s : State) : (s.havocRange r).cfg = s.cfg := rfl
@[simp] theorem State.havocRange_regs (r : Range) (s : State) : (s.havocRange r).regs = s.regs := rfl
@[simp] theorem State.havocRange_res0 (r : Range) (s : State) : (s.havocRange r).res0 = s.res0 := rfl
@[simp] theorem State.havocRange_res1 (r : Range) (s : State) : (s.havocRange r).res1 = s.res1 := rfl
@[simp] theorem State.havocRange_lutrdy (r : Range) (s : State) : (s.havocRange r).lutrdy = s.lutrdy := rfl
@[simp] theorem State.havocRange_dirty (r : Range) (s : State) : (s.havocRange r).dirty = s.dirty := rfl
@[simp] theorem State.havocRange_errs (r : Range) (s : State) : (s.havocRange r).errs = s.errs := rfl
@[simp] theorem State.havocRange_latch (r : Range) (s : State) : (s.havocRange r).latch = s.latch := rfl
@[simp] theorem State.havocRange_mem (r : Range) (s : State) : (s.havocRange r).mem = havoc r.start r.len s.mem s.freeCtr := rfl
@[simp] theorem State.havocRange_events (r : Range) (s : State) : (s.havocRange r).events = s.events := rfl
@[simp] theorem State.havocRange_host (r : Range) (s : State) : (s.havocRange r).host = s.host := rfl
@[simp] theorem State.havocRange_vars (r : Range) (s : State) : (s.havocRange r).vars = s.vars := rfl
@[simp] theorem State.havocRange_turns (r : Range) (s : State) : (s.havocRange r).turns = s.turns := rfl
@[simp] theorem State.havocRange_held (r : Range) (s : State) : (s.havocRange r).held = s.held := rfl
@[simp] theorem State.havocRange_hazard (r : Range) (s : State) : (s.havocRange r).hazard = s.hazard := rfl
@[simp] theorem State.havocRange_raced (r : Range) (s : State) : (s.havocRange r).raced = s.raced := rfl
@[simp] theorem State.havocRange_uses (r : Range) (s : State) : (s.havocRange r).uses = s.uses := rfl
@[simp] theorem State.havocRange_freeCtr (r : Range) (s : State) : (s.havocRange r).freeCtr = s.freeCtr + r.len := rfl
@[simp] theorem State.havocRange_cmd (r : Range) (s : State) : (s.havocRange r).cmd = s.cmd := rfl
@[simp] theorem State.havocRange_ops (r : Range) (s : State) : (s.havocRange r).ops = s.ops := rfl
@[simp] theorem State.havocRange_busy (r : Range) (s : State) : (s.havocRange r).busy = s.busy := rfl

/-! ### markRect -/

@[simp] theorem State.markRect_cfg (x y w h : Nat) (s : State) : (s.markRect x y w h).cfg = s.cfg := rfl
@[simp] theorem State.markRect_regs (x y w h : Nat) (s : State) : (s.markRect x y w h).regs = s.regs := rfl
@[simp] theorem State.markRect_res0 (x y w h : Nat) (s : State) : (s.markRect x y w h).res0 = s.res0 := rfl
@[simp] theorem State.markRect_res1 (x y w h : Nat) (s : State) : (s.markRect x y w h).res1 = s.res1 := rfl
@[simp] theorem State.markRect_lutrdy (x y w h : Nat) (s : State) : (s.markRect x y w h).lutrdy = s.lutrdy := rfl
@[simp] theorem State.markRect_dirty (x y w h : Nat) (s : State) : (s.markRect x y w h).dirty = s.dirty.mark x y w h := rfl
@[simp] theorem State.markRect_errs (x y w h : Nat) (s : State) : (s.markRect x y w h).errs = s.errs := rfl
@[simp] theorem State.markRect_latch (x y w h : Nat) (s : State) : (s.markRect x y w h).latch = s.latch := rfl
@[simp] theorem State.markRect_mem (x y w h : Nat) (s : State) : (s.markRect x y w h).mem = s.mem := rfl
@[simp] theorem State.markRect_events (x y w h : Nat) (s : State) : (s.markRect x y w h).events = s.events := rfl
@[simp] theorem State.markRect_host (x y w h : Nat) (s : State) : (s.markRect x y w h).host = s.host := rfl
@[simp] theorem State.markRect_vars (x y w h : Nat) (s : State) : (s.markRect x y w h).vars = s.vars := rfl
@[simp] theorem State.markRect_turns (x y w h : Nat) (s : State) : (s.markRect x y w h).turns = s.turns := rfl
@[simp] theorem State.markRect_held (x y w h : Nat) (s : State) : (s.markRect x y w h).held = s.held := rfl
@[simp] theorem State.markRect_hazard (x y w h : Nat) (s : State) : (s.markRect x y w h).hazard = s.hazard := rfl
@[simp] theorem State.markRect_raced (x y w h : Nat) (s : State) : (s.markRect x y w h).raced = s.raced := rfl
@[simp] theorem State.markRect_uses (x y w h : Nat) (s : State) : (s.markRect x y w h).uses = s.uses := rfl
@[simp] theorem State.markRect_freeCtr (x y w h : Nat) (s : State) : (s.markRect x y w h).freeCtr = s.freeCtr := rfl
@[simp] theorem State.markRect_cmd (x y w h : Nat) (s : State) : (s.markRect x y w h).cmd = s.cmd := rfl
@[simp] theorem State.markRect_ops (x y w h : Nat) (s : State) : (s.markRect x y w h).ops = s.ops := rfl
@[simp] theorem State.markRect_busy (x y w h : Nat) (s : State) : (s.markRect x y w h).busy = s.busy := rfl

/-! ### bindVar -/

@[simp] theorem State.bindVar_cfg (x : Nat) (v : Word) (s : State) : (s.bindVar x v).cfg = s.cfg := rfl
@[simp] theorem State.bindVar_regs (x : Nat) (v : Word) (s : State) : (s.bindVar x v).regs = s.regs := rfl
@[simp] theorem State.bindVar_res0 (x : Nat) (v : Word) (s : State) : (s.bindVar x v).res0 = s.res0 := rfl
@[simp] theorem State.bindVar_res1 (x : Nat) (v : Word) (s : State) : (s.bindVar x v).res1 = s.res1 := rfl
@[simp] theorem State.bindVar_lutrdy (x : Nat) (v : Word) (s : State) : (s.bindVar x v).lutrdy = s.lutrdy := rfl
@[simp] theorem State.bindVar_dirty (x : Nat) (v : Word) (s : State) : (s.bindVar x v).dirty = s.dirty := rfl
@[simp] theorem State.bindVar_errs (x : Nat) (v : Word) (s : State) : (s.bindVar x v).errs = s.errs := rfl
@[simp] theorem State.bindVar_latch (x : Nat) (v : Word) (s : State) : (s.bindVar x v).latch = s.latch := rfl
@[simp] theorem State.bindVar_mem (x : Nat) (v : Word) (s : State) : (s.bindVar x v).mem = s.mem := rfl
@[simp] theorem State.bindVar_events (x : Nat) (v : Word) (s : State) : (s.bindVar x v).events = s.events := rfl
@[simp] theorem State.bindVar_host (x : Nat) (v : Word) (s : State) : (s.bindVar x v).host = s.host := rfl
@[simp] theorem State.bindVar_vars (x : Nat) (v : Word) (s : State) : (s.bindVar x v).vars = s.vars ++ [(x, v)] := rfl
@[simp] theorem State.bindVar_turns (x : Nat) (v : Word) (s : State) : (s.bindVar x v).turns = s.turns := rfl
@[simp] theorem State.bindVar_held (x : Nat) (v : Word) (s : State) : (s.bindVar x v).held = s.held := rfl
@[simp] theorem State.bindVar_hazard (x : Nat) (v : Word) (s : State) : (s.bindVar x v).hazard = s.hazard := rfl
@[simp] theorem State.bindVar_raced (x : Nat) (v : Word) (s : State) : (s.bindVar x v).raced = s.raced := rfl
@[simp] theorem State.bindVar_uses (x : Nat) (v : Word) (s : State) : (s.bindVar x v).uses = s.uses := rfl
@[simp] theorem State.bindVar_freeCtr (x : Nat) (v : Word) (s : State) : (s.bindVar x v).freeCtr = s.freeCtr := rfl
@[simp] theorem State.bindVar_cmd (x : Nat) (v : Word) (s : State) : (s.bindVar x v).cmd = s.cmd := rfl
@[simp] theorem State.bindVar_ops (x : Nat) (v : Word) (s : State) : (s.bindVar x v).ops = s.ops := rfl
@[simp] theorem State.bindVar_busy (x : Nat) (v : Word) (s : State) : (s.bindVar x v).busy = s.busy := rfl

/-! ### accept -/

@[simp] theorem State.accept_cfg (c : Word) (s : State) : (s.accept c).cfg = s.cfg := rfl
@[simp] theorem State.accept_regs (c : Word) (s : State) : (s.accept c).regs = s.regs := rfl
@[simp] theorem State.accept_res0 (c : Word) (s : State) : (s.accept c).res0 = s.res0 := rfl
@[simp] theorem State.accept_res1 (c : Word) (s : State) : (s.accept c).res1 = s.res1 := rfl
@[simp] theorem State.accept_lutrdy (c : Word) (s : State) : (s.accept c).lutrdy = s.lutrdy := rfl
@[simp] theorem State.accept_dirty (c : Word) (s : State) : (s.accept c).dirty = s.dirty := rfl
@[simp] theorem State.accept_errs (c : Word) (s : State) : (s.accept c).errs = s.errs := rfl
@[simp] theorem State.accept_latch (c : Word) (s : State) : (s.accept c).latch = some { word := c, regs := s.regs } := rfl
@[simp] theorem State.accept_mem (c : Word) (s : State) : (s.accept c).mem = s.mem := rfl
@[simp] theorem State.accept_events (c : Word) (s : State) : (s.accept c).events = s.events := rfl
@[simp] theorem State.accept_host (c : Word) (s : State) : (s.accept c).host = s.host := rfl
@[simp] theorem State.accept_vars (c : Word) (s : State) : (s.accept c).vars = s.vars := rfl
@[simp] theorem State.accept_turns (c : Word) (s : State) : (s.accept c).turns = s.turns := rfl
@[simp] theorem State.accept_held (c : Word) (s : State) : (s.accept c).held = some s.shown := rfl
@[simp] theorem State.accept_hazard (c : Word) (s : State) : (s.accept c).hazard = s.hazard.join (wordReach s.regs s.dirty c) := rfl
@[simp] theorem State.accept_raced (c : Word) (s : State) : (s.accept c).raced = [] := rfl
@[simp] theorem State.accept_uses (c : Word) (s : State) : (s.accept c).uses = s.uses := rfl
@[simp] theorem State.accept_freeCtr (c : Word) (s : State) : (s.accept c).freeCtr = s.freeCtr := rfl

/-! ### clearBdq -/

@[simp] theorem State.clearBdq_cfg (s : State) : s.clearBdq.cfg = s.cfg := rfl
@[simp] theorem State.clearBdq_regs (s : State) : s.clearBdq.regs = Regs.reset := rfl
@[simp] theorem State.clearBdq_res0 (s : State) : s.clearBdq.res0 = 0#32 := rfl
@[simp] theorem State.clearBdq_res1 (s : State) : s.clearBdq.res1 = 0#32 := rfl
@[simp] theorem State.clearBdq_lutrdy (s : State) : s.clearBdq.lutrdy = false := rfl
@[simp] theorem State.clearBdq_dirty (s : State) : s.clearBdq.dirty = Dirty.clean := rfl
@[simp] theorem State.clearBdq_errs (s : State) : s.clearBdq.errs = ErrRec.none := rfl
@[simp] theorem State.clearBdq_latch (s : State) : s.clearBdq.latch = none := rfl
@[simp] theorem State.clearBdq_mem (s : State) : s.clearBdq.mem = s.mem := rfl
@[simp] theorem State.clearBdq_events (s : State) : s.clearBdq.events = s.events := rfl
@[simp] theorem State.clearBdq_host (s : State) : s.clearBdq.host = s.host := rfl
@[simp] theorem State.clearBdq_vars (s : State) : s.clearBdq.vars = s.vars := rfl
@[simp] theorem State.clearBdq_turns (s : State) : s.clearBdq.turns = s.turns := rfl
@[simp] theorem State.clearBdq_held (s : State) : s.clearBdq.held = none := rfl
@[simp] theorem State.clearBdq_hazard (s : State) : s.clearBdq.hazard = Footprint.empty := rfl
@[simp] theorem State.clearBdq_raced (s : State) : s.clearBdq.raced = [] := rfl
@[simp] theorem State.clearBdq_uses (s : State) : s.clearBdq.uses = [] := rfl
@[simp] theorem State.clearBdq_freeCtr (s : State) : s.clearBdq.freeCtr = s.freeCtr := rfl

/-! ### addUses -/

@[simp] theorem State.addUses_cfg (us : List Use) (s : State) : (s.addUses us).cfg = s.cfg := rfl
@[simp] theorem State.addUses_regs (us : List Use) (s : State) : (s.addUses us).regs = s.regs := rfl
@[simp] theorem State.addUses_res0 (us : List Use) (s : State) : (s.addUses us).res0 = s.res0 := rfl
@[simp] theorem State.addUses_res1 (us : List Use) (s : State) : (s.addUses us).res1 = s.res1 := rfl
@[simp] theorem State.addUses_lutrdy (us : List Use) (s : State) : (s.addUses us).lutrdy = s.lutrdy := rfl
@[simp] theorem State.addUses_dirty (us : List Use) (s : State) : (s.addUses us).dirty = s.dirty := rfl
@[simp] theorem State.addUses_errs (us : List Use) (s : State) : (s.addUses us).errs = s.errs := rfl
@[simp] theorem State.addUses_latch (us : List Use) (s : State) : (s.addUses us).latch = s.latch := rfl
@[simp] theorem State.addUses_mem (us : List Use) (s : State) : (s.addUses us).mem = s.mem := rfl
@[simp] theorem State.addUses_events (us : List Use) (s : State) : (s.addUses us).events = s.events := rfl
@[simp] theorem State.addUses_host (us : List Use) (s : State) : (s.addUses us).host = s.host := rfl
@[simp] theorem State.addUses_vars (us : List Use) (s : State) : (s.addUses us).vars = s.vars := rfl
@[simp] theorem State.addUses_turns (us : List Use) (s : State) : (s.addUses us).turns = s.turns := rfl
@[simp] theorem State.addUses_held (us : List Use) (s : State) : (s.addUses us).held = s.held := rfl
@[simp] theorem State.addUses_hazard (us : List Use) (s : State) : (s.addUses us).hazard = s.hazard := rfl
@[simp] theorem State.addUses_raced (us : List Use) (s : State) : (s.addUses us).raced = s.raced := rfl
@[simp] theorem State.addUses_uses (us : List Use) (s : State) : (s.addUses us).uses = s.uses ++ us := rfl
@[simp] theorem State.addUses_freeCtr (us : List Use) (s : State) : (s.addUses us).freeCtr = s.freeCtr := rfl
@[simp] theorem State.addUses_cmd (us : List Use) (s : State) : (s.addUses us).cmd = s.cmd := rfl
@[simp] theorem State.addUses_ops (us : List Use) (s : State) : (s.addUses us).ops = s.ops := rfl
@[simp] theorem State.addUses_busy (us : List Use) (s : State) : (s.addUses us).busy = s.busy := rfl

@[simp] theorem State.complete_busy (s : State) : s.complete.busy = false := rfl
@[simp] theorem State.accept_cmd (c : Word) (s : State) : (s.accept c).cmd = { word := c, regs := s.regs } := rfl
@[simp] theorem State.accept_ops (c : Word) (s : State) : (s.accept c).ops = s.regs := rfl
@[simp] theorem State.accept_busy (c : Word) (s : State) : (s.accept c).busy = true := rfl
@[simp] theorem State.clearBdq_busy (s : State) : s.clearBdq.busy = false := rfl

/-! ### freeResult: a result, and the counter, are the only fields a free value replaces -/

@[simp] theorem State.freeResult_cfg (s : State) (r : Result) : (s.freeResult r).cfg = s.cfg := by
  cases r <;> simp only [State.freeResult] <;> split <;> rfl
@[simp] theorem State.freeResult_regs (s : State) (r : Result) : (s.freeResult r).regs = s.regs := by
  cases r <;> simp only [State.freeResult] <;> split <;> rfl
@[simp] theorem State.freeResult_lutrdy (s : State) (r : Result) : (s.freeResult r).lutrdy = s.lutrdy := by
  cases r <;> simp only [State.freeResult] <;> split <;> rfl
@[simp] theorem State.freeResult_dirty (s : State) (r : Result) : (s.freeResult r).dirty = s.dirty := by
  cases r <;> simp only [State.freeResult] <;> split <;> rfl
@[simp] theorem State.freeResult_errs (s : State) (r : Result) : (s.freeResult r).errs = s.errs := by
  cases r <;> simp only [State.freeResult] <;> split <;> rfl
@[simp] theorem State.freeResult_latch (s : State) (r : Result) : (s.freeResult r).latch = s.latch := by
  cases r <;> simp only [State.freeResult] <;> split <;> rfl
@[simp] theorem State.freeResult_host (s : State) (r : Result) : (s.freeResult r).host = s.host := by
  cases r <;> simp only [State.freeResult] <;> split <;> rfl
@[simp] theorem State.freeResult_vars (s : State) (r : Result) : (s.freeResult r).vars = s.vars := by
  cases r <;> simp only [State.freeResult] <;> split <;> rfl
@[simp] theorem State.freeResult_turns (s : State) (r : Result) : (s.freeResult r).turns = s.turns := by
  cases r <;> simp only [State.freeResult] <;> split <;> rfl
@[simp] theorem State.freeResult_held (s : State) (r : Result) : (s.freeResult r).held = s.held := by
  cases r <;> simp only [State.freeResult] <;> split <;> rfl
@[simp] theorem State.freeResult_hazard (s : State) (r : Result) : (s.freeResult r).hazard = s.hazard := by
  cases r <;> simp only [State.freeResult] <;> split <;> rfl
@[simp] theorem State.freeResult_raced (s : State) (r : Result) : (s.freeResult r).raced = s.raced := by
  cases r <;> simp only [State.freeResult] <;> split <;> rfl
@[simp] theorem State.freeResult_uses (s : State) (r : Result) : (s.freeResult r).uses = s.uses := by
  cases r <;> simp only [State.freeResult] <;> split <;> rfl
@[simp] theorem State.freeResult_freeCtr (s : State) (r : Result) : (s.freeResult r).freeCtr = s.freeCtr + 1 := by
  cases r <;> simp only [State.freeResult] <;> split <;> rfl

/-! ### acknowledge: what a STATUS read can change -/

@[simp] theorem State.acknowledge_cfg (s : State) : s.acknowledge.cfg = s.cfg := by
  unfold State.acknowledge; split <;> rfl
@[simp] theorem State.acknowledge_regs (s : State) : s.acknowledge.regs = s.regs := by
  unfold State.acknowledge; split <;> rfl
@[simp] theorem State.acknowledge_res0 (s : State) : s.acknowledge.res0 = s.res0 := by
  unfold State.acknowledge; split <;> rfl
@[simp] theorem State.acknowledge_res1 (s : State) : s.acknowledge.res1 = s.res1 := by
  unfold State.acknowledge; split <;> rfl
@[simp] theorem State.acknowledge_lutrdy (s : State) : s.acknowledge.lutrdy = s.lutrdy := by
  unfold State.acknowledge; split <;> rfl
@[simp] theorem State.acknowledge_dirty (s : State) : s.acknowledge.dirty = s.dirty := by
  unfold State.acknowledge; split <;> rfl
@[simp] theorem State.acknowledge_errs (s : State) : s.acknowledge.errs = s.errs := by
  unfold State.acknowledge; split <;> rfl
@[simp] theorem State.acknowledge_latch (s : State) : s.acknowledge.latch = s.latch := by
  unfold State.acknowledge; split <;> rfl
@[simp] theorem State.acknowledge_mem (s : State) : s.acknowledge.mem = s.mem := by
  unfold State.acknowledge; split <;> rfl
@[simp] theorem State.acknowledge_events (s : State) : s.acknowledge.events = s.events := by
  unfold State.acknowledge; split <;> rfl
@[simp] theorem State.acknowledge_host (s : State) : s.acknowledge.host = s.host := by
  unfold State.acknowledge; split <;> rfl
@[simp] theorem State.acknowledge_vars (s : State) : s.acknowledge.vars = s.vars := by
  unfold State.acknowledge; split <;> rfl
@[simp] theorem State.acknowledge_turns (s : State) : s.acknowledge.turns = s.turns := by
  unfold State.acknowledge; split <;> rfl
@[simp] theorem State.acknowledge_raced (s : State) : s.acknowledge.raced = s.raced := by
  unfold State.acknowledge; split <;> rfl
@[simp] theorem State.acknowledge_freeCtr (s : State) : s.acknowledge.freeCtr = s.freeCtr := by
  unfold State.acknowledge; split <;> rfl

/-! ### record and raise: the error record is the only field an error touches, beside completion -/

@[simp] theorem State.record_cfg (e : ErrorKind) (c a : Word) (s : State) : (s.record e c a).cfg = s.cfg := by
  unfold State.record; split <;> rfl
@[simp] theorem State.record_regs (e : ErrorKind) (c a : Word) (s : State) : (s.record e c a).regs = s.regs := by
  unfold State.record; split <;> rfl
@[simp] theorem State.record_res0 (e : ErrorKind) (c a : Word) (s : State) : (s.record e c a).res0 = s.res0 := by
  unfold State.record; split <;> rfl
@[simp] theorem State.record_res1 (e : ErrorKind) (c a : Word) (s : State) : (s.record e c a).res1 = s.res1 := by
  unfold State.record; split <;> rfl
@[simp] theorem State.record_lutrdy (e : ErrorKind) (c a : Word) (s : State) : (s.record e c a).lutrdy = s.lutrdy := by
  unfold State.record; split <;> rfl
@[simp] theorem State.record_dirty (e : ErrorKind) (c a : Word) (s : State) : (s.record e c a).dirty = s.dirty := by
  unfold State.record; split <;> rfl
@[simp] theorem State.record_latch (e : ErrorKind) (c a : Word) (s : State) : (s.record e c a).latch = s.latch := by
  unfold State.record; split <;> rfl
@[simp] theorem State.record_mem (e : ErrorKind) (c a : Word) (s : State) : (s.record e c a).mem = s.mem := by
  unfold State.record; split <;> rfl
@[simp] theorem State.record_events (e : ErrorKind) (c a : Word) (s : State) : (s.record e c a).events = s.events := by
  unfold State.record; split <;> rfl
@[simp] theorem State.record_host (e : ErrorKind) (c a : Word) (s : State) : (s.record e c a).host = s.host := by
  unfold State.record; split <;> rfl
@[simp] theorem State.record_vars (e : ErrorKind) (c a : Word) (s : State) : (s.record e c a).vars = s.vars := by
  unfold State.record; split <;> rfl
@[simp] theorem State.record_turns (e : ErrorKind) (c a : Word) (s : State) : (s.record e c a).turns = s.turns := by
  unfold State.record; split <;> rfl
@[simp] theorem State.record_held (e : ErrorKind) (c a : Word) (s : State) : (s.record e c a).held = s.held := by
  unfold State.record; split <;> rfl
@[simp] theorem State.record_hazard (e : ErrorKind) (c a : Word) (s : State) : (s.record e c a).hazard = s.hazard := by
  unfold State.record; split <;> rfl
@[simp] theorem State.record_raced (e : ErrorKind) (c a : Word) (s : State) : (s.record e c a).raced = s.raced := by
  unfold State.record; split <;> rfl
@[simp] theorem State.record_uses (e : ErrorKind) (c a : Word) (s : State) : (s.record e c a).uses = s.uses := by
  unfold State.record; split <;> rfl
@[simp] theorem State.record_freeCtr (e : ErrorKind) (c a : Word) (s : State) : (s.record e c a).freeCtr = s.freeCtr := by
  unfold State.record; split <;> rfl

/-- The record after an error: the first error is kept (R237). -/
theorem State.record_errs (e : ErrorKind) (c a : Word) (s : State) :
    (s.record e c a).errs = if s.errs.err then s.errs else { err := true, code := e.code, addr := a, cmd := c } := by
  unfold State.record; split <;> rfl

@[simp] theorem State.record_cmd (e : ErrorKind) (c a : Word) (s : State) : (s.record e c a).cmd = s.cmd := by
  simp [State.cmd]

@[simp] theorem State.record_ops (e : ErrorKind) (c a : Word) (s : State) : (s.record e c a).ops = s.ops := by
  simp [State.ops]

@[simp] theorem State.record_busy (e : ErrorKind) (c a : Word) (s : State) : (s.record e c a).busy = s.busy := by
  simp [State.busy]

@[simp] theorem State.raise_cfg (e : ErrorKind) (a : Word) (s : State) : (s.raise e a).cfg = s.cfg := by
  simp [State.raise]
@[simp] theorem State.raise_regs (e : ErrorKind) (a : Word) (s : State) : (s.raise e a).regs = s.regs := by
  simp [State.raise]
@[simp] theorem State.raise_res0 (e : ErrorKind) (a : Word) (s : State) : (s.raise e a).res0 = s.res0 := by
  simp [State.raise]
@[simp] theorem State.raise_res1 (e : ErrorKind) (a : Word) (s : State) : (s.raise e a).res1 = s.res1 := by
  simp [State.raise]
@[simp] theorem State.raise_lutrdy (e : ErrorKind) (a : Word) (s : State) : (s.raise e a).lutrdy = s.lutrdy := by
  simp [State.raise]
@[simp] theorem State.raise_dirty (e : ErrorKind) (a : Word) (s : State) : (s.raise e a).dirty = s.dirty := by
  simp [State.raise]
@[simp] theorem State.raise_latch (e : ErrorKind) (a : Word) (s : State) : (s.raise e a).latch = none := by
  simp [State.raise]
@[simp] theorem State.raise_mem (e : ErrorKind) (a : Word) (s : State) : (s.raise e a).mem = s.mem := by
  simp [State.raise]
@[simp] theorem State.raise_events (e : ErrorKind) (a : Word) (s : State) : (s.raise e a).events = s.events := by
  simp [State.raise]
@[simp] theorem State.raise_host (e : ErrorKind) (a : Word) (s : State) : (s.raise e a).host = s.host := by
  simp [State.raise]
@[simp] theorem State.raise_vars (e : ErrorKind) (a : Word) (s : State) : (s.raise e a).vars = s.vars := by
  simp [State.raise]
@[simp] theorem State.raise_turns (e : ErrorKind) (a : Word) (s : State) : (s.raise e a).turns = s.turns := by
  simp [State.raise]
@[simp] theorem State.raise_held (e : ErrorKind) (a : Word) (s : State) : (s.raise e a).held = s.held := by
  simp [State.raise]
@[simp] theorem State.raise_hazard (e : ErrorKind) (a : Word) (s : State) : (s.raise e a).hazard = s.hazard := by
  simp [State.raise]
@[simp] theorem State.raise_raced (e : ErrorKind) (a : Word) (s : State) : (s.raise e a).raced = [] := by
  simp [State.raise]
@[simp] theorem State.raise_uses (e : ErrorKind) (a : Word) (s : State) : (s.raise e a).uses = s.uses := by
  simp [State.raise]
@[simp] theorem State.raise_freeCtr (e : ErrorKind) (a : Word) (s : State) : (s.raise e a).freeCtr = s.freeCtr := by
  simp [State.raise]

/-- The record after a command raises an error (R237). -/
theorem State.raise_errs (e : ErrorKind) (a : Word) (s : State) :
    (s.raise e a).errs = if s.errs.err then s.errs else { err := true, code := e.code, addr := a, cmd := s.cmd.word } := by
  simp [State.raise, State.record_errs]

@[simp] theorem State.raise_busy (e : ErrorKind) (a : Word) (s : State) : (s.raise e a).busy = false := by
  simp [State.busy]

end Sys2Proof.Machine
end

