-- ==== Sys2Proof/Laws/Bus.lean ====
section
/-! SUPPORT. What the bus accesses and the loops of the commands can do: which bytes they may change, and that memory stays
canonical. -/

namespace Sys2Proof.Machine

/-- Byte n of a range, n below its length, lies in it (addresses wrap, R66). -/
theorem covers_offset (r : Range) {n : Nat} (h : n < r.len) : covers r (r.start + BitVec.ofNat 32 n) = true := by
  have : r.start + BitVec.ofNat 32 n - r.start = BitVec.ofNat 32 n := by
    rw [BitVec.add_comm, BitVec.add_sub_cancel]
  simp only [covers, this, BitVec.toNat_ofNat, decide_eq_true_eq]
  exact Nat.lt_of_le_of_lt (Nat.mod_le _ _) h

/-- An address outside a range is none of the range's bytes. -/
theorem ne_of_not_covers {r : Range} {x : Word} (hx : covers r x = false) {n : Nat} (h : n < r.len) :
    x ≠ r.start + BitVec.ofNat 32 n := by
  intro he
  rw [he, covers_offset r h] at hx
  exact absurd hx (by decide)

/-- A range of n words is what n 4-byte accesses cover (addresses wrap, R66). -/
theorem covers_words (a x : Word) (n : Nat) :
    covers { start := a, len := 4 * n } x = true ↔ ∃ i, i < n ∧ (x - (a + BitVec.ofNat 32 (4 * i))).toNat < 4 := by
  have hx := (x - a).isLt
  have hsub : ∀ i, (x - (a + BitVec.ofNat 32 (4 * i))).toNat = (2 ^ 32 - 4 * i % 2 ^ 32 + (x - a).toNat) % 2 ^ 32 := by
    intro i
    rw [show x - (a + BitVec.ofNat 32 (4 * i)) = x - a - BitVec.ofNat 32 (4 * i) by
      rw [BitVec.sub_eq_add_neg, BitVec.neg_add, BitVec.sub_eq_add_neg, BitVec.sub_eq_add_neg, BitVec.sub_eq_add_neg, BitVec.add_assoc],
      BitVec.toNat_sub, BitVec.toNat_ofNat]
  simp only [covers, decide_eq_true_eq, hsub]
  constructor
  · exact fun h => ⟨(x - a).toNat / 4, by omega, by omega⟩
  · rintro ⟨i, hi, h⟩
    omega

/-- A range is its bytes one by one (addresses wrap, R66). -/
theorem covers_bytes (a x : Word) (n : Nat) :
    covers { start := a, len := n } x = true ↔ ∃ i, i < n ∧ x = a + BitVec.ofNat 32 i := by
  constructor
  · intro h
    refine ⟨(x - a).toNat, by simpa [covers] using h, ?_⟩
    rw [BitVec.ofNat_toNat, BitVec.setWidth_eq, BitVec.add_comm, BitVec.sub_add_cancel]
  · rintro ⟨i, hi, rfl⟩
    exact covers_offset { start := a, len := n } hi

/-- A bus read that succeeds returns the little-endian word (R62) and does not fail by MEM_ERR. -/
theorem busRead_ok {k : Config} {b : Bus} {a w : Word} {t : Bool} (h : busRead k b a = .ok (w, t)) :
    memErrAt k a .read = false ∧ w = read32 b.mem a ∧ t = colourTainted b a := by
  unfold busRead at h
  split at h
  · cases h
  · next hm => cases h; exact ⟨by simpa using hm, rfl, rfl⟩

/-- A bus write that succeeds changes its one byte, to the value given or to a free value. -/
theorem busWrite_ok {k : Config} {input : Range} {a : Word} {v : Byte} {d : Bool} {b b' : Bus}
    (h : busWrite k input a v d b = .ok b') :
    memErrAt k a .write = false ∧ ∃ u, b'.mem = Memory.write b.mem a.toNat u := by
  unfold busWrite at h
  split at h
  · cases h
  · next hm =>
    refine ⟨by simpa using hm, ?_⟩
    split at h <;> cases h
    · exact ⟨_, rfl⟩
    · exact ⟨_, rfl⟩

/-- What two memories have in common when only bytes satisfying P may differ, and canonical form is kept. -/
def OnlyChanges (P : Word → Prop) (m m' : Memory) : Prop :=
  (∀ x, ¬ P x → byteAt m' x = byteAt m x) ∧ (Memory.wf m = true → Memory.wf m' = true)

theorem OnlyChanges.refl (P : Word → Prop) (m : Memory) : OnlyChanges P m m := ⟨fun _ _ => rfl, id⟩

theorem OnlyChanges.trans {P : Word → Prop} {m m' m'' : Memory} (h : OnlyChanges P m m') (h' : OnlyChanges P m' m'') :
    OnlyChanges P m m'' :=
  ⟨fun x hx => (h'.1 x hx).trans (h.1 x hx), fun hw => h'.2 (h.2 hw)⟩

/-- Writing a byte that may change. -/
theorem OnlyChanges.write {P : Word → Prop} {a : Word} (ha : P a) (m : Memory) (v : Byte) :
    OnlyChanges P m (Memory.write m a.toNat v) :=
  ⟨fun _ hx => byteAt_write_other fun he => hx (he ▸ ha), Memory.wf_write⟩

theorem OnlyChanges.busWrite {P : Word → Prop} {k : Config} {input : Range} {a : Word} {v : Byte} {d : Bool} {b b' : Bus}
    (h : busWrite k input a v d b = .ok b') (ha : P a) : OnlyChanges P b.mem b'.mem := by
  obtain ⟨-, u, hu⟩ := busWrite_ok h
  exact hu ▸ OnlyChanges.write ha b.mem u

/-- havoc changes only the n bytes from a on. -/
theorem OnlyChanges.havoc {P : Word → Prop} {n : Nat} {a : Word} {m : Memory} {f : Nat}
    (hP : ∀ i, i < n → P (a + BitVec.ofNat 32 i)) : OnlyChanges P m (havoc a n m f) := by
  induction n generalizing a m f with
  | zero => exact OnlyChanges.refl P m
  | succ n ih =>
    refine (OnlyChanges.write (by simpa using hP 0 (Nat.succ_pos n)) m _).trans (ih fun i hi => ?_)
    have := hP (i + 1) (by omega)
    rwa [show a + 1#32 + BitVec.ofNat 32 i = a + BitVec.ofNat 32 (i + 1) by
      rw [BitVec.add_assoc, Nat.add_comm i 1, BitVec.ofNat_add]]

/-- A havocked range: no byte outside it changes. -/
theorem OnlyChanges.havocRange (r : Range) (s : State) :
    OnlyChanges (fun x => covers r x = true) s.mem (s.havocRange r).mem :=
  OnlyChanges.havoc fun _ hi => covers_offset r hi

theorem OnlyChanges.mono {P Q : Word → Prop} {m m' : Memory} (h : OnlyChanges P m m') (hPQ : ∀ x, P x → Q x) :
    OnlyChanges Q m m' :=
  ⟨fun x hx => h.1 x fun hp => hx (hPQ x hp), h.2⟩

/-- Several havocked ranges: no byte outside all of them changes. -/
theorem OnlyChanges.havocRanges (rs : List Range) (s : State) :
    OnlyChanges (fun x => coveredBy rs x = true) s.mem (s.havocRanges rs).mem := by
  induction rs generalizing s with
  | nil => exact OnlyChanges.refl _ _
  | cons r rs ih =>
    refine ((OnlyChanges.havocRange r s).mono fun x hx => ?_).trans ((ih (s.havocRange r)).mono fun x hx => ?_)
    · simp [coveredBy, hx]
    · simp only [coveredBy, List.any_cons, Bool.or_eq_true] at hx ⊢
      exact Or.inr hx

/-- The positions of a w × h array are the pairs below w and h. -/
theorem mem_positions {w h x y : Nat} : (x, y) ∈ positions w h ↔ x < w ∧ y < h := by
  simp only [positions, List.mem_flatMap, List.mem_range, List.mem_map, Prod.mk.injEq]
  exact ⟨fun ⟨_, hy, _, hx, hxe, hye⟩ => ⟨hxe ▸ hx, hye ▸ hy⟩, fun ⟨hx, hy⟩ => ⟨y, hy, x, hx, rfl, rfl⟩⟩

/-- The linear index of a position is below the size of the array. -/
theorem index_lt {w h x y : Nat} (hx : x < w) (hy : y < h) : y * w + x < w * h := by
  calc y * w + x < y * w + w := by omega
    _ = (y + 1) * w := (Nat.succ_mul y w).symm
    _ ≤ h * w := Nat.mul_le_mul_right w hy
    _ = w * h := Nat.mul_comm h w

/-- QSURF8's loop writes only bytes of its output range (R76, R114). -/
theorem qsurfLoop_only {k : Config} {g : Regs} {ps : List (Nat × Nat)} {b b' : Bus}
    (hps : ∀ x y, (x, y) ∈ ps → x < g.surfW.toNat ∧ y < g.surfH.toNat) (h : qsurfLoop k g ps b = .ok b') :
    OnlyChanges (fun x => covers (qsurfOut g) x = true) b.mem b'.mem := by
  induction ps generalizing b with
  | nil => cases h; exact OnlyChanges.refl _ _
  | cons p ps ih =>
    obtain ⟨x, y⟩ := p
    simp only [qsurfLoop] at h
    split at h
    · cases h
    · split at h
      · cases h
      · next b1 hw =>
        obtain ⟨hx, hy⟩ := hps x y (by simp)
        refine (OnlyChanges.busWrite hw ?_).trans (ih (fun x y hm => hps x y (by simp [hm])) h)
        exact covers_offset (qsurfOut g) (index_lt hx hy)

/-- writePlanes writes only bytes of the region's output range (R76, R144). -/
theorem writePlanes_only {k : Config} {g : Regs} {r : Region} {c y : Nat} {q : Planes} {t : Bool} {is : List Nat} {b b' : Bus}
    (hc : c < rowBytes r) (hy : y < r.h) (his : ∀ i ∈ is, i < 4) (h : writePlanes k g r c y q t is b = .ok b') :
    OnlyChanges (fun x => covers (packOut g r) x = true) b.mem b'.mem := by
  induction is generalizing b with
  | nil => cases h; exact OnlyChanges.refl _ _
  | cons i is ih =>
    simp only [writePlanes] at h
    split at h
    · cases h
    · next b1 hw =>
      refine (OnlyChanges.busWrite hw ?_).trans (ih (fun i hi => his i (by simp [hi])) h)
      have hi : i < 4 := his i (by simp)
      have hidx : y * rowBytes r + c < planeSize r := index_lt hc hy
      refine covers_offset (packOut g r) (n := i * planeSize r + y * rowBytes r + c) ?_
      show _ < 4 * planeSize r
      have : i * planeSize r ≤ 3 * planeSize r := Nat.mul_le_mul_right _ (by omega)
      omega

/-- The kept copy leaves memory alone. -/
@[simp] theorem keptPlanes_mem (q : Planes) (t : Bool) (b : Bus) : (keptPlanes q t b).2.mem = b.mem := by
  unfold keptPlanes; split <;> rfl

/-- PackRegion writes only bytes of the region's output range (R76, R144). -/
theorem packLoop_only {k : Config} {g : Regs} {r : Region} {ps : List (Nat × Nat)} {b b' : Bus} {pb : List Planes}
    (hps : ∀ c y, (c, y) ∈ ps → c < rowBytes r ∧ y < r.h) (h : packLoop k g r ps b = .ok (pb, b')) :
    OnlyChanges (fun x => covers (packOut g r) x = true) b.mem b'.mem := by
  induction ps generalizing b pb with
  | nil => cases h; exact OnlyChanges.refl _ _
  | cons p ps ih =>
    obtain ⟨c, y⟩ := p
    simp only [packLoop] at h
    split at h
    · cases h
    · split at h
      · cases h
      · next b1 hw =>
        split at h
        · cases h
        · next pb1 b2 hl =>
          cases h
          obtain ⟨hc, hy⟩ := hps c y (by simp)
          have := ih (fun c y hm => hps c y (by simp [hm])) hl
          rw [keptPlanes_mem] at this
          exact (writePlanes_only hc hy (by decide) hw).trans this

/-- PackRegion keeps one entry a byte column. -/
theorem packLoop_length {k : Config} {g : Regs} {r : Region} {ps : List (Nat × Nat)} {b b' : Bus} {pb : List Planes}
    (h : packLoop k g r ps b = .ok (pb, b')) : pb.length = ps.length := by
  induction ps generalizing b pb with
  | nil => cases h; rfl
  | cons p ps ih =>
    obtain ⟨c, y⟩ := p
    simp only [packLoop] at h
    split at h
    · cases h
    · split at h
      · cases h
      · split at h
        · cases h
        · next hl => cases h; simp [ih hl]

theorem packRegion_only {k : Config} {g : Regs} {r : Region} {b b' : Bus} {pb : List Planes}
    (h : packRegion k g r b = .ok (pb, b')) :
    OnlyChanges (fun x => covers (packOut g r) x = true) b.mem b'.mem :=
  packLoop_only (fun _ _ hm => mem_positions.mp hm) h

end Sys2Proof.Machine
end

