-- ==== Sys2Proof/Laws/Words.lean ====
section
/-! SUPPORT. Numbers behind the field extractions and concatenations: what each operand shape and result packing is as a number. -/

namespace Sys2Proof.Machine

/-- The low half of an operand word (shapes XY and WH). -/
theorem loHalf_eq (v : Word) : loHalf v = v.toNat % 65536 := by simp [loHalf]

/-- The high half of an operand word (shapes XY and WH). -/
theorem hiHalf_eq (v : Word) : hiHalf v = v.toNat / 65536 := by
  have := v.isLt
  simp [hiHalf, Nat.shiftRight_eq_div_pow]
  omega

theorem loHalf_lt (v : Word) : loHalf v < 65536 := by rw [loHalf_eq]; omega

theorem hiHalf_lt (v : Word) : hiHalf v < 65536 := by
  have := v.isLt
  rw [hiHalf_eq]; omega

/-- A palette index zero-extended to a register. -/
theorem toNat_index (i : BitVec 4) : (i.zeroExtend 32).toNat = i.toNat := by
  have := i.isLt
  rw [BitVec.toNat_setWidth]
  omega

/-- A palette index zero-extended to a byte (QSURF8). -/
theorem toNat_indexByte (i : BitVec 4) : (i.zeroExtend 8).toNat = i.toNat := by
  have := i.isLt
  rw [BitVec.toNat_setWidth]
  omega

/-- {hi[15:0], lo[15:0]} as a number. -/
theorem halves_toNat {hi lo : Nat} (hhi : hi < 65536) (hlo : lo < 65536) : (halves hi lo).toNat = hi * 65536 + lo := by
  show (BitVec.ofNat 16 hi ++ BitVec.ofNat 16 lo : BitVec (16 + 16)).toNat = _
  rw [BitVec.toNat_append, ← Nat.shiftLeft_add_eq_or_of_lt (BitVec.isLt _)]
  simp only [BitVec.toNat_ofNat, Nat.shiftLeft_eq]
  omega

/-- The alignment check is divisibility by 4 (R64). -/
theorem misaligned4_eq_false {a : Word} : misaligned4 a = false ↔ a.toNat % 4 = 0 := by
  simp only [misaligned4, bne_eq_false_iff_eq]
  rw [← BitVec.toNat_inj]
  simp

theorem misaligned4_eq_true {a : Word} : misaligned4 a = true ↔ a.toNat % 4 ≠ 0 := by
  rw [← Bool.not_eq_false, misaligned4_eq_false]

/-- The bits of four bytes side by side, the last one lowest. -/
theorem fourBytes_getLsbD (b3 b2 b1 b0 : Byte) (i : Nat) : (b3 ++ b2 ++ b1 ++ b0 : BitVec (8 + 8 + 8 + 8)).getLsbD i =
    if i < 8 then b0.getLsbD i else if i < 16 then b1.getLsbD (i - 8)
    else if i < 24 then b2.getLsbD (i - 16) else b3.getLsbD (i - 24) := by
  have h16 : i - 8 < 8 ↔ i < 16 := by omega
  have h24 : i - (8 + 8) < 8 ↔ i < 24 := by omega
  simp only [BitVec.getLsbD_append, Nat.sub_sub, h16, h24]

/-- The bits of a 4-byte read, least significant byte lowest (R62). -/
theorem read32_getLsbD (m : Memory) (a : Word) (i : Nat) : (read32 m a).getLsbD i =
    if i < 8 then (byteAt m a).getLsbD i else if i < 16 then (byteAt m (a + 1#32)).getLsbD (i - 8)
    else if i < 24 then (byteAt m (a + 2#32)).getLsbD (i - 16) else (byteAt m (a + 3#32)).getLsbD (i - 24) :=
  fourBytes_getLsbD _ _ _ _ i

/-- The bits of the four plane bytes in RES0 (R152). -/
theorem planesWord_getLsbD (q : Planes) (i : Nat) : (planesWord q).getLsbD i =
    if i < 8 then q.q0.getLsbD i else if i < 16 then q.q1.getLsbD (i - 8)
    else if i < 24 then q.q2.getLsbD (i - 16) else q.q3.getLsbD (i - 24) :=
  fourBytes_getLsbD _ _ _ _ i

/-- With no tainted byte no colour depends on a free value. -/
@[simp] theorem colourTainted_nil (m : Memory) (f : Nat) (a : Word) : colourTainted { mem := m, free := f, tainted := [] } a = false := rfl

end Sys2Proof.Machine
end

