-- ==== Sys2Proof/Laws/Commands.lean ====
section
/-! SUPPORT. What the loops of REMAP, QSURF8 and PackRegion do: on a bus without errors and free bytes, and where they fail. -/

namespace Sys2Proof.Machine

/-- A read that does not fail, with no free byte about, is the word and nothing is free. -/
theorem busRead_clean {k : Config} {a b} (he : memErrAt k a .read = false) (hb : b.tainted = []) :
   busRead k b a = .ok (read32 b.mem a, false) := by
  simp [busRead, he, colourTainted, hb]

/-- A write that does not fail, outside the input, with no free byte about, stores its value. -/
theorem busWrite_clean {k : Config} {input a v b} (he : memErrAt k a .write = false) (hc : covers input a = false) (hb :
    b.tainted = []) :
   busWrite k input a v false b = .ok { mem := Memory.write b.mem a.toNat v, free := b.free, tainted := [] } := by
  cases b; simp_all [busWrite]

/-- Clean bus (no failing read, no free byte): the entries are the nearest indices of the words read, in order,
    and no free value is used. -/
theorem remapEntries_ok (k : Config) (g : Regs) (n : Nat) : ∀ (j : Nat) (b : Bus), b.tainted = [] →
    (∀ i, i < n → memErrAt k (remapAddr g (j + i)) .read = false) →
    remapEntries k g j n b = .ok ((List.range n).map (fun i => (nearest k.palette (colourOf (read32 b.mem (remapAddr g (j +
        i))))).index), b.free) := by
  induction n with
  | zero => intro j b _ _; rfl
  | succ n ih =>
    intro j b hb h
    have h0 := h 0 (by omega)
    simp only [Nat.add_zero] at h0
    have ht : ∀ a, colourTainted b a = false := by intro a; simp [colourTainted, hb]
    have hrec := ih (j+1) b hb (fun i hi => by have := h (i+1) (by omega); rwa [show j + 1 + i = j + (i+1) by omega])
    simp only [remapEntries, busRead, h0, ht]
    simp only [Bool.false_eq_true, if_false]
    have : ({ mem := b.mem, free := b.free, tainted := b.tainted } : Bus) = b := rfl
    rw [this, hrec]
    simp only [remapIndex, Bool.false_eq_true, if_false, List.range_succ_eq_map, List.map_cons, List.map_map, Nat.add_zero]
    congr 3
    apply List.map_congr_left; intro i _; simp only [Function.comp]; rw [show j + 1 + i = j + (i+1) by omega]

/-- No position is visited twice. -/
theorem positions_nodup (w h : Nat) : (positions w h).Nodup := by
  unfold positions
  rw [List.nodup_flatMap]
  refine ⟨fun y _ => ?_, ?_⟩
  · exact List.nodup_range.map (fun a b hab => by simpa using hab)
  · refine List.Pairwise.imp ?_ (List.nodup_range (n := h))
    intro a b hab p hp hq
    simp at hp hq
    obtain ⟨x, _, rfl⟩ := hp
    obtain ⟨x', _, h2⟩ := hq
    simp at h2; exact hab h2.2.symm

/-- The four bytes of a surface pixel lie in the surface range (R63). -/
theorem surf_byte (g : Regs) {px py i} (hx : px < g.surfW.toNat) (hy : py < g.surfH.toNat) (hi : i < 4) :
    covers (surfaceRange g) (pixAddr g px py + BitVec.ofNat 32 i) = true := by
  have : pixAddr g px py + BitVec.ofNat 32 i = (surfaceRange g).start + BitVec.ofNat 32 (4 * (py * g.surfW.toNat + px) + i) :=
      by
    simp [pixAddr, surfaceRange, BitVec.add_assoc, BitVec.ofNat_add]
  rw [this]
  apply covers_offset
  have := index_lt hx hy
  show _ < 4 * (g.surfW.toNat * g.surfH.toNat)
  omega

/-- A pixel reads the same in two memories that agree on the surface. -/
theorem read32_congr {m m' : Memory} {g : Regs} (h : ∀ x, covers (surfaceRange g) x = true → byteAt m x = byteAt m' x) {px py}
   (hx : px < g.surfW.toNat) (hy : py < g.surfH.toNat) : read32 m (pixAddr g px py) = read32 m' (pixAddr g px py) := by
  unfold read32
  have h0 := h _ (surf_byte g hx hy (i := 0) (by omega))
  have h1 := h _ (surf_byte g hx hy (i := 1) (by omega))
  have h2 := h _ (surf_byte g hx hy (i := 2) (by omega))
  have h3 := h _ (surf_byte g hx hy (i := 3) (by omega))
  simp only [BitVec.add_zero] at h0
  rw [h1, h2, h3, h0]

/-- Offsets below 2^32 from one base give different addresses. -/
theorem add_ofNat_inj {a b : Nat} (ha : a < 2^32) (hb : b < 2^32) (x : Word) (h : x + BitVec.ofNat 32 a = x + BitVec.ofNat 32
    b) : a = b := by
  have h2 : BitVec.ofNat 32 a = BitVec.ofNat 32 b := by
    have := congrArg (· - x) h
    simpa [BitVec.add_comm x, BitVec.add_sub_cancel] using this
  have := congrArg BitVec.toNat h2
  simp at this; omega

/-- Row-major indices determine row and column. -/
theorem index_inj {w x y x' y' : Nat} (hx : x < w) (hx' : x' < w) (h : y * w + x = y' * w + x') : x = x' ∧ y = y' := by
  have h1 := congrArg (· % w) h
  have h2 := congrArg (· / w) h
  simp only [Nat.add_comm (_ * w), Nat.add_mul_mod_self_right, Nat.mod_eq_of_lt hx, Nat.mod_eq_of_lt hx'] at h1
  simp only [Nat.add_comm (_ * w), Nat.add_mul_div_right _ _ (Nat.zero_lt_of_lt hx), Nat.div_eq_of_lt hx,
      Nat.div_eq_of_lt hx'] at h2
  omega

/-- The number of pixels of a surface fits 32 bits. -/
theorem size_lt (a b : BitVec 16) : a.toNat * b.toNat < 2^32 := by
  have h1 := a.isLt; have h2 := b.isLt
  have : a.toNat * b.toNat ≤ 65535 * 65535 := Nat.mul_le_mul (by omega) (by omega)
  omega

/-- Different pixels have different output bytes (R114). -/
theorem qsurfAddr_inj (g : Regs) {px py px' py'} (hx : px < g.surfW.toNat) (hy : py < g.surfH.toNat) (hx' : px' <
    g.surfW.toNat) (hy' : py' < g.surfH.toNat)
  (h : qsurfAddr g px py = qsurfAddr g px' py') : (px, py) = (px', py') := by
  have h1 := index_lt hx hy; have h2 := index_lt hx' hy'
  have h3 := size_lt g.surfW g.surfH
  have := index_inj hx hx' (add_ofNat_inj (by omega) (by omega) _ h)
  simp [this]

/-- QSURF8 on a clean bus whose output lies outside the surface: each listed pixel gets its index, no other byte changes. -/
theorem qsurfLoop_ok (k : Config) (g : Regs) (m0 : Memory)
    (hre : ∀ px py, px < g.surfW.toNat → py < g.surfH.toNat → memErrAt k (pixAddr g px py) .read = false)
    (hwe : ∀ n, n < g.surfW.toNat * g.surfH.toNat → memErrAt k (g.outBase + BitVec.ofNat 32 n) .write = false ∧
      covers (surfaceRange g) (g.outBase + BitVec.ofNat 32 n) = false)
    (ps : List (Nat × Nat)) (b : Bus) (hnd : ps.Nodup) (hps : ∀ x y, (x, y) ∈ ps → x < g.surfW.toNat ∧ y < g.surfH.toNat)
    (hb : b.tainted = []) (hwf : Memory.wf b.mem = true)
    (hm : ∀ x, covers (surfaceRange g) x = true → byteAt b.mem x = byteAt m0 x) :
    ∃ b', qsurfLoop k g ps b = .ok b' ∧ b'.free = b.free ∧
      (∀ x y, (x, y) ∈ ps →
        byteAt b'.mem (qsurfAddr g x y) = (quantize k.palette (read32 m0 (pixAddr g x y)) x y).zeroExtend 8) ∧
      (∀ a, (∀ x y, (x, y) ∈ ps → a ≠ qsurfAddr g x y) → byteAt b'.mem a = byteAt b.mem a) := by
  induction ps generalizing b with
  | nil => exact ⟨b, rfl, rfl, by simp, by simp⟩
  | cons p ps ih =>
    obtain ⟨px, py⟩ := p
    obtain ⟨hx, hy⟩ := hps px py (by simp)
    obtain ⟨he, hc⟩ := hwe _ (index_lt hx hy)
    rw [List.nodup_cons] at hnd
    let v : Byte := (quantize k.palette (read32 b.mem (pixAddr g px py)) px py).zeroExtend 8
    have hr := busRead_clean (b := b) (hre px py hx hy) hb
    have hw : busWrite k (surfaceRange g) (qsurfAddr g px py) v false b = _ := busWrite_clean he hc hb
    have hsur : ∀ x, covers (surfaceRange g) x = true →
        byteAt (Memory.write b.mem (qsurfAddr g px py).toNat v) x = byteAt m0 x := by
      intro x hx'
      rw [byteAt_write_other, hm x hx']
      intro hxe
      rw [hxe, qsurfAddr, hc] at hx'
      exact absurd hx' (by decide)
    obtain ⟨b', h1, h2, h3, h4⟩ :=
      ih ⟨_, b.free, []⟩ hnd.2 (fun x y hxy => hps x y (by simp [hxy])) rfl (Memory.wf_write hwf) hsur
    refine ⟨b', ?_, h2, ?_, ?_⟩
    · simp only [qsurfLoop, hr]
      rw [hw]
      exact h1
    · intro x y hxy
      simp only [List.mem_cons, Prod.mk.injEq] at hxy
      rcases hxy with ⟨rfl, rfl⟩ | hxy
      · rw [h4]
        · rw [byteAt_write_same hwf]
          simp only [v, read32_congr hm hx hy]
        · intro x' y' hm' heq
          obtain ⟨hx', hy'⟩ := hps x' y' (by simp [hm'])
          exact hnd.1 (qsurfAddr_inj g hx hy hx' hy' heq ▸ hm')
      · exact h3 x y hxy
    · intro a ha
      rw [h4 a fun x y hxy => ha x y (by simp [hxy])]
      exact byteAt_write_other (ha px py (by simp))

/-- Bits of a pair table entry (R33). -/
theorem pl_bit (p0 p1 : BitVec 4) (k : Nat) (hk : k < 4) (i : Nat) :
    (pl (p0 ++ p1) k).getLsbD i = if i = 0 then p1.getLsbD k else if i = 1 then p0.getLsbD k else false := by
  have : ∀ p0 p1 : BitVec 4, ∀ k < 4, ∀ i < 8,
      (pl (p0 ++ p1) k).getLsbD i = if i = 0 then p1.getLsbD k else if i = 1 then p0.getLsbD k else false := by decide +kernel
  by_cases hi : i < 8
  · exact this p0 p1 k hk i hi
  · rw [BitVec.getLsbD_of_ge _ _ (by omega), if_neg (by omega), if_neg (by omega)]

/-- Bit 7 - i of a plane byte is that bit of pixel i, for eight pixels numbered by f (R142). -/
theorem packPairs_bit (f : Nat → BitVec 4) (k : Nat) (hk : k < 4) {i : Nat} (hi : i < 8) :
    (packPairs k 0 ((List.range 8).map f)).getLsbD (7 - i) = (f i).getLsbD k := by
  simp only [List.range_succ_eq_map, List.range_zero, List.map_cons, List.map_nil, packPairs, BitVec.getLsbD_or,
    BitVec.getLsbD_shiftLeft, pl_bit _ _ k hk]
  interval_cases i <;> simp

/-- Plane k of pack8. -/
theorem planeByte_pack8 (p : List (BitVec 4)) {k} (hk : k < 4) : planeByte (pack8 p) k = packPairs k 0 p := by
  interval_cases k <;> rfl

/-- The bit law of R142 for pack8. -/
theorem pack8_bit (f : Nat → BitVec 4) {k i : Nat} (hk : k < 4) (hi : i < 8) :
    (planeByte (pack8 ((List.range 8).map f)) k).getLsbD (7 - i) = (f i).getLsbD k := by
  rw [planeByte_pack8 _ hk, packPairs_bit f k hk hi]

/-- Eight pixels read on a clean bus. -/
theorem readPixels_ok (k : Config) (g : Regs) (b : Bus) (py : Nat) (hb : b.tainted = []) : ∀ (n px : Nat),
   (∀ i, i < n → memErrAt k (pixAddr g (px + i) py) .read = false) →
   readPixels k g b py px n = .ok ((List.range n).map (fun i => quantize k.palette (read32 b.mem (pixAddr g (px+i) py)) (px +
       i) py), false) := by
  intro n
  induction n with
  | zero => intro px _; rfl
  | succ n ih =>
    intro px h
    have h0 := h 0 (by omega)
    simp only [Nat.add_zero] at h0
    have := ih (px+1) (fun i hi => by have := h (i+1) (by omega); rwa [show px + 1 + i = px + (i+1) by omega])
    have hl : (List.range n).map (fun i => quantize k.palette (read32 b.mem (pixAddr g (px+1+i) py)) (px+1 + i) py) =
       (List.range n).map ((fun i => quantize k.palette (read32 b.mem (pixAddr g (px+i) py)) (px + i) py) ∘ Nat.succ) := by
      apply List.map_congr_left; intro i _; simp only [Function.comp]; rw [show px + 1 + i = px + Nat.succ i by omega]
    rw [readPixels, busRead_clean h0 hb, this, hl, List.range_succ_eq_map, List.map_cons, List.map_map]
    rfl

/-- A region of whole columns that lies in the surface: what AlignRegion gives (R143). -/
structure RegionIn (g : Regs) (r : Region) : Prop where
  x8 : r.x % 8 = 0
  w8 : r.w % 8 = 0
  hw : r.x + r.w ≤ g.surfW.toNat
  hh : r.y + r.h ≤ g.surfH.toNat

/-- The four plane buffers of a region in the surface fit 32 bits. -/
theorem planeSize_lt {g : Regs} {r : Region} (h : RegionIn g r) : 4 * planeSize r < 2^32 := by
  have h1 := g.surfW.isLt; have h2 := g.surfH.isLt
  have h3 := h.hw; have h4 := h.hh
  unfold planeSize rowBytes
  have : r.w / 8 * r.h ≤ 8191 * 65535 := Nat.mul_le_mul (by omega) (by omega)
  omega

/-- The index of a packed byte lies in the output. -/
theorem pidx_lt {r : Region} {k c y} (hk : k < 4) (hc : c < rowBytes r) (hy : y < r.h) : k * planeSize r + y * rowBytes r + c <
    4 * planeSize r := by
  have hidx : y * rowBytes r + c < planeSize r := index_lt hc hy
  have : k * planeSize r ≤ 3 * planeSize r := Nat.mul_le_mul_right _ (by omega)
  omega

/-- Different packed bytes have different addresses (R144). -/
theorem packAddr_inj {g : Regs} {r : Region} (hin : RegionIn g r) {k c y k' c' y'} (hk : k < 4) (hc : c < rowBytes r) (hy : y <
    r.h) (hk' : k' < 4) (hc' : c' < rowBytes r) (hy' : y' < r.h)
   (h : packAddr g r k c y = packAddr g r k' c' y') : k = k' ∧ c = c' ∧ y = y' := by
  have h1 := pidx_lt hk hc hy; have h2 := pidx_lt hk' hc' hy'
  have h3 := planeSize_lt hin
  have h4 := add_ofNat_inj (by omega) (by omega) _ h
  have i1 : y * rowBytes r + c < planeSize r := index_lt hc hy
  have i2 : y' * rowBytes r + c' < planeSize r := index_lt hc' hy'
  have h5 := index_inj i1 i2 (by omega : k * planeSize r + (y * rowBytes r + c) = k' * planeSize r + (y' * rowBytes r + c'))
  have h6 := index_inj hc hc' h5.1
  exact ⟨h5.2, h6.1, h6.2⟩

/-- The four plane bytes of one column on a clean bus. -/
theorem writePlanes_ok (k : Config) (g : Regs) (r : Region) (hin : RegionIn g r)
    (hwe : ∀ n, n < 4 * planeSize r → memErrAt k (g.outBase + BitVec.ofNat 32 n) .write = false ∧
      covers (surfaceRange g) (g.outBase + BitVec.ofNat 32 n) = false)
    {c y : Nat} (hc : c < rowBytes r) (hy : y < r.h) (q : Planes) (is : List Nat) (b : Bus) (hnd : is.Nodup)
    (h4 : ∀ i ∈ is, i < 4) (hb : b.tainted = []) (hwf : Memory.wf b.mem = true) :
    ∃ b', writePlanes k g r c y q false is b = .ok b' ∧ b'.free = b.free ∧ b'.tainted = [] ∧ Memory.wf b'.mem = true ∧
      (∀ i ∈ is, byteAt b'.mem (packAddr g r i c y) = planeByte q i) ∧
      (∀ a, (∀ i ∈ is, a ≠ packAddr g r i c y) → byteAt b'.mem a = byteAt b.mem a) := by
  induction is generalizing b with
  | nil => exact ⟨b, rfl, rfl, hb, hwf, by simp, by simp⟩
  | cons i is ih =>
    have hi : i < 4 := h4 i (by simp)
    obtain ⟨he, hcv⟩ := hwe _ (pidx_lt hi hc hy)
    rw [List.nodup_cons] at hnd
    have hw : busWrite k (surfaceRange g) (packAddr g r i c y) (planeByte q i) false b = _ := busWrite_clean he hcv hb
    obtain ⟨b', h1, h2, h3, h5, h6, h7⟩ :=
      ih ⟨_, b.free, []⟩ hnd.2 (fun j hj => h4 j (by simp [hj])) rfl (Memory.wf_write hwf)
    refine ⟨b', ?_, h2, h3, h5, ?_, ?_⟩
    · rw [writePlanes, hw]
      exact h1
    · intro j hj
      simp only [List.mem_cons] at hj
      rcases hj with rfl | hj
      · rw [h7]
        · exact byteAt_write_same hwf
        · intro j' hj' heq
          exact hnd.1 ((packAddr_inj hin hi hc hy (h4 j' (by simp [hj'])) hc hy heq).1 ▸ hj')
      · exact h6 j hj
    · intro a ha
      rw [h7 a fun j hj => ha j (by simp [hj])]
      exact byteAt_write_other (ha i (by simp))

/-- The dithered indices of the eight pixels of one column of the region. -/
def colIdx (k : Config) (g : Regs) (r : Region) (m : Memory) (c y : Nat) : List (BitVec 4) :=
  (List.range 8).map (fun i => quantize k.palette (read32 m (pixAddr g (r.x + 8 * c + i) (r.y + y))) (r.x + 8 * c + i) (r.y +
      y))

/-- PackRegion on a clean bus whose output lies outside the surface: the packed bytes, in memory and as returned,
    and no other byte. -/
theorem packLoop_ok (k : Config) (g : Regs) (r : Region) (m0 : Memory) (hin : RegionIn g r)
  (hre : ∀ px py, r.x ≤ px → px < r.x + r.w → r.y ≤ py → py < r.y + r.h → memErrAt k (pixAddr g px py) .read = false)
  (hwe : ∀ n, n < 4 * planeSize r → memErrAt k (g.outBase + BitVec.ofNat 32 n) .write = false ∧
      covers (surfaceRange g) (g.outBase + BitVec.ofNat 32 n) = false) :
  ∀ (ps : List (Nat × Nat)) (b : Bus), ps.Nodup → (∀ x y, (x, y) ∈ ps → x < rowBytes r ∧ y < r.h) → b.tainted = [] →
      Memory.wf b.mem = true →
   (∀ x, covers (surfaceRange g) x = true → byteAt b.mem x = byteAt m0 x) →
   ∃ pb b', packLoop k g r ps b = .ok (pb, b') ∧ b'.free = b.free ∧ pb = ps.map (fun p => pack8 (colIdx k g r m0 p.1 p.2)) ∧
     (∀ i c y, i < 4 → (c, y) ∈ ps → byteAt b'.mem (packAddr g r i c y) = planeByte (pack8 (colIdx k g r m0 c y)) i) ∧
     (∀ a, (∀ i c y, i < 4 → (c, y) ∈ ps → a ≠ packAddr g r i c y) → byteAt b'.mem a = byteAt b.mem a) := by
  intro ps
  induction ps with
  | nil => intro b _ _ _ _ _; exact ⟨[], b, rfl, rfl, rfl, by simp, by simp⟩
  | cons p ps ih =>
    obtain ⟨c, y⟩ := p
    intro b hnd hps hb hwf hm
    obtain ⟨hc, hy⟩ := hps c y (by simp)
    rw [List.nodup_cons] at hnd
    have hw8 : 8 * rowBytes r = r.w := by have := hin.w8; unfold rowBytes; omega
    have hpx : ∀ i, i < 8 → r.x + 8 * c + i < r.x + r.w := by intro i hi; omega
    have hrp := readPixels_ok k g b (r.y + y) hb 8 (r.x + 8 * c)
      (fun i hi => hre _ _ (by omega) (hpx i hi) (by omega) (by omega))
    have hcol : (List.range 8).map
        (fun i => quantize k.palette (read32 b.mem (pixAddr g (r.x + 8 * c + i) (r.y + y))) (r.x + 8 * c + i) (r.y + y)) =
          colIdx k g r m0 c y := by
      apply List.map_congr_left
      intro i hi
      rw [read32_congr hm (by have := hpx i (by simpa using hi); have := hin.hw; omega) (by have := hin.hh; omega)]
    rw [hcol] at hrp
    obtain ⟨b1, w1, w2, w3, w4, w5, w6⟩ :=
      writePlanes_ok k g r hin hwe hc hy (pack8 (colIdx k g r m0 c y)) [0, 1, 2, 3] b (by decide) (by decide) hb hwf
    have hsur : ∀ x, covers (surfaceRange g) x = true → byteAt b1.mem x = byteAt m0 x := by
      intro x hx
      rw [w6, hm x hx]
      intro i hi hxe
      have hi4 : i < 4 := by simp at hi; omega
      have := (hwe _ (pidx_lt hi4 hc hy)).2
      rw [hxe] at hx; unfold packAddr at hx; rw [this] at hx; exact absurd hx (by decide)
    obtain ⟨pb, b', h1, h2, h3, h4, h5⟩ := ih b1 hnd.2 (fun x y h => hps x y (by simp [h])) w3 w4 hsur
    refine ⟨pack8 (colIdx k g r m0 c y) :: pb, b', ?_, by rw [h2, w2], by simp [h3], ?_, ?_⟩
    · simp only [packLoop, hrp, w1, keptPlanes, Bool.false_eq_true, if_false, h1]
    · intro i c' y' hi hcy
      simp only [List.mem_cons, Prod.mk.injEq] at hcy
      rcases hcy with ⟨rfl, rfl⟩ | hcy
      · rw [h5, w5 i (by simp; omega)]
        intro i' c2 y2 hi' hm' heq
        obtain ⟨hc2, hy2⟩ := hps c2 y2 (by simp [hm'])
        have := packAddr_inj hin hi hc hy hi' hc2 hy2 heq
        exact hnd.1 (by rw [this.2.1, this.2.2]; exact hm')
      · exact h4 i c' y' hi hcy
    · intro a ha
      rw [h5 a (fun i c' y' hi h => ha i c' y' hi (by simp [h]))]
      exact w6 a (fun i hi => ha i c y (by simp at hi; omega) (by simp))

/-! ### Where the loops stop -/

/-- An outcome that makes the accesses in order: it reports the first that fails, and is a success when none fails (R238). -/
def StopsAtFirst {α : Type} (k : Config) (as : List Access) (o : Except Word α) : Prop :=
  (∀ p, firstFailing k as = some p → o = .error p.1) ∧ (firstFailing k as = none → ∃ r, o = .ok r)

theorem StopsAtFirst.nil {α : Type} (k : Config) (r : α) : StopsAtFirst k [] (.ok r) :=
  ⟨fun _ h => (by cases h), fun _ => ⟨r, rfl⟩⟩

/-- An outcome and one that goes on from its success make the accesses of both. -/
theorem StopsAtFirst.append {α β : Type} {k : Config} {as bs : List Access} {o : Except Word α} {o' : Except Word β}
    (h : StopsAtFirst k as o) (he : ∀ a, o = .error a → o' = .error a) (hs : ∀ r, o = .ok r → StopsAtFirst k bs o') :
    StopsAtFirst k (as ++ bs) o' := by
  simp only [StopsAtFirst, firstFailing, List.find?_append] at h hs ⊢
  cases hf : as.find? fun p => memErrAt k p.1 p.2 with
  | some p => exact ⟨fun q hq => he _ (by cases hq; exact h.1 p hf), fun hn => by cases hn⟩
  | none =>
    obtain ⟨r, hr⟩ := h.2 hf
    exact hs r hr

theorem busRead_stops (k : Config) (b : Bus) (a : Word) : StopsAtFirst k [(a, .read)] (busRead k b a) := by
  unfold StopsAtFirst firstFailing busRead
  cases h : memErrAt k a .read <;> simp [h]

theorem busWrite_stops (k : Config) (input : Range) (a : Word) (v : Byte) (d : Bool) (b : Bus) :
    StopsAtFirst k [(a, .write)] (busWrite k input a v d b) := by
  unfold StopsAtFirst firstFailing busWrite
  cases h : memErrAt k a .write with
  | true => simp [h]
  | false => rw [if_neg (by decide)]; split <;> simp [h]

/-- REMAP's loop stops at the first failing read of entries j, j + 1, … (R113). -/
theorem remapEntries_stops (k : Config) (g : Regs) (n : Nat) : ∀ (j : Nat) (b : Bus),
    StopsAtFirst k ((List.range n).map fun i => (remapAddr g (j + i), .read)) (remapEntries k g j n b) := by
  induction n with
  | zero => exact fun j b => StopsAtFirst.nil k _
  | succ n ih =>
    intro j b
    have hl : ((List.range (n + 1)).map fun i => (remapAddr g (j + i), Dir.read)) =
        [(remapAddr g j, Dir.read)] ++ (List.range n).map fun i => (remapAddr g (j + 1 + i), Dir.read) := by
      simp [List.range_succ_eq_map, Function.comp_def, Nat.add_assoc, Nat.add_comm 1]
    rw [hl]
    refine (busRead_stops k b (remapAddr g j)).append (fun a h => ?_) fun r h => ?_
    · rw [remapEntries, h]
    · obtain ⟨w, t⟩ := r
      have := ih (j + 1) { b with free := if t then b.free + 1 else b.free }
      rw [← List.append_nil (List.map _ _)]
      refine this.append (fun a h' => ?_) fun r h' => ?_
      · simp only [remapEntries, h, h']
      · simp only [remapEntries, h, h']; exact StopsAtFirst.nil k _

/-- QSURF8's loop stops at the first failing access of the listed pixels (R114). -/
theorem qsurfLoop_stops (k : Config) (g : Regs) (ps : List (Nat × Nat)) : ∀ b : Bus,
    StopsAtFirst k (ps.flatMap fun p => [(pixAddr g p.1 p.2, .read), (qsurfAddr g p.1 p.2, .write)]) (qsurfLoop k g ps b) := by
  induction ps with
  | nil => exact fun b => StopsAtFirst.nil k _
  | cons p ps ih =>
    intro b
    rw [List.flatMap_cons, ← List.singleton_append, List.append_assoc]
    refine (busRead_stops k b _).append (fun a h => ?_) fun r h => ?_
    · simp only [qsurfLoop, h]
    · obtain ⟨w, t⟩ := r
      refine (busWrite_stops k (surfaceRange g) _ ((quantize k.palette w p.1 p.2).zeroExtend 8) t b).append (fun a h' => ?_)
        fun b' h' => ?_
      · simp only [qsurfLoop, h, h']
      · simp only [qsurfLoop, h, h']; exact ih b'

/-- Reading a run of pixels stops at the first failing read (R144). -/
theorem readPixels_stops (k : Config) (g : Regs) (b : Bus) (py n : Nat) : ∀ px : Nat,
    StopsAtFirst k ((List.range n).map fun i => (pixAddr g (px + i) py, .read)) (readPixels k g b py px n) := by
  induction n with
  | zero => exact fun px => StopsAtFirst.nil k _
  | succ n ih =>
    intro px
    have hl : ((List.range (n + 1)).map fun i => (pixAddr g (px + i) py, Dir.read)) =
        [(pixAddr g px py, Dir.read)] ++ (List.range n).map fun i => (pixAddr g (px + 1 + i) py, Dir.read) := by
      simp [List.range_succ_eq_map, Function.comp_def, Nat.add_assoc, Nat.add_comm 1]
    rw [hl]
    refine (busRead_stops k b _).append (fun a h => ?_) fun r h => ?_
    · rw [readPixels, h]
    · obtain ⟨w, t⟩ := r
      rw [← List.append_nil (List.map _ _)]
      refine (ih (px + 1)).append (fun a h' => ?_) fun r h' => ?_
      · simp only [readPixels, h, h']
      · simp only [readPixels, h, h']; exact StopsAtFirst.nil k _

/-- Writing plane bytes stops at the first failing write (R144). -/
theorem writePlanes_stops (k : Config) (g : Regs) (r : Region) (c y : Nat) (q : Planes) (t : Bool) (is : List Nat) :
    ∀ b : Bus, StopsAtFirst k (is.map fun i => (packAddr g r i c y, .write)) (writePlanes k g r c y q t is b) := by
  induction is with
  | nil => exact fun b => StopsAtFirst.nil k _
  | cons i is ih =>
    intro b
    rw [List.map_cons, ← List.singleton_append]
    refine (busWrite_stops k (surfaceRange g) _ (planeByte q i) t b).append (fun a h => ?_) fun b' h => ?_
    · simp only [writePlanes, h]
    · simp only [writePlanes, h]; exact ih b'

/-- PackRegion's loop stops at the first failing access of the listed byte columns (R144). -/
theorem packLoop_stops (k : Config) (g : Regs) (r : Region) (ps : List (Nat × Nat)) : ∀ b : Bus,
    StopsAtFirst k (ps.flatMap fun p => ((List.range 8).map fun i => (pixAddr g (r.x + 8 * p.1 + i) (r.y + p.2), .read)) ++
      (List.range 4).map fun i => (packAddr g r i p.1 p.2, .write)) (packLoop k g r ps b) := by
  induction ps with
  | nil => exact fun b => StopsAtFirst.nil k _
  | cons p ps ih =>
    intro b
    obtain ⟨c, y⟩ := p
    rw [List.flatMap_cons, List.append_assoc]
    refine (readPixels_stops k g b (r.y + y) 8 (r.x + 8 * c)).append (fun a h => ?_) fun px h => ?_
    · simp only [packLoop, h]
    · obtain ⟨px, t⟩ := px
      refine (writePlanes_stops k g r c y (pack8 px) t [0, 1, 2, 3] b).append (fun a h' => ?_) fun b1 h' => ?_
      · simp only [packLoop, h, h']
      · rw [← List.append_nil (List.flatMap _ _)]
        refine (ih (keptPlanes (pack8 px) t b1).2).append (fun a h2 => ?_) fun x h2 => ?_
        · simp only [packLoop, h, h', h2]
        · simp only [packLoop, h, h', h2]; exact StopsAtFirst.nil k _

/-- The accesses R144 lists for a region are those of its byte columns in loop order. -/
theorem packAccesses_eq (g : Regs) (r : Region) : packAccesses g r =
    (positions (rowBytes r) r.h).flatMap fun p => ((List.range 8).map fun i => (pixAddr g (r.x + 8 * p.1 + i) (r.y + p.2), .read)) ++
      (List.range 4).map fun i => (packAddr g r i p.1 p.2, .write) := by
  simp [packAccesses, positions, List.flatMap_assoc, List.flatMap_map, packAddr, planeSize, rowBytes]

/-- The accesses R114 lists are those of the surface's pixels in loop order. -/
theorem qsurfAccesses_eq (g : Regs) : qsurfAccesses g = (positions g.surfW.toNat g.surfH.toNat).flatMap fun p =>
    [(pixAddr g p.1 p.2, .read), (qsurfAddr g p.1 p.2, .write)] := by
  simp [qsurfAccesses, positions, List.flatMap_assoc, List.flatMap_map, qsurfAddr]

/-- The dependences PackRegion's results are recorded with, spelled out. -/
theorem columnUses_eq (g : Regs) (r : Region) (f : Nat → Nat → Nat → Result) : columnUses g r f = planeDependences g r f := by
  simp [columnUses, planeDependences, positions, List.flatMap_assoc, List.flatMap_map, columnInputs, colourBytes, pixelColour,
    pixAddr, rowBytes]

/-- Those of QSURF8's bytes, spelled out. -/
theorem qsurfUses_eq (g : Regs) : qsurfUses g = (List.range g.surfH.toNat).flatMap fun y => (List.range g.surfW.toNat).map fun x =>
    { inputs := [pixelColour g x y], result := .byte (g.outBase + BitVec.ofNat 32 (y * g.surfW.toNat + x)) } := by
  simp [qsurfUses, positions, List.map_flatMap, Function.comp_def, colourBytes, pixelColour, pixAddr, qsurfAddr]

/-- Everything packThen can do: nothing to pack, Misaligned, BusError at the first access that fails, or the region packed. -/
theorem packThen_cases (s : State) (r : Region) (fin) :
   (r.w = 0 ∧ s.packThen r fin = fin [] s) ∨
   (r.w ≠ 0 ∧ misaligned4 s.ops.surfBase = true ∧ s.packThen r fin = s.raise .misaligned s.ops.surfBase) ∨
   (r.w ≠ 0 ∧ misaligned4 s.ops.surfBase = false ∧ ∃ p, firstFailing s.cfg (packAccesses s.ops r) = some p ∧
     s.packThen r fin = s.raiseBusError (packOut s.ops r) p.1) ∨
   (r.w ≠ 0 ∧ misaligned4 s.ops.surfBase = false ∧ firstFailing s.cfg (packAccesses s.ops r) = none ∧
     ∃ pb b, packRegion s.cfg s.ops r s.bus = .ok (pb, b) ∧
       s.packThen r fin = fin pb ((s.putBus b).addUses (packUses s.ops r))) := by
  have hstop : StopsAtFirst s.cfg (packAccesses s.ops r) (packRegion s.cfg s.ops r s.bus) :=
    packAccesses_eq s.ops r ▸ packLoop_stops s.cfg s.ops r (positions (rowBytes r) r.h) s.bus
  by_cases hw : r.w = 0
  · exact Or.inl ⟨hw, by rw [State.packThen, if_pos hw]⟩
  · cases hm : misaligned4 s.ops.surfBase with
    | true => exact Or.inr (Or.inl ⟨hw, rfl, by rw [State.packThen, if_neg hw, if_pos hm]⟩)
    | false =>
      refine Or.inr (Or.inr ?_)
      cases hf : firstFailing s.cfg (packAccesses s.ops r) with
      | some p => exact Or.inl ⟨hw, rfl, p, rfl, by simp [State.packThen, hw, hm, hstop.1 p hf]⟩
      | none =>
        obtain ⟨⟨pb, b⟩, h⟩ := hstop.2 hf
        exact Or.inr ⟨hw, rfl, rfl, pb, b, h, by simp [State.packThen, hw, hm, h]⟩

end Sys2Proof.Machine
end

