-- ==== Sys2Proof/Laws/FreeBytes.lean ====
section
/-! SUPPORT. What the loops of REMAP, QSURF8 and PackRegion do on any bus: which results are free values because the host raced
bytes (R71 c) or the output overlaps the surface (R76), and that every other one is that of the memory the command found. -/

namespace Sys2Proof.Machine

/-! ### One access -/

/-- The byte at a holds one of the free values numbered lo to hi − 1. -/
def HoldsFree (m : Memory) (lo hi : Nat) (a : Word) : Prop := ∃ n, lo ≤ n ∧ n < hi ∧ byteAt m a = Config.freeByte n

theorem HoldsFree.mono {m m' : Memory} {lo hi lo' hi' : Nat} {a : Word} (h : HoldsFree m lo hi a) (hl : lo' ≤ lo) (hh : hi ≤ hi')
    (hm : byteAt m' a = byteAt m a) : HoldsFree m' lo' hi' a := by
  obtain ⟨n, h1, h2, h3⟩ := h
  exact ⟨n, by omega, by omega, hm.trans h3⟩

/-- A bus on which a command has written the bytes satisfying D, from memory m with the bytes of R raced: tainted are the raced bytes
and, of the surface's, the written ones; no other surface byte has changed. -/
structure Going (g : Regs) (m : Memory) (R : List Word) (D : Word → Prop) (b : Bus) : Prop where
  wf : Memory.wf b.mem = true
  raced : ∀ x ∈ R, x ∈ b.tainted
  only : ∀ x ∈ b.tainted, x ∈ R ∨ D x
  seen : ∀ x, covers (surfaceRange g) x = true → D x → x ∈ b.tainted
  same : ∀ x, covers (surfaceRange g) x = true → x ∉ b.tainted → byteAt b.mem x = byteAt m x

theorem Going.congr {g : Regs} {m : Memory} {R : List Word} {D D' : Word → Prop} {b : Bus} (h : Going g m R D b)
    (hD : ∀ x, D x ↔ D' x) : Going g m R D' b :=
  (funext fun x => propext (hD x) : D = D') ▸ h

/-- A command starts with nothing written. -/
theorem Going.start {g : Regs} {s : State} (hwf : Memory.wf s.mem = true) : Going g s.mem s.raced (fun _ => False) s.bus :=
  ⟨hwf, fun _ h => h, fun _ h => Or.inl h, fun _ _ h => h.elim, fun _ _ _ => rfl⟩

/-- Counting free values changes nothing else. -/
theorem Going.count {g : Regs} {m : Memory} {R : List Word} {D : Word → Prop} {b : Bus} (h : Going g m R D b) (f : Nat) :
    Going g m R D { b with free := f } := ⟨h.wf, h.raced, h.only, h.seen, h.same⟩

/-- A write to a byte not yet written that succeeds: the byte is free when its value depends on a free one, it was raced or it lies
in the surface; else it is the value. -/
theorem Going.write {g : Regs} {m : Memory} {R : List Word} {D : Word → Prop} {b b' : Bus} {k : Config} {a : Word} {v : Byte}
    {d : Bool} (h : Going g m R D b) (hD : ¬ D a) (hw : busWrite k (surfaceRange g) a v d b = .ok b') :
    Going g m R (fun x => x = a ∨ D x) b' ∧ b.free ≤ b'.free ∧ (∀ x, x ≠ a → byteAt b'.mem x = byteAt b.mem x) ∧
      (d = true ∨ a ∈ R ∨ covers (surfaceRange g) a = true → HoldsFree b'.mem b.free b'.free a) ∧
      (¬ (d = true ∨ a ∈ R ∨ covers (surfaceRange g) a = true) → byteAt b'.mem a = v) := by
  have ht : a ∈ b.tainted ↔ a ∈ R := ⟨fun ha => (h.only a ha).resolve_right hD, h.raced a⟩
  have hc : (d || covers (surfaceRange g) a || b.tainted.contains a) = true ↔
      (d = true ∨ a ∈ R ∨ covers (surfaceRange g) a = true) := by
    simp only [Bool.or_eq_true, List.contains_iff_mem, ht]; tauto
  unfold busWrite at hw
  split at hw
  · cases hw
  split at hw
  · next hopen =>
    cases hw
    refine ⟨⟨Memory.wf_write h.wf, fun x hx => List.mem_cons_of_mem _ (h.raced x hx), fun x hx => ?_, fun x hs hx => ?_,
      fun x hs hx => ?_⟩, by simp, fun x hx => byteAt_write_other hx,
      fun _ => ⟨b.free, Nat.le_refl _, Nat.lt_succ_self _, byteAt_write_same h.wf⟩, fun hn => absurd (hc.mp hopen) hn⟩
    · rcases List.mem_cons.mp hx with rfl | hx
      · exact Or.inr (Or.inl rfl)
      · exact (h.only x hx).imp_right Or.inr
    · rcases hx with rfl | hx
      · exact List.mem_cons_self
      · exact List.mem_cons_of_mem _ (h.seen x hs hx)
    · simp only [List.mem_cons, not_or] at hx
      exact (byteAt_write_other hx.1).trans (h.same x hs hx.2)
  · next hopen =>
    cases hw
    have hn := mt hc.mpr hopen
    have hs : covers (surfaceRange g) a ≠ true := fun e => hn (Or.inr (Or.inr e))
    refine ⟨⟨Memory.wf_write h.wf, h.raced, fun x hx => (h.only x hx).imp_right Or.inr, fun x hx hd => ?_, fun x hx hnx => ?_⟩,
      Nat.le_refl _, fun x hx => byteAt_write_other hx, fun ho => absurd ho hn, fun _ => byteAt_write_same h.wf⟩
    · rcases hd with rfl | hd
      · exact absurd hx hs
      · exact h.seen x hx hd
    · exact (byteAt_write_other (by rintro rfl; exact hs hx)).trans (h.same x hx hnx)

/-- The colour at a depends on a free value: one of its three bytes is tainted. -/
theorem colourTainted_iff {b : Bus} {a : Word} :
    colourTainted b a = true ↔ ∃ d, d < 3 ∧ a + BitVec.ofNat 32 d ∈ b.tainted := by
  simp only [colourTainted, Bool.or_eq_true, List.contains_iff_mem]
  constructor
  · rintro ((h | h) | h)
    · exact ⟨0, by omega, by simpa using h⟩
    · exact ⟨1, by omega, h⟩
    · exact ⟨2, by omega, h⟩
  · rintro ⟨d, hd, h⟩
    interval_cases d
    · exact Or.inl (Or.inl (by simpa using h))
    · exact Or.inl (Or.inr h)
    · exact Or.inr h

/-- The colour of a word in memory is that of its three lowest bytes (R63, R83). -/
theorem colourOf_read32 {m m' : Memory} {a : Word} (h : ∀ d, d < 3 → byteAt m (a + BitVec.ofNat 32 d) = byteAt m' (a + BitVec.ofNat 32 d)) :
    colourOf (read32 m a) = colourOf (read32 m' a) := by
  have h0 := h 0 (by omega)
  have h1 := h 1 (by omega)
  have h2 := h 2 (by omega)
  simp only [BitVec.add_zero] at h0
  have key : ∀ i, i < 24 → (read32 m a).getLsbD i = (read32 m' a).getLsbD i := by
    intro i hi
    simp only [read32_getLsbD, h0, if_pos hi]
    rw [show byteAt m (a + 1#32) = byteAt m' (a + 1#32) from h1, show byteAt m (a + 2#32) = byteAt m' (a + 2#32) from h2]
  have ext8 : ∀ st, st ≤ 16 → (read32 m a).extractLsb' st 8 = (read32 m' a).extractLsb' st 8 := by
    intro st hst
    refine BitVec.eq_of_getElem_eq fun i hi => ?_
    rw [BitVec.getElem_extractLsb', BitVec.getElem_extractLsb', key _ (by omega)]
  simp only [colourOf, redOf, greenOf, blueOf, ext8 16 (by omega), ext8 8 (by omega), ext8 0 (by omega)]

/-- Reading the colour of a surface pixel: it depends on a free value exactly when a byte of it was raced or written before, and
else it is the colour the command found. -/
theorem Going.colour {g : Regs} {m : Memory} {R : List Word} {D : Word → Prop} {b : Bus} (h : Going g m R D b) {px py : Nat}
    (hx : px < g.surfW.toNat) (hy : py < g.surfH.toNat) :
    (colourTainted b (pixAddr g px py) = true ↔
      ∃ d, d < 3 ∧ (pixAddr g px py + BitVec.ofNat 32 d ∈ R ∨ D (pixAddr g px py + BitVec.ofNat 32 d))) ∧
    (colourTainted b (pixAddr g px py) = false →
      colourOf (read32 b.mem (pixAddr g px py)) = colourOf (read32 m (pixAddr g px py))) := by
  have hs : ∀ d, d < 3 → covers (surfaceRange g) (pixAddr g px py + BitVec.ofNat 32 d) = true :=
    fun d hd => surf_byte g hx hy (by omega)
  refine ⟨?_, fun hf => colourOf_read32 fun d hd => h.same _ (hs d hd) fun hin => ?_⟩
  · rw [colourTainted_iff]
    exact exists_congr fun d => and_congr_right fun hd =>
      ⟨h.only _, fun ho => ho.elim (h.raced _) (h.seen _ (hs d hd))⟩
  · rw [colourTainted_iff.mpr ⟨d, hd, hin⟩] at hf
    cases hf

/-! ### Positions by their number -/

theorem positions_succ (w h : Nat) : positions w (h + 1) = positions w h ++ (List.range w).map fun x => (x, h) := by
  simp [positions, List.range_succ, List.flatMap_append]

/-- Row-major order: position number n is (n mod w, n div w). -/
theorem positions_eq {w : Nat} (hw : 0 < w) (h : Nat) :
    positions w h = (List.range (w * h)).map fun n => (n % w, n / w) := by
  induction h with
  | zero => rfl
  | succ h ih =>
    rw [positions_succ, ih, Nat.mul_succ, List.range_add, List.map_append, List.map_map]
    refine congrArg _ (List.map_congr_left fun x hx => ?_)
    have hx : x < w := by simpa using hx
    simp [Nat.mod_eq_of_lt hx, Nat.mul_add_div hw, Nat.div_eq_of_lt hx]

/-- Number n is below w * h: its position lies in the array and its row-major number is n. -/
theorem number_pos {w h n : Nat} (hn : n < w * h) : n % w < w ∧ n / w < h ∧ n / w * w + n % w = n := by
  have hw : 0 < w := Nat.pos_of_ne_zero fun e => by simp [e] at hn
  exact ⟨Nat.mod_lt _ hw, Nat.div_lt_of_lt_mul hn, by rw [Nat.mul_comm]; exact Nat.div_add_mod n w⟩

/-- A position's row-major number gives it back. -/
theorem pos_number {w x y : Nat} (hx : x < w) : (y * w + x) % w = x ∧ (y * w + x) / w = y := by
  have hw : 0 < w := Nat.zero_lt_of_lt hx
  rw [Nat.mul_comm]
  exact ⟨by rw [Nat.mul_add_mod, Nat.mod_eq_of_lt hx], by rw [Nat.mul_add_div hw, Nat.div_eq_of_lt hx]; omega⟩

/-! ### REMAP -/

/-- REMAP's loop, where it succeeds: entry j + i is a free index exactly when its colour is tainted, else the nearest one. -/
theorem remapEntries_open {k : Config} {g : Regs} {n : Nat} : ∀ {j : Nat} {b : Bus} {l : List (BitVec 4)} {f : Nat},
    remapEntries k g j n b = .ok (l, f) → l.length = n ∧ b.free ≤ f ∧ ∀ i, i < n →
      (colourTainted b (remapAddr g (j + i)) = true →
        ∃ q, b.free ≤ q ∧ q < f ∧ l[i]? = some ((Config.freeByte q).extractLsb' 0 4)) ∧
      (colourTainted b (remapAddr g (j + i)) = false →
        l[i]? = some (nearest k.palette (colourOf (read32 b.mem (remapAddr g (j + i))))).index) := by
  induction n with
  | zero =>
    intro j b l f h
    cases h
    exact ⟨rfl, Nat.le_refl _, fun i hi => absurd hi (by omega)⟩
  | succ n ih =>
    intro j b l f h
    simp only [remapEntries] at h
    cases hr : busRead k b (remapAddr g j) with
    | error a => rw [hr] at h; cases h
    | ok p =>
      obtain ⟨w, t⟩ := p
      obtain ⟨-, rfl, rfl⟩ := busRead_ok hr
      rw [hr] at h
      simp only at h
      cases hrec : remapEntries k g (j + 1) n
          { b with free := if colourTainted b (remapAddr g j) = true then b.free + 1 else b.free } with
      | error a => rw [hrec] at h; cases h
      | ok p =>
        obtain ⟨l', f'⟩ := p
        rw [hrec] at h
        cases h
        obtain ⟨hl, hf, hi⟩ := ih hrec
        refine ⟨by simp [hl], by dsimp only at hf; split at hf <;> omega, fun i hin => ?_⟩
        cases i with
        | zero =>
          refine ⟨fun ht => ⟨b.free, Nat.le_refl _, ?_, by simp [remapIndex, show colourTainted b (remapAddr g j) = true from ht]⟩,
            fun ht => by simp [remapIndex, show colourTainted b (remapAddr g j) = false from ht]⟩
          dsimp only at hf
          rw [if_pos (show colourTainted b (remapAddr g j) = true from ht)] at hf
          omega
        | succ i =>
          have h' := hi i (by omega)
          rw [show j + 1 + i = j + (i + 1) by omega] at h'
          refine ⟨fun ht => ?_, h'.2⟩
          obtain ⟨q, h1, h2, h3⟩ := h'.1 ht
          refine ⟨q, ?_, h2, h3⟩
          dsimp only at h1
          split at h1 <;> omega

/-! ### QSURF8 -/

/-- Output byte number n of QSURF8 (R114). -/
theorem qsurfAddr_number {g : Regs} {n : Nat} (hn : n < g.surfW.toNat * g.surfH.toNat) :
    qsurfAddr g (n % g.surfW.toNat) (n / g.surfW.toNat) = g.outBase + BitVec.ofNat 32 n := by
  rw [qsurfAddr, (number_pos hn).2.2]

/-- The output bytes before number n. -/
def Before (a : Word) (n : Nat) (x : Word) : Prop := ∃ m, m < n ∧ x = a + BitVec.ofNat 32 m

theorem not_before {a : Word} {n : Nat} (h : n < 2 ^ 32) : ¬ Before a n (a + BitVec.ofNat 32 n) := by
  rintro ⟨m, hm, he⟩
  have := add_ofNat_inj (by omega) (by omega) a he
  omega

theorem before_succ (a : Word) (n : Nat) (x : Word) : Before a (n + 1) x ↔ x = a + BitVec.ofNat 32 n ∨ Before a n x := by
  constructor
  · rintro ⟨m, hm, rfl⟩
    rcases Nat.lt_succ_iff_lt_or_eq.mp hm with h | rfl
    · exact Or.inr ⟨m, h, rfl⟩
    · exact Or.inl rfl
  · rintro (rfl | ⟨m, hm, rfl⟩)
    · exact ⟨n, by omega, rfl⟩
    · exact ⟨m, by omega, rfl⟩

/-- Output byte n of QSURF8 is any value: its pixel's colour is, or it was raced or lies in the surface (R76, R71 c). -/
def QsurfOpen (g : Regs) (R : List Word) (n : Nat) : Prop :=
  (∃ d, d < 3 ∧ (pixAddr g (n % g.surfW.toNat) (n / g.surfW.toNat) + BitVec.ofNat 32 d ∈ R ∨
    Before g.outBase n (pixAddr g (n % g.surfW.toNat) (n / g.surfW.toNat) + BitVec.ofNat 32 d))) ∨
  g.outBase + BitVec.ofNat 32 n ∈ R ∨ covers (surfaceRange g) (g.outBase + BitVec.ofNat 32 n) = true

/-- QSURF8's loop from pixel n on, where it succeeds. -/
theorem qsurfLoop_open {k : Config} {g : Regs} {m : Memory} {R : List Word} (len : Nat) : ∀ {n : Nat} {b b' : Bus},
    n + len = g.surfW.toNat * g.surfH.toNat → Going g m R (Before g.outBase n) b →
    qsurfLoop k g ((List.range' n len).map fun i => (i % g.surfW.toNat, i / g.surfW.toNat)) b = .ok b' →
    b.free ≤ b'.free ∧ (∀ x, Before g.outBase n x → byteAt b'.mem x = byteAt b.mem x) ∧
      ∀ i, n ≤ i → i < n + len →
        (QsurfOpen g R i → HoldsFree b'.mem b.free b'.free (g.outBase + BitVec.ofNat 32 i)) ∧
        (¬ QsurfOpen g R i → byteAt b'.mem (g.outBase + BitVec.ofNat 32 i) =
          (quantize k.palette (read32 m (pixAddr g (i % g.surfW.toNat) (i / g.surfW.toNat))) (i % g.surfW.toNat)
            (i / g.surfW.toNat)).zeroExtend 8) := by
  induction len with
  | zero =>
    intro n b b' _ _ h
    cases h
    exact ⟨Nat.le_refl _, fun _ _ => rfl, fun i h1 h2 => absurd h2 (by omega)⟩
  | succ len ih =>
    intro n b b' hn hb h
    have hlt : n < g.surfW.toNat * g.surfH.toNat := by omega
    have h32 : n < 2 ^ 32 := Nat.lt_trans hlt (size_lt _ _)
    obtain ⟨hx, hy, -⟩ := number_pos hlt
    rw [List.range'_succ, List.map_cons, qsurfLoop] at h
    cases hr : busRead k b (pixAddr g (n % g.surfW.toNat) (n / g.surfW.toNat)) with
    | error a => rw [hr] at h; cases h
    | ok p =>
      obtain ⟨w, t⟩ := p
      obtain ⟨-, rfl, rfl⟩ := busRead_ok hr
      rw [hr] at h
      simp only [qsurfAddr_number hlt] at h
      split at h
      · cases h
      · next b1 hw =>
        obtain ⟨hc1, hc2⟩ := hb.colour hx hy
        obtain ⟨g1, g2, g3, g4, g5⟩ := hb.write (not_before h32) hw
        obtain ⟨r1, r2, r3⟩ := ih (by omega) (g1.congr fun x => (before_succ g.outBase n x).symm) h
        have hkeep : byteAt b'.mem (g.outBase + BitVec.ofNat 32 n) = byteAt b1.mem (g.outBase + BitVec.ofNat 32 n) :=
          r2 _ ⟨n, by omega, rfl⟩
        refine ⟨by omega, fun x hbx => ?_, fun i h1 h2 => ?_⟩
        · rw [r2 x ((before_succ _ _ _).mpr (Or.inr hbx)), g3 x fun e => not_before h32 (e ▸ hbx)]
        · rcases Nat.eq_or_lt_of_le h1 with rfl | h1
          · have hopen : QsurfOpen g R n ↔ (colourTainted b (pixAddr g (n % g.surfW.toNat) (n / g.surfW.toNat)) = true ∨
                g.outBase + BitVec.ofNat 32 n ∈ R ∨ covers (surfaceRange g) (g.outBase + BitVec.ofNat 32 n) = true) :=
              or_congr hc1.symm Iff.rfl
            refine ⟨fun ho => (g4 (hopen.mp ho)).mono (Nat.le_refl _) r1 hkeep, fun ho => ?_⟩
            have hno := mt hopen.mpr ho
            rw [hkeep, g5 hno]
            simp only [quantize, hc2 (Bool.eq_false_iff.mpr fun e => hno (Or.inl e))]
          · obtain ⟨q1, q2⟩ := r3 i (by omega) (by omega)
            exact ⟨fun ho => (q1 ho).mono g2 (Nat.le_refl _) rfl, q2⟩

/-! ### PackRegion -/

/-- Reading n pixels of a surface row: the row depends on a free value exactly when a colour of it does. -/
theorem readPixels_open {k : Config} {g : Regs} {b : Bus} {py n : Nat} : ∀ {px : Nat} {l : List (BitVec 4)} {t : Bool},
    readPixels k g b py px n = .ok (l, t) →
    l = (List.range n).map (fun i => quantize k.palette (read32 b.mem (pixAddr g (px + i) py)) (px + i) py) ∧
      (t = true ↔ ∃ i, i < n ∧ colourTainted b (pixAddr g (px + i) py) = true) := by
  induction n with
  | zero => intro px l t h; cases h; simp
  | succ n ih =>
    intro px l t h
    rw [readPixels] at h
    cases hr : busRead k b (pixAddr g px py) with
    | error a => rw [hr] at h; cases h
    | ok p =>
      obtain ⟨w, t0⟩ := p
      obtain ⟨-, rfl, rfl⟩ := busRead_ok hr
      rw [hr] at h
      simp only at h
      cases hrec : readPixels k g b py (px + 1) n with
      | error a => rw [hrec] at h; cases h
      | ok p =>
        obtain ⟨l', t'⟩ := p
        rw [hrec] at h
        cases h
        obtain ⟨hl, ht⟩ := ih hrec
        refine ⟨?_, ?_⟩
        · rw [hl, List.range_succ_eq_map, List.map_cons, List.map_map]
          refine congrArg _ (List.map_congr_left fun i _ => ?_)
          simp only [Function.comp, Nat.succ_eq_add_one, show px + 1 + i = px + (i + 1) by omega]
        · rw [Bool.or_eq_true, ht]
          constructor
          · rintro (h0 | ⟨i, hi, h1⟩)
            · exact ⟨0, by omega, h0⟩
            · exact ⟨i + 1, by omega, by rwa [show px + (i + 1) = px + 1 + i by omega]⟩
          · rintro ⟨i, hi, h1⟩
            cases i with
            | zero => exact Or.inl h1
            | succ i => exact Or.inr ⟨i, by omega, by rwa [show px + 1 + i = px + (i + 1) by omega]⟩

/-- The plane bytes of one column, where every write succeeds and none of the bytes was written before. -/
theorem writePlanes_open {k : Config} {g : Regs} {r : Region} (hin : RegionIn g r) {m : Memory} {R : List Word} {c y : Nat}
    (hc : c < rowBytes r) (hy : y < r.h) {q : Planes} {t : Bool} (is : List Nat) : ∀ {D : Word → Prop} {b b' : Bus}, is.Nodup →
    (∀ i ∈ is, i < 4 ∧ ¬ D (packAddr g r i c y)) → Going g m R D b → writePlanes k g r c y q t is b = .ok b' →
    Going g m R (fun x => D x ∨ ∃ i ∈ is, x = packAddr g r i c y) b' ∧ b.free ≤ b'.free ∧
      (∀ x, (∀ i ∈ is, x ≠ packAddr g r i c y) → byteAt b'.mem x = byteAt b.mem x) ∧
      ∀ i ∈ is,
        (t = true ∨ packAddr g r i c y ∈ R ∨ covers (surfaceRange g) (packAddr g r i c y) = true →
          HoldsFree b'.mem b.free b'.free (packAddr g r i c y)) ∧
        (¬ (t = true ∨ packAddr g r i c y ∈ R ∨ covers (surfaceRange g) (packAddr g r i c y) = true) →
          byteAt b'.mem (packAddr g r i c y) = planeByte q i) := by
  induction is with
  | nil =>
    intro D b b' _ _ hb h
    cases h
    exact ⟨hb.congr fun x => by simp, Nat.le_refl _, fun _ _ => rfl, by simp⟩
  | cons i is ih =>
    intro D b b' hnd hD hb h
    rw [List.nodup_cons] at hnd
    have hne : ∀ j ∈ is, packAddr g r j c y ≠ packAddr g r i c y := fun j hj e =>
      hnd.1 ((packAddr_inj hin (hD j (by simp [hj])).1 hc hy (hD i (by simp)).1 hc hy e).1 ▸ hj)
    rw [writePlanes] at h
    split at h
    · cases h
    · next b1 hw =>
      obtain ⟨g1, g2, g3, g4, g5⟩ := hb.write (hD i (by simp)).2 hw
      obtain ⟨r1, r2, r3, r4⟩ := ih hnd.2 (fun j hj => ⟨(hD j (by simp [hj])).1, fun e =>
        e.elim (hne j hj) (hD j (by simp [hj])).2⟩) g1 h
      have hkeep : byteAt b'.mem (packAddr g r i c y) = byteAt b1.mem (packAddr g r i c y) :=
        r3 _ fun j hj e => hne j hj e.symm
      refine ⟨r1.congr fun x => by simp only [List.mem_cons, exists_eq_or_imp]; tauto, by omega, fun x hx => ?_, fun j hj => ?_⟩
      · rw [r3 x fun j hj => hx j (by simp [hj]), g3 x (hx i (by simp))]
      · rcases List.mem_cons.mp hj with rfl | hj
        · exact ⟨fun ho => (g4 ho).mono (Nat.le_refl _) r2 hkeep, fun ho => hkeep.trans (g5 ho)⟩
        · exact ⟨fun ho => ((r4 j hj).1 ho).mono g2 (Nat.le_refl _) rfl, (r4 j hj).2⟩

/-- The bytes PackRegion has written before byte column number n. -/
def PackBefore (g : Regs) (r : Region) (n : Nat) (x : Word) : Prop :=
  ∃ k c y, k < 4 ∧ c < rowBytes r ∧ y * rowBytes r + c < n ∧ x = packAddr g r k c y

/-- A pixel of byte column number n is any value to the command (R76, R71 c). -/
def ColOpen (g : Regs) (R : List Word) (r : Region) (n : Nat) : Prop :=
  ∃ i, i < 8 ∧ ∃ d, d < 3 ∧
    (pixAddr g (r.x + 8 * (n % rowBytes r) + i) (r.y + n / rowBytes r) + BitVec.ofNat 32 d ∈ R ∨
      PackBefore g r n (pixAddr g (r.x + 8 * (n % rowBytes r) + i) (r.y + n / rowBytes r) + BitVec.ofNat 32 d))

theorem packBefore_lt {g : Regs} {r : Region} (hin : RegionIn g r) {n i : Nat} (hn : n < planeSize r) (hi : i < 4) :
    ¬ PackBefore g r n (packAddr g r i (n % rowBytes r) (n / rowBytes r)) := by
  rintro ⟨k, c, y, hk, hc, hlt, he⟩
  obtain ⟨hc', hy', hnum⟩ := number_pos hn
  have hy : y < r.h := by
    by_contra hge
    have := Nat.mul_le_mul_right (rowBytes r) (Nat.le_of_not_lt hge)
    have : planeSize r ≤ y * rowBytes r := by rw [planeSize, Nat.mul_comm]; exact this
    omega
  obtain ⟨-, hc2, hy2⟩ := packAddr_inj hin hi hc' hy' hk hc hy he
  rw [hc2, hy2] at hnum
  omega

theorem mem_planes {i : Nat} : i ∈ [0, 1, 2, 3] ↔ i < 4 := by
  simp only [List.mem_cons, List.not_mem_nil, or_false]
  omega

theorem packBefore_succ {g : Regs} {r : Region} {n : Nat} (hn : n < planeSize r) (x : Word) :
    PackBefore g r (n + 1) x ↔
      PackBefore g r n x ∨ ∃ i ∈ [0, 1, 2, 3], x = packAddr g r i (n % rowBytes r) (n / rowBytes r) := by
  obtain ⟨hc, hy, hnum⟩ := number_pos hn
  constructor
  · rintro ⟨k, c', y, hk, hc', hlt, rfl⟩
    rcases Nat.lt_succ_iff_lt_or_eq.mp hlt with h | rfl
    · exact Or.inl ⟨k, c', y, hk, hc', h, rfl⟩
    · refine Or.inr ⟨k, mem_planes.mpr hk, ?_⟩
      rw [(pos_number hc').1, (pos_number hc').2]
  · rintro (⟨k, c, y, hk, hc, hlt, rfl⟩ | ⟨i, hi, rfl⟩)
    · exact ⟨k, c, y, hk, hc, by omega, rfl⟩
    · exact ⟨i, _, _, mem_planes.mp hi, hc, by omega, rfl⟩

/-- The kept copy of a column: free where the column is open, the packed bytes else. -/
theorem keptPlanes_open (q : Planes) (t : Bool) (b : Bus) :
    b.free ≤ (keptPlanes q t b).2.free ∧
      (t = true → ∀ k, k < 4 → ∃ n, b.free ≤ n ∧ n < (keptPlanes q t b).2.free ∧
        planeByte (keptPlanes q t b).1 k = Config.freeByte n) ∧
      (t = false → (keptPlanes q t b).1 = q) := by
  cases t with
  | false => exact ⟨Nat.le_refl _, nofun, fun _ => rfl⟩
  | true =>
    refine ⟨by simp [keptPlanes], fun _ k hk => ⟨b.free + k, by omega, by simp only [keptPlanes]; simp; omega, ?_⟩, nofun⟩
    interval_cases k <;> rfl

/-- PackRegion's loop from byte column n on, where it succeeds: the bytes in memory, and the copies it returns. -/
theorem packLoop_open {k : Config} {g : Regs} {r : Region} (hin : RegionIn g r) {m : Memory} {R : List Word} (len : Nat) :
    ∀ {n : Nat} {b b' : Bus} {pb : List Planes}, n + len = planeSize r → Going g m R (PackBefore g r n) b →
    packLoop k g r ((List.range' n len).map fun i => (i % rowBytes r, i / rowBytes r)) b = .ok (pb, b') →
    b.free ≤ b'.free ∧ (∀ x, PackBefore g r n x → byteAt b'.mem x = byteAt b.mem x) ∧
      ∀ i p, i < len → p < 4 →
        ((ColOpen g R r (n + i) ∨ packAddr g r p ((n + i) % rowBytes r) ((n + i) / rowBytes r) ∈ R ∨
            covers (surfaceRange g) (packAddr g r p ((n + i) % rowBytes r) ((n + i) / rowBytes r)) = true) →
          HoldsFree b'.mem b.free b'.free (packAddr g r p ((n + i) % rowBytes r) ((n + i) / rowBytes r))) ∧
        (¬ (ColOpen g R r (n + i) ∨ packAddr g r p ((n + i) % rowBytes r) ((n + i) / rowBytes r) ∈ R ∨
            covers (surfaceRange g) (packAddr g r p ((n + i) % rowBytes r) ((n + i) / rowBytes r)) = true) →
          byteAt b'.mem (packAddr g r p ((n + i) % rowBytes r) ((n + i) / rowBytes r)) =
            planeByte (pack8 (colIdx k g r m ((n + i) % rowBytes r) ((n + i) / rowBytes r))) p) ∧
        ∃ q, pb[i]? = some q ∧
          (ColOpen g R r (n + i) → ∃ f, b.free ≤ f ∧ f < b'.free ∧ planeByte q p = Config.freeByte f) ∧
          (¬ ColOpen g R r (n + i) →
            planeByte q p = planeByte (pack8 (colIdx k g r m ((n + i) % rowBytes r) ((n + i) / rowBytes r))) p) := by
  induction len with
  | zero =>
    intro n b b' pb _ _ h
    cases h
    exact ⟨Nat.le_refl _, fun _ _ => rfl, fun i p h1 => absurd h1 (by omega)⟩
  | succ len ih =>
    intro n b b' pb hn hb h
    have hlt : n < planeSize r := by omega
    obtain ⟨hc, hy, hnum⟩ := number_pos hlt
    rw [List.range'_succ, List.map_cons, packLoop] at h
    cases hr : readPixels k g b (r.y + n / rowBytes r) (r.x + 8 * (n % rowBytes r)) 8 with
    | error a => rw [hr] at h; cases h
    | ok pr =>
      obtain ⟨l, t⟩ := pr
      rw [hr] at h
      simp only at h
      split at h
      · cases h
      next b1 hw =>
      split at h
      · cases h
      next pb2 b2 hrec =>
      cases h
      obtain ⟨hl, ht⟩ := readPixels_open hr
      have hpix : ∀ i, i < 8 → r.x + 8 * (n % rowBytes r) + i < g.surfW.toNat ∧ r.y + n / rowBytes r < g.surfH.toNat := by
        intro i hi
        have := hin.w8; have := hin.hw; have := hin.hh
        simp only [rowBytes] at hc hy ⊢
        omega
      have hopen : t = true ↔ ColOpen g R r n := by
        rw [ht]
        exact exists_congr fun i => and_congr_right fun hi => (hb.colour (hpix i hi).1 (hpix i hi).2).1
      have hcol : t = false → pack8 l = pack8 (colIdx k g r m (n % rowBytes r) (n / rowBytes r)) := by
        intro hf
        rw [hl]
        refine congrArg pack8 (List.map_congr_left fun i hi => ?_)
        have hi : i < 8 := by simpa using hi
        have hcl : colourTainted b (pixAddr g (r.x + 8 * (n % rowBytes r) + i) (r.y + n / rowBytes r)) = false :=
          Bool.eq_false_iff.mpr fun e => by rw [ht.mpr ⟨i, hi, e⟩] at hf; cases hf
        simp only [quantize, (hb.colour (hpix i hi).1 (hpix i hi).2).2 hcl]
      obtain ⟨w1, w2, w3, w4⟩ := writePlanes_open hin hc hy [0, 1, 2, 3] (by decide)
        (fun i hi => ⟨mem_planes.mp hi, packBefore_lt hin hlt (mem_planes.mp hi)⟩) hb hw
      obtain ⟨k1, k2, k3⟩ := keptPlanes_open (pack8 l) t b1
      have hgo : Going g m R (PackBefore g r (n + 1)) (keptPlanes (pack8 l) t b1).2 := by
        have := (w1.congr fun x => (packBefore_succ hlt x).symm).count (keptPlanes (pack8 l) t b1).2.free
        revert this
        cases t <;> exact id
      obtain ⟨r1, r2, r3⟩ := ih (by omega) hgo hrec
      refine ⟨by omega, fun x hx => ?_, fun i p hi hp => ?_⟩
      · rw [r2 x ((packBefore_succ hlt x).mpr (Or.inl hx)), keptPlanes_mem,
          w3 x fun j hj e => packBefore_lt hin hlt (mem_planes.mp hj) (e ▸ hx)]
      · cases i with
        | zero =>
          have hp4 : p ∈ [0, 1, 2, 3] := mem_planes.mpr hp
          have hkeep : byteAt b'.mem (packAddr g r p (n % rowBytes r) (n / rowBytes r)) =
              byteAt b1.mem (packAddr g r p (n % rowBytes r) (n / rowBytes r)) := by
            rw [r2 _ ((packBefore_succ hlt _).mpr (Or.inr ⟨p, hp4, rfl⟩)), keptPlanes_mem]
          obtain ⟨a1, a2⟩ := w4 p hp4
          rw [hopen] at a1 a2
          refine ⟨fun ho => (a1 ho).mono (Nat.le_refl _) (by omega) hkeep, fun ho => ?_,
            (keptPlanes (pack8 l) t b1).1, rfl, fun ho => ?_, fun ho => ?_⟩
          · exact hkeep.trans ((a2 ho).trans (congrArg (planeByte · p)
              (hcol (Bool.eq_false_iff.mpr fun e => ho (Or.inl (hopen.mp e))))))
          · obtain ⟨f, h1, h2, h3⟩ := k2 (hopen.mpr ho) p hp
            exact ⟨f, by omega, by omega, h3⟩
          · have hf : t = false := Bool.eq_false_iff.mpr fun e => ho (hopen.mp e)
            exact congrArg (planeByte · p) ((k3 hf).trans (hcol hf))
        | succ i =>
          have h' := r3 i p (by omega) hp
          rw [show n + 1 + i = n + (i + 1) by omega] at h'
          obtain ⟨h1, h2, q, h3, h4, h5⟩ := h'
          refine ⟨fun ho => (h1 ho).mono (by omega) (Nat.le_refl _) rfl, h2, q, h3, fun ho => ?_, h5⟩
          obtain ⟨f, e1, e2, e3⟩ := h4 ho
          exact ⟨f, by omega, e2, e3⟩

end Sys2Proof.Machine
end

