-- ==== Sys2Proof/Laws/Host.lean ====
section
/-! SUPPORT. What a host access of memory can change, races included, said once: a property its four kinds of update keep holds
after any access. -/

namespace Sys2Proof.Machine

/-- The updates a host access of memory is made of keep Q. -/
structure HostKeeps (Q : State → Prop) : Prop where
  result : ∀ (s : State) (r : Result), Q s → Q (s.freeResult r)
  store : ∀ (s : State) (a : Word) (v : Byte), Q s → Q { s with mem := Memory.write s.mem a.toNat v }
  raced : ∀ (s : State) (l : List Word), Q s → Q { s with raced := l }
  count : ∀ s : State, Q s → Q { s with freeCtr := s.freeCtr + 1 }

theorem freeDependents_keeps {Q : State → Prop} (h : HostKeeps Q) (us : List Use) (as : List Word) (s : State) (hs : Q s) :
    Q (s.freeDependents as us).1 := by
  induction us generalizing as s with
  | nil => exact hs
  | cons u us ih =>
    rw [State.freeDependents]
    split
    · exact ih _ _ (h.result s _ hs)
    · exact ih _ _ hs

theorem raceByte_keeps {Q : State → Prop} (h : HostKeeps Q) (a : Word) (s : State) (hs : Q s) : Q (s.raceByte a) :=
  h.raced _ _ (freeDependents_keeps h _ _ _ (h.result s _ hs))

theorem hostPutByte_keeps {Q : State → Prop} (h : HostKeeps Q) (a : Word) (v : Byte) (s : State) (hs : Q s) :
    Q (hostPutByte s a v) := by
  unfold hostPutByte
  split
  · exact raceByte_keeps h a s hs
  · exact h.store s a v hs

theorem hostPut_keeps {Q : State → Prop} (h : HostKeeps Q) (v : Word) (as : List Word) (s : State) (hs : Q s) :
    Q (hostPut v as s) := by
  induction as generalizing v s with
  | nil => exact hs
  | cons a as ih => exact ih _ _ (hostPutByte_keeps h a _ s hs)

theorem afterHostByte_keeps {Q : State → Prop} (h : HostKeeps Q) (a : Word) (s : State) (hs : Q s) : Q (afterHostByte s a) := by
  unfold afterHostByte
  split
  · exact raceByte_keeps h a _ (h.count s hs)
  · exact hs

theorem hostGet_keeps {Q : State → Prop} (h : HostKeeps Q) (as : List Word) (s : State) (hs : Q s) : Q (hostGet as s).2 := by
  induction as generalizing s with
  | nil => exact hs
  | cons a as ih => exact ih _ (afterHostByte_keeps h a s hs)

/-! ### Properties every host access of memory keeps -/

/-- The fields no host access of memory touches. -/
def State.apart (s : State) : State := { s with res0 := 0#32, res1 := 0#32, mem := [], events := [], raced := [], freeCtr := 0 }

theorem apart_freeResult (s : State) (r : Result) : (s.freeResult r).apart = s.apart := by
  simp [State.apart]

theorem hostKeeps_apart (t : State) : HostKeeps fun s => s.apart = t.apart where
  result s r h := (apart_freeResult s r).trans h
  store _ _ _ h := h
  raced _ _ h := h
  count _ h := h

theorem freeResult_wf {s : State} (r : Result) (h : Memory.wf s.mem = true) : Memory.wf (s.freeResult r).mem = true := by
  cases r <;> simp only [State.freeResult] <;> (try split) <;> first | exact h | exact Memory.wf_write h

theorem hostKeeps_wf : HostKeeps fun s => Memory.wf s.mem = true where
  result _ r h := freeResult_wf r h
  store _ _ _ h := Memory.wf_write h
  raced _ _ h := h
  count _ h := h

/-- A race changes no event's kind, place or length. -/
theorem shape_putByte (c : Nat) (v : Byte) (e : HsEvent) : (e.putByte c v).shape = e.shape := by
  cases e with
  | selectPlane k => rfl
  | outPort p x => rfl
  | copyIntoDevice o bs =>
    refine congrArg (HsEvent.copyIntoDevice o) (List.ext_getElem (by simp) fun i h h' => ?_)
    simp only [List.getElem_map]

theorem freeResult_shapes (s : State) (r : Result) :
    (s.freeResult r).events.map HsEvent.shape = s.events.map HsEvent.shape := by
  cases r with
  | nibble j => simp only [State.freeResult]; split <;> rfl
  | byte a => rfl
  | eventByte i c =>
    refine List.ext_getElem? fun n => ?_
    simp only [State.freeResult, List.getElem?_map, List.getElem?_modify]
    cases s.events[n]? with
    | none => simp
    | some e => by_cases h : i = n <;> simp [h, shape_putByte]

theorem hostKeeps_shapes (l : List HsEvent) : HostKeeps fun s => s.events.map HsEvent.shape = l where
  result s r h := (freeResult_shapes s r).trans h
  store _ _ _ h := h
  raced _ _ h := h
  count _ h := h

/-- What freeing each listed result keeps, freeing the dependents among them keeps. -/
theorem freeDependents_inv (Q : State → Prop) (us : List Use) (h : ∀ u ∈ us, ∀ s : State, Q s → Q (s.freeResult u.result))
    (as : List Word) (s : State) (hs : Q s) : Q (s.freeDependents as us).1 := by
  induction us generalizing as s with
  | nil => exact hs
  | cons u us ih =>
    have ih := ih fun v hv => h v (List.mem_cons_of_mem u hv)
    rw [State.freeDependents]
    split
    · exact ih _ _ (h u List.mem_cons_self s hs)
    · exact ih _ _ hs

/-- The raced addresses are among those whose dependents are freed. -/
theorem freeDependents_addresses (us : List Use) (as : List Word) (s : State) : ∀ a ∈ as, a ∈ (s.freeDependents as us).2 := by
  induction us generalizing as s with
  | nil => exact fun a ha => ha
  | cons u us ih =>
    intro a ha
    rw [State.freeDependents]
    split
    · exact ih _ _ a (List.mem_append_right _ ha)
    · exact ih _ _ a ha

/-- With no result waiting for BUSY = 0 to be read, a race changes no event. -/
theorem raceByte_events {s : State} (h : s.uses = []) (a : Word) : (s.raceByte a).events = s.events := by
  simp [State.raceByte, h, State.freeDependents, State.freeResult]

/-! ### Where R266 forbids no access -/

/-- A host store of a byte outside every range is a plain memory write. -/
theorem hostPutByte_plain {s : State} {a : Word} (hr : coveredBy s.hazard.reads a = false)
    (hw : coveredBy s.hazard.writes a = false) (v : Byte) :
    hostPutByte s a v = { s with mem := Memory.write s.mem a.toNat v } := by
  simp [hostPutByte, hr, hw]

/-- A host load of bytes outside every output range changes nothing. -/
theorem afterHostByte_plain {s : State} {a : Word} (h : coveredBy s.hazard.writes a = false) : afterHostByte s a = s := by
  simp [afterHostByte, h]

/-- A field that one havocked range leaves alone is left alone by any number of them. -/
theorem havocRanges_field {α : Type} (f : State → α) (hf : ∀ r s, f (State.havocRange r s) = f s) (rs : List Range) (s : State) :
    f (State.havocRanges rs s) = f s := by
  induction rs generalizing s with
  | nil => rfl
  | cons r rs ih => rw [State.havocRanges, ih, hf]

end Sys2Proof.Machine
end

