-- ==== Sys2Proof/Laws/PerInstr.lean ====
section
/-! SUPPORT. Statements made of every command as syntax: the family Encoding. -/

/-- The word of a command carries its OP in bits [7:0] and nothing above them (R81, R84, R86). -/
def Sys2Proof.Laws.Encoding.Statement (i : Sys2Proof.Instr) : Prop :=
  Sys2Proof.opField (Sys2Proof.encode i) = i.op ∧ Sys2Proof.rsvZero (Sys2Proof.encode i) = true ∧
    (Sys2Proof.encode i).toNat = i.op.toNat

theorem Sys2Proof.Laws.Encoding.nop : Sys2Proof.Laws.Encoding.Statement .nop := by
  unfold Sys2Proof.Laws.Encoding.Statement; decide

theorem Sys2Proof.Laws.Encoding.nearest : Sys2Proof.Laws.Encoding.Statement .nearest := by
  unfold Sys2Proof.Laws.Encoding.Statement; decide

theorem Sys2Proof.Laws.Encoding.dthr : Sys2Proof.Laws.Encoding.Statement .dthr := by
  unfold Sys2Proof.Laws.Encoding.Statement; decide

theorem Sys2Proof.Laws.Encoding.qpix : Sys2Proof.Laws.Encoding.Statement .qpix := by
  unfold Sys2Proof.Laws.Encoding.Statement; decide

theorem Sys2Proof.Laws.Encoding.remap : Sys2Proof.Laws.Encoding.Statement .remap := by
  unfold Sys2Proof.Laws.Encoding.Statement; decide

theorem Sys2Proof.Laws.Encoding.qsurf8 : Sys2Proof.Laws.Encoding.Statement .qsurf8 := by
  unfold Sys2Proof.Laws.Encoding.Statement; decide

theorem Sys2Proof.Laws.Encoding.lutinit : Sys2Proof.Laws.Encoding.Statement .lutinit := by
  unfold Sys2Proof.Laws.Encoding.Statement; decide

theorem Sys2Proof.Laws.Encoding.pair : Sys2Proof.Laws.Encoding.Statement .pair := by
  unfold Sys2Proof.Laws.Encoding.Statement; decide

theorem Sys2Proof.Laws.Encoding.pack8 : Sys2Proof.Laws.Encoding.Statement .pack8 := by
  unfold Sys2Proof.Laws.Encoding.Statement; decide

theorem Sys2Proof.Laws.Encoding.align : Sys2Proof.Laws.Encoding.Statement .align := by
  unfold Sys2Proof.Laws.Encoding.Statement; decide

theorem Sys2Proof.Laws.Encoding.packr : Sys2Proof.Laws.Encoding.Statement .packr := by
  unfold Sys2Proof.Laws.Encoding.Statement; decide

theorem Sys2Proof.Laws.Encoding.pflush : Sys2Proof.Laws.Encoding.Statement .pflush := by
  unfold Sys2Proof.Laws.Encoding.Statement; decide

theorem Sys2Proof.Laws.Encoding.pfull : Sys2Proof.Laws.Encoding.Statement .pfull := by
  unfold Sys2Proof.Laws.Encoding.Statement; decide

theorem Sys2Proof.Laws.Encoding.mark : Sys2Proof.Laws.Encoding.Statement .mark := by
  unfold Sys2Proof.Laws.Encoding.Statement; decide

theorem Sys2Proof.Laws.Encoding.clear : Sys2Proof.Laws.Encoding.Statement .clear := by
  unfold Sys2Proof.Laws.Encoding.Statement; decide
end

