-- ==== Sys2Proof/Laws/Races.lean ====
section
/-! SUPPORT. What a race (R266) can do: it makes its byte and exactly the results that depend on it free values. -/

namespace Sys2Proof.Machine

/-- One nibble replaced: that nibble is the new one, the other seven are as before. -/
theorem putNibble_get (w : Word) {j i : Nat} (v : BitVec 4) (hj : j < 8) (hi : i < 8) :
    (putNibble w j v).extractLsb' (4 * i) 4 = if i = j then v else w.extractLsb' (4 * i) 4 := by
  have bits : ∀ q, q < 32 → (0xF#32 : Word).getLsbD q = decide (q < 4) := by decide
  refine BitVec.eq_of_getElem_eq fun b hb => ?_
  simp only [BitVec.getElem_extractLsb', putNibble, BitVec.getLsbD_or, BitVec.getLsbD_and, BitVec.getLsbD_not,
    BitVec.getLsbD_shiftLeft, bits _ (show 4 * i + b - 4 * j < 32 by omega)]
  by_cases h : i = j
  · subst h
    simp [show 4 * i + b - 4 * i = b by omega, show 4 * i + b < 32 by omega, hb]
    omega
  · rw [if_neg h, BitVec.getElem_extractLsb']
    by_cases h2 : 4 * i + b < 4 * j
    · simp [h2, show 4 * i + b < 32 by omega]
    · have h3 : v.getLsbD (4 * i + b - 4 * j) = false := BitVec.getLsbD_of_ge _ _ (by omega)
      simp [h2, show 4 * i + b < 32 by omega, show ¬ (4 * i + b - 4 * j < 4) by omega, h3]

/-- A nibble no register has: nothing is replaced. -/
theorem putNibble_past (w : Word) {j : Nat} (v : BitVec 4) (hj : 8 ≤ j) : putNibble w j v = w := by
  have hz : ∀ x : Word, x <<< (4 * j) = 0#32 := fun x => BitVec.shiftLeft_eq_zero (by omega)
  simp only [putNibble, hz, BitVec.not_zero, BitVec.and_allOnes, BitVec.or_zero]

/-- Freeing nibble j: it is the next free value, the other fifteen are as before. -/
theorem nibbleAt_freeResult (t : State) {i : Nat} (j : Nat) (hi : i < 16) :
    nibbleAt (t.freeResult (.nibble j)) i =
      if i = j then (Config.freeByte t.freeCtr).extractLsb' 0 4 else nibbleAt t i := by
  by_cases hj : j < 8
  · by_cases h : i < 8
    · simp [nibbleAt, State.freeResult, hj, h, putNibble_get _ _ hj h]
    · simp [nibbleAt, State.freeResult, hj, h, show i ≠ j by omega]
  · by_cases h : i < 8
    · simp [nibbleAt, State.freeResult, hj, h, show i ≠ j by omega]
    · by_cases h16 : j < 16
      · simp [nibbleAt, State.freeResult, hj, h, putNibble_get _ _ (show j - 8 < 8 by omega) (show i - 8 < 8 by omega),
          show i - 8 = j - 8 ↔ i = j by omega]
      · simp [nibbleAt, State.freeResult, hj, h, putNibble_past _ _ (show 8 ≤ j - 8 by omega), show i ≠ j by omega]

/-- Freeing byte c of event i: a copy is one still, with that byte the next free value and the others as before. -/
theorem events_freeResult (t : State) (i c n : Nat) (o : Word) (bs : List Byte) :
    (t.freeResult (.eventByte i c)).events[n]? = some (.copyIntoDevice o bs) ↔
      ∃ bs', t.events[n]? = some (.copyIntoDevice o bs') ∧ bs = if n = i then bs'.set c (Config.freeByte t.freeCtr) else bs' := by
  simp only [State.freeResult, List.getElem?_modify]
  cases t.events[n]? with
  | none => simp
  | some e =>
    by_cases h : i = n
    · subst h
      cases e <;> simp [HsEvent.putByte, eq_comm]
    · simp [h, show n ≠ i from fun e => h e.symm]

/-- Freeing a nibble leaves memory and the events alone. -/
theorem freeResult_nibble (t : State) (j : Nat) :
    (t.freeResult (.nibble j)).mem = t.mem ∧ (t.freeResult (.nibble j)).events = t.events := by
  simp only [State.freeResult]
  split <;> exact ⟨rfl, rfl⟩

/-- A freed result holds a free value. -/
theorem freeResult_frees {s t : State} (hle : s.freeCtr ≤ t.freeCtr) (hwf : Memory.wf t.mem = true) (r : Result) :
    FreeIn s (t.freeResult r) r := by
  refine ⟨t.freeCtr, hle, by simp, ?_⟩
  cases r with
  | byte a => exact byteAt_write_same hwf
  | nibble j => exact fun hj => by rw [nibbleAt_freeResult t j hj, if_pos rfl]
  | eventByte i c =>
    intro o bs hev hc
    obtain ⟨bs', -, rfl⟩ := (events_freeResult t i c i o bs).mp hev
    rw [if_pos rfl, List.length_set] at hc
    simp [hc]

/-- Freeing another result leaves a free one free. -/
theorem freeResult_keeps_free {s t : State} (hwf : Memory.wf t.mem = true) {r : Result} (h : FreeIn s t r) (r' : Result) :
    FreeIn s (t.freeResult r') r := by
  by_cases hr : r = r'
  · obtain ⟨n, h1, h2, -⟩ := h
    exact hr ▸ freeResult_frees (by omega) hwf r
  obtain ⟨n, h1, h2, h3⟩ := h
  refine ⟨n, h1, by simp; omega, ?_⟩
  cases r with
  | byte a =>
    cases r' with
    | byte b => exact (byteAt_write_other fun e => hr (by rw [e])).trans h3
    | nibble j => simpa only [(freeResult_nibble t j).1] using h3
    | eventByte i c => exact h3
  | nibble j =>
    cases r' with
    | byte b => exact h3
    | nibble i => exact fun hj => by rw [nibbleAt_freeResult t i hj, if_neg fun e => hr (by rw [e])]; exact h3 hj
    | eventByte i c => exact h3
  | eventByte i c =>
    cases r' with
    | byte b => exact h3
    | nibble j => simpa only [(freeResult_nibble t j).2] using h3
    | eventByte i' c' =>
      intro o bs hev hc
      obtain ⟨bs', he, rfl⟩ := (events_freeResult t i' c' i o bs).mp hev
      by_cases hi : i = i'
      · rw [if_pos hi, List.length_set] at hc
        rw [if_pos hi, List.getElem?_set_ne fun e => hr (by rw [hi, e])]
        exact h3 o bs' he hc
      · rw [if_neg hi] at hc ⊢
        exact h3 o bs' he hc

/-- Freeing another result leaves a result as it was. -/
theorem freeResult_keeps {s t : State} {r : Result} (h : ResultKept s t r) {r' : Result} (hr : r' ≠ r) :
    ResultKept s (t.freeResult r') r := by
  cases r with
  | byte a =>
    cases r' with
    | byte b => exact (byteAt_write_other fun e => hr (by rw [e])).trans h
    | nibble j => simpa only [ResultKept, (freeResult_nibble t j).1] using h
    | eventByte i c => exact h
  | nibble j =>
    cases r' with
    | byte b => exact h
    | nibble i => exact fun hj => by rw [nibbleAt_freeResult t i hj, if_neg fun e => hr (by rw [e])]; exact h hj
    | eventByte i c => exact h
  | eventByte i c =>
    cases r' with
    | byte b => exact h
    | nibble j => simpa only [ResultKept, (freeResult_nibble t j).2] using h
    | eventByte i' c' =>
      intro o bs hev
      obtain ⟨bs', he, hb⟩ := h o bs hev
      refine ⟨_, (events_freeResult t i' c' i o _).mpr ⟨bs', he, rfl⟩, ?_⟩
      split
      · next hi => rw [List.getElem?_set_ne fun e => hr (by rw [hi, e]), hb]
      · exact hb

/-- A number of a result that depends on byte a, and the result. -/
abbrev Reached (us : List Use) (a : Word) (r : Result) : Prop := ∃ n u, us[n]? = some u ∧ DependsOn us a n ∧ u.result = r

/-- The addresses raced when results from number n on are looked at: a, and every byte that depends on it with a number below n. -/
def RacedBefore (us : List Use) (a : Word) (n : Nat) (b : Word) : Prop :=
  b = a ∨ ∃ m v, m < n ∧ us[m]? = some v ∧ DependsOn us a m ∧ v.result = .byte b

/-- Looking at result n, freeDependents decides DependsOn. -/
theorem dependsOn_iff {us : List Use} {a : Word} {n : Nat} {u : Use} {as : List Word} (hu : us[n]? = some u)
    (has : ∀ b, b ∈ as ↔ RacedBefore us a n b) : u.dependsOn as = true ↔ DependsOn us a n := by
  simp only [Use.dependsOn, List.any_eq_true]
  constructor
  · rintro ⟨b, hb, hc⟩
    rcases (has b).mp hb with rfl | ⟨m, v, hm, hv, hd, hr⟩
    · exact .direct hu hc
    · exact .through hm hd hv hr hu hc
  · rintro (⟨hu', hc⟩ | ⟨hm, hd, hv, hr, hu', hc⟩)
    · rw [hu] at hu'
      cases hu'
      exact ⟨a, (has a).mpr (Or.inl rfl), hc⟩
    · rw [hu] at hu'
      cases hu'
      exact ⟨_, (has _).mpr (Or.inr ⟨_, _, hm, hv, hd, hr⟩), hc⟩

theorem racedBefore_succ {us : List Use} {a : Word} {n : Nat} {u : Use} (hu : us[n]? = some u) (b : Word) :
    RacedBefore us a (n + 1) b ↔ RacedBefore us a n b ∨ (DependsOn us a n ∧ u.result = .byte b) := by
  constructor
  · rintro (h | ⟨m, v, hm, hv, hd, hr⟩)
    · exact Or.inl (Or.inl h)
    · rcases Nat.lt_succ_iff_lt_or_eq.mp hm with h | rfl
      · exact Or.inl (Or.inr ⟨m, v, h, hv, hd, hr⟩)
      · rw [hu] at hv
        cases hv
        exact Or.inr ⟨hd, hr⟩
  · rintro ((h | ⟨m, v, hm, hv, hd, hr⟩) | ⟨hd, hr⟩)
    · exact Or.inl h
    · exact Or.inr ⟨m, v, by omega, hv, hd, hr⟩
    · exact Or.inr ⟨n, u, by omega, hu, hd, hr⟩

theorem mem_addresses {r : Result} {b : Word} : b ∈ r.addresses ↔ r = .byte b := by
  cases r <;> simp [Result.addresses, eq_comm]

/-- What freeDependents does to the results from number n on: it frees exactly those that depend on byte a, and lists their bytes. -/
theorem freeDependents_spec {us : List Use} {a : Word} (post : List Use) : ∀ {n : Nat} {as : List Word} (t : State),
    us.drop n = post → (∀ b, b ∈ as ↔ RacedBefore us a n b) →
    (∀ b, b ∈ (t.freeDependents as post).2 ↔ b = a ∨ Reached us a (.byte b)) ∧
      (∀ Q : State → Prop, (∀ r x, Reached us a r → Q x → Q (x.freeResult r)) → Q t → Q (t.freeDependents as post).1) ∧
      ∀ s : State, s.freeCtr ≤ t.freeCtr → Memory.wf t.mem = true → ∀ m u, n ≤ m → us[m]? = some u → DependsOn us a m →
        FreeIn s (t.freeDependents as post).1 u.result := by
  induction post with
  | nil =>
    intro n as t hd has
    have hlen : us.length ≤ n := List.drop_eq_nil_iff.mp hd
    refine ⟨fun b => (has b).trans (or_congr_right ?_), fun _ _ h => h, fun s _ _ m u hm hu => ?_⟩
    · exact ⟨fun ⟨m, v, _, hv, h1, h2⟩ => ⟨m, v, hv, h1, h2⟩,
        fun ⟨m, v, hv, h1, h2⟩ => ⟨m, v, Nat.lt_of_lt_of_le (List.getElem?_eq_some_iff.mp hv).1 hlen, hv, h1, h2⟩⟩
    · rw [List.getElem?_eq_none (by omega)] at hu
      cases hu
  | cons u post ih =>
    intro n as t hd has
    have hu : us[n]? = some u := by
      have := congrArg (·[0]?) hd
      simpa using this
    have hd' : us.drop (n + 1) = post := by
      rw [← List.drop_drop, hd]
      rfl
    rw [State.freeDependents]
    split
    · next hdep =>
      have hdep := (dependsOn_iff hu has).mp hdep
      have has' : ∀ b, b ∈ u.result.addresses ++ as ↔ RacedBefore us a (n + 1) b := fun b => by
        rw [List.mem_append, mem_addresses, has, racedBefore_succ hu]
        tauto
      obtain ⟨h1, h2, h3⟩ := ih (t.freeResult u.result) hd' has'
      refine ⟨h1, fun Q hq ht => h2 Q hq (hq _ t ⟨n, u, hu, hdep, rfl⟩ ht), fun s hs hwf m v hm hv hdm => ?_⟩
      rcases Nat.eq_or_lt_of_le hm with rfl | hm
      · rw [hu] at hv
        cases hv
        exact (h2 (fun x => Memory.wf x.mem = true ∧ FreeIn s x u.result)
          (fun r x _ hx => ⟨freeResult_wf r hx.1, freeResult_keeps_free hx.1 hx.2 r⟩)
          ⟨freeResult_wf _ hwf, freeResult_frees hs hwf _⟩).2
      · exact h3 s (by simp; omega) (freeResult_wf _ hwf) m v hm hv hdm
    · next hdep =>
      have hdep := mt (dependsOn_iff hu has).mpr hdep
      obtain ⟨h1, h2, h3⟩ := ih t hd' fun b => by
        rw [has, racedBefore_succ hu]
        exact (or_iff_left fun h => hdep h.1).symm
      refine ⟨h1, h2, fun s hs hwf m v hm hv hdm => ?_⟩
      rcases Nat.eq_or_lt_of_le hm with rfl | hm
      · exact absurd hdm hdep
      · exact h3 s hs hwf m v hm hv hdm

end Sys2Proof.Machine
end

