-- ==== Sys2Proof/Laws/Reach.lean ====
section
/-! SUPPORT. The ranges of Machine/Reach.lean byte by byte: which pixel or which plane byte each of them belongs to. -/

namespace Sys2Proof.Machine

/-- Pixels of a surface row lie side by side (R63). -/
theorem pixAddr_add (g : Regs) (px py i : Nat) : pixAddr g px py + BitVec.ofNat 32 (4 * i) = pixAddr g (px + i) py := by
  rw [pixAddr, pixAddr, BitVec.add_assoc, ← BitVec.ofNat_add]
  congr 2
  omega

/-- The surface bytes of a region are those its pixels' 4-byte reads cover. -/
theorem regionReads_pixel (g : Regs) (r : Region) (a : Word) : coveredBy (regionReads g r) a = true ↔
    ∃ y, y < r.h ∧ ∃ i, i < r.w ∧ (a - pixAddr g (r.x + i) (r.y + y)).toNat < 4 := by
  simp only [coveredBy, regionReads, List.any_map, List.any_eq_true, List.mem_range, Function.comp]
  refine exists_congr fun y => and_congr_right fun _ => ?_
  rw [covers_words]
  simp only [pixAddr_add]

/-- The surface is what the 4-byte reads of its pixels cover. -/
theorem surfaceRange_pixel (g : Regs) (a : Word) : covers (surfaceRange g) a = true ↔
    ∃ x y, x < g.surfW.toNat ∧ y < g.surfH.toNat ∧ (a - pixAddr g x y).toNat < 4 := by
  rw [surfaceRange, covers_words]
  constructor
  · rintro ⟨n, hn, h⟩
    obtain ⟨hx, hy, he⟩ := number_pos hn
    exact ⟨_, _, hx, hy, by rwa [pixAddr, he]⟩
  · rintro ⟨x, y, hx, hy, h⟩
    exact ⟨_, index_lt hx hy, h⟩

/-- QSURF8's output range is the bytes of its pixels (R76, R114). -/
theorem qsurfOut_pixel (g : Regs) (a : Word) : covers (qsurfOut g) a = true ↔
    ∃ x y, x < g.surfW.toNat ∧ y < g.surfH.toNat ∧ a = qsurfAddr g x y := by
  rw [qsurfOut, covers_bytes]
  constructor
  · rintro ⟨n, hn, rfl⟩
    obtain ⟨hx, hy, he⟩ := number_pos hn
    exact ⟨_, _, hx, hy, by rw [qsurfAddr, he]⟩
  · rintro ⟨x, y, hx, hy, rfl⟩
    exact ⟨_, index_lt hx hy, rfl⟩

/-- A region's output range is the bytes of its four plane buffers (R76, R144). -/
theorem packOut_planes (g : Regs) (r : Region) (a : Word) : covers (packOut g r) a = true ↔
    ∃ k c y, k < 4 ∧ c < rowBytes r ∧ y < r.h ∧ a = packAddr g r k c y := by
  rw [packOut, covers_bytes]
  constructor
  · rintro ⟨n, hn, rfl⟩
    obtain ⟨h1, h2, h3⟩ := number_pos (show n < planeSize r * 4 by omega)
    obtain ⟨h4, h5, h6⟩ := number_pos (show n % planeSize r < rowBytes r * r.h from h1)
    refine ⟨_, _, _, h2, h4, h5, ?_⟩
    rw [packAddr]
    congr 2
    omega
  · rintro ⟨k, c, y, hk, hc, hy, rfl⟩
    exact ⟨_, pidx_lt hk hc hy, rfl⟩

end Sys2Proof.Machine
end

