-- ==== Sys2Proof/Machine/HostPrograms.lean ====
section
/-! DEFINITION. Host software the spec writes out, as lists of host actions: the line forms (R89), the pseudo-instructions (R90), the
flush dispatch (R192), the frame-buffer lifecycle (R263, R264). They have no meaning beyond their actions. -/

namespace Sys2Proof.Machine

/-- `wr NAME, v`: a 32-bit store to BDQ_BASE + offset(NAME) (R89). -/
def wr (k : Config) (r : Reg) (v : Word) : HostAction := .store (k.base + BitVec.ofNat 32 r.offset) .word v

/-- `rd NAME -> x` (R89). -/
def rd (k : Config) (r : Reg) (x : Nat) : HostAction := .load (k.base + BitVec.ofNat 32 r.offset) .word x

/-- `mw32 a, v` (R89). -/
def mw32 (a v : Word) : HostAction := .store a .word v

/-- `mr8 a -> x` (R89). -/
def mr8 (a : Word) (x : Nat) : HostAction := .load a .byte x

/-- The number of the host variable s of R89's poll (log entry 22). -/
def pollVar : Nat := 0

/-- `poll`: repeat `rd STATUS -> s` until s[0] = 0 (R89). -/
def poll : HostAction := .poll pollVar

/-- A command mnemonic alone: `wr CMD, zext_32(OP)` (R89). -/
def issue (k : Config) (i : Instr) : HostAction := wr k .cmd (encode i)

/-- `nearest c -> x` (R90). -/
def pseudoNearest (k : Config) (c : Word) (x : Nat) : List HostAction :=
  [wr k .arg0 c, issue k .nearest, poll, rd k .res0 x]

/-- `dthr x, y -> v` (R90). -/
def pseudoDthr (k : Config) (x y v : Nat) : List HostAction :=
  [wr k .arg0 (halves y x), issue k .dthr, poll, rd k .res0 v]

/-- `qpix c, x, y -> v` (R90). -/
def pseudoQpix (k : Config) (c : Word) (x y v : Nat) : List HostAction :=
  [wr k .arg0 c, wr k .arg1 (halves y x), issue k .qpix, poll, rd k .res0 v]

/-- `remap a, n` (R90). -/
def pseudoRemap (k : Config) (a n : Word) : List HostAction :=
  [wr k .arg0 a, wr k .arg1 n, issue k .remap, poll]

/-- `pack8 v -> x` (R90). -/
def pseudoPack8 (k : Config) (v : Word) (x : Nat) : List HostAction :=
  [wr k .arg0 v, issue k .pack8, poll, rd k .res0 x]

/-- The rectangle operands of MARK, ALIGN and PACKR, then command i and a poll (R90). -/
def pseudoRect (k : Config) (i : Instr) (x y w h : Nat) : List HostAction :=
  [wr k .arg0 (halves y x), wr k .arg1 (halves h w), issue k i, poll]

/-- `mark x, y, w, h` (R90). -/
def pseudoMark (k : Config) (x y w h : Nat) : List HostAction := pseudoRect k .mark x y w h

/-- `align x, y, w, h` (R90). -/
def pseudoAlign (k : Config) (x y w h : Nat) : List HostAction := pseudoRect k .align x y w h

/-- `packr x, y, w, h` (R90). -/
def pseudoPackr (k : Config) (x y w h : Nat) : List HostAction := pseudoRect k .packr x y w h

/-- `clrerr` (R90). -/
def clrerr (k : Config) : HostAction := wr k .status 0x00000008#32

/-- The host's FlushFrameBuffer for a planar frame buffer, given STATUS.DIRTY as the host read it (R192). -/
def flushFrameBuffer (k : Config) (dirty : Bool) : List HostAction :=
  [issue k (if dirty then .pflush else .pfull), poll]

/-- DestroyFrameBuffer (R264), and step 1 of R263. -/
def destroyFrameBuffer (k : Config) : List HostAction := [wr k .ctrl 0#32, issue k .clear, poll]

/-- Filling a surface of n pixels at address a with opaque black (R263 step 3). -/
def fillBlack (a : Word) (n : Nat) : List HostAction :=
  (List.range n).map fun i => mw32 (a + BitVec.ofNat 32 (4 * i)) 0xFF000000#32

/-- The boot order of R263 for a w × h screen with its surface at `surf` and its output buffer at `out`. -/
def createFrameBuffer (k : Config) (w h : Nat) (surf out : Word) : List HostAction :=
  destroyFrameBuffer k ++ [wr k .scrW (BitVec.ofNat 32 w), wr k .scrH (BitVec.ofNat 32 h), wr k .surfBase surf,
    wr k .surfW (BitVec.ofNat 32 w), wr k .surfH (BitVec.ofNat 32 h)] ++ fillBlack surf (w * h) ++
    [wr k .outBase out, issue k .lutinit, poll, wr k .ctrl 1#32, issue k .pfull, poll]

end Sys2Proof.Machine
end

