-- ==== Sys2Proof/Tests/Slice0.lean ====
section
/-! SUPPORT. The model's own tests: the well-formedness smoke test, decoding of words written out from R81 and R84, vectors of
spec/95_test_vectors.md run for one step, and a witness for the hypotheses of every statement. -/

namespace Sys2Proof.Tests

open Sys2Proof Sys2Proof.Machine

/-! ### Helpers -/

/-- A state of the reset machine with word c accepted under the registers g: the next step executes it. -/
def ready (c : Word) (g : Regs) : State := { State.reset with regs := g, latch := some { word := c, regs := g } }

/-- The outcome is a next state with the property. -/
def answers (o : Host.Outcome State Fault Refusal) (p : State → Bool) : Bool :=
  match o with
  | .next t => p t
  | .fault _ => false
  | .refused _ => false

/-- The reset registers with ARG0 and ARG1. -/
def args (a b : Word) : Regs := { Regs.reset with arg0 := a, arg1 := b }

/-- n words 0x00AAAAAA from address a on (their zero bytes are not listed). -/
def gray (a n : Nat) : Memory :=
  (List.range n).flatMap fun i => [(a + 4 * i, 0xAA#8), (a + 4 * i + 1, 0xAA#8), (a + 4 * i + 2, 0xAA#8)]

/-- Registers of a w × h surface at `surf` with its output at `out`, the screen of the same size and HSEN = 1. -/
def surface (w h : Nat) (surf out a b : Word) : Regs :=
  { Regs.reset with
    hsen := true
    arg0 := a
    arg1 := b
    scrW := BitVec.ofNat 16 w
    scrH := BitVec.ofNat 16 h
    surfBase := surf
    surfW := BitVec.ofNat 16 w
    surfH := BitVec.ofNat 16 h
    outBase := out }

/-- A pending dirty rectangle. -/
def dirtyRect (x y w h : Nat) : Dirty := Dirty.clean.mark x y w h

/-- Parameters under which accesses of one direction at one address fail. -/
def failing (a : Word) (d : Dir) : Config := { defaultConfig with memErr := [{ first := a, last := a, dir := d }] }

/-- The bytes of memory at a and the n − 1 addresses after it. -/
def bytesAt (m : Memory) (a n : Nat) : List Byte := (List.range n).map fun i => Memory.read m (a + i)

/-! ### Well-formedness smoke: each check refuses an ill-formed term and admits a well-formed one -/

theorem test_rsvZero_refuses : rsvZero 0x00000100#32 = false ∧ rsvZero 0x80000000#32 = false ∧ rsvZero 0x000000FF#32 = true := by
  decide

theorem test_baseAligned_refuses :
    Config.baseAligned { defaultConfig with base := 0xFFFF0080#32 } = false ∧
      Config.baseAligned { defaultConfig with base := 0xFFFF0000#32 } = true := by decide

theorem test_graySeven_refuses :
    Palette.graySeven { defaultPalette with p7 := rgb 0xAA 0xAA 0xAB } = false ∧ Palette.graySeven defaultPalette = true := by
  decide

theorem test_distinct_refuses :
    distinct [rgb 1 2 3, rgb 0 0 0, rgb 1 2 3] = false ∧ distinct [rgb 1 2 3, rgb 0 0 0, rgb 1 2 4] = true := by decide

theorem test_paletteWf_refuses :
    Palette.wf { defaultPalette with p15 := rgb 0 0 0 } = false ∧
      Palette.wf { defaultPalette with p7 := rgb 1 1 1 } = false ∧ Palette.wf defaultPalette = true := by decide

theorem test_configWf_refuses :
    Config.wf { defaultConfig with base := 1#32 } = false ∧
      Config.wf { defaultConfig with palette := { defaultPalette with p0 := rgb 0xAA 0xAA 0xAA } } = false ∧
      Config.wf defaultConfig = true := by decide

theorem test_memoryWf_refuses :
    Memory.wf [(5, 1#8), (4, 1#8)] = false ∧ Memory.wf [(4, 1#8), (4, 1#8)] = false ∧ Memory.wf [(4, 0#8)] = false ∧
      Memory.wf [(4294967296, 1#8)] = false ∧ Memory.wf [(4, 1#8), (4294967295, 2#8)] = true := by decide

theorem test_dirtyWf_refuses :
    Dirty.wf { dv := true, dl := 5#16, dt := 0#16, dr := 4#17, db := 0#17 } = false ∧
      Dirty.wf { dv := false, dl := 1#16, dt := 0#16, dr := 0#17, db := 0#17 } = false ∧
      Dirty.wf (dirtyRect 65535 65535 65535 65535) = true := by decide

theorem test_errWf_refuses :
    ErrRec.wf { err := true, code := 0#4, addr := 0#32, cmd := 0#32 } = false ∧
      ErrRec.wf { err := true, code := 7#4, addr := 0#32, cmd := 0#32 } = false ∧
      ErrRec.wf { err := false, code := 0#4, addr := 4#32, cmd := 0#32 } = false ∧
      ErrRec.wf { err := true, code := 6#4, addr := 4#32, cmd := 4#32 } = true := by decide

/-! ### Decoding: words written out bit by bit, RSV in bits 31..8 and OP in bits 7..0 (R81, R84) -/

theorem test_decode_control : decode 0b00000000_00000000_00000000_00000000#32 = .ok .nop := by decide

theorem test_decode_quantizer :
    decode 0b00000000_00000000_00000000_00000001#32 = .ok .nearest ∧
      decode 0b00000000_00000000_00000000_00000100#32 = .ok .remap := by decide

theorem test_decode_packer :
    decode 0b00000000_00000000_00000000_00010010#32 = .ok .pack8 ∧
      decode 0b00000000_00000000_00000000_00010100#32 = .ok .packr := by decide

theorem test_decode_flush :
    decode 0b00000000_00000000_00000000_00100000#32 = .ok .pflush ∧
      decode 0b00000000_00000000_00000000_00100001#32 = .ok .pfull := by decide

theorem test_decode_dirty :
    decode 0b00000000_00000000_00000000_00110000#32 = .ok .mark ∧
      decode 0b00000000_00000000_00000000_00110001#32 = .ok .clear := by decide

/-- R85: the first and last OP of every gap of the map. -/
theorem test_decode_illegal :
    ∀ o ∈ [0x06, 0x0F, 0x15, 0x1F, 0x22, 0x2F, 0x32, 0xFF], decode (BitVec.ofNat 32 o) = .error .illegalOpcode := by decide

/-- R88: OP is checked before RSV. -/
theorem test_decode_order :
    decode 0x00000101#32 = .error .reservedBits ∧ decode 0x80000031#32 = .error .reservedBits ∧
      decode 0x00000106#32 = .error .illegalOpcode := by decide

theorem test_decodeTableWord :
    decodeTableWord 32 0x14 = some .packr ∧ decodeTableWord 8 0x31 = some .clear ∧ decodeTableWord 32 0x114 = none := by decide

theorem test_withFetchWord :
    answers (step (State.reset.withFetchWord 32 0x10)) (fun t => t.lutrdy && !t.busy) = true ∧
      answers (step (State.reset.withFetchWord 32 0x06)) (fun t => t.errs.code = 1#4 && t.errs.cmd = 6#32) = true := by decide

/-! ### Vectors of spec/95_test_vectors.md, one step each -/

/-- V-NEAR: the tie of entries 0 and 4 goes to 0. -/
theorem test_nearest_tie :
    answers (step (ready 1#32 (args 0x00550000#32 0#32))) (fun t => t.res0 = 0#32 && t.res1 = 7225#32) = true := by decide

/-- V-NEAR: 0x00123456. -/
theorem test_nearest_squares :
    answers (step (ready 1#32 (args 0x00123456#32 0#32))) (fun t => t.res0 = 8#32 && t.res1 = 5579#32) = true := by decide

/-- S3. -/
theorem test_dthr_origin :
    answers (step (ready 2#32 (args 0#32 0#32))) (fun t => t.res0 = 0xFFFFFFC0#32 && t.res1 = 0#32) = true := by decide

/-- V-DTHR: x = 6, y = 5 is cell (2, 1). -/
theorem test_dthr_cell :
    answers (step (ready 2#32 (args 0x00050006#32 0#32))) (fun t => t.res0 = 0x30#32 && t.res1 = 14#32) = true := by decide

/-- S6: the clamp at 255. -/
theorem test_qpix_clamp_high :
    answers (step (ready 3#32 (args 0x00FA0000#32 0x00030000#32))) (fun t => t.res0 = 12#32 && t.res1 = 0x00FF3838#32) = true := by
  decide

/-- V-QPIX: red and green clamp to 0. -/
theorem test_qpix_clamp_low :
    answers (step (ready 3#32 (args 0x00123456#32 0x00020002#32))) (fun t => t.res0 = 0#32 && t.res1 = 0x0000001E#32) = true := by
  decide

/-- V-REMAP: two entries. -/
theorem test_remap_two :
    answers (step { ready 4#32 (args 0x3000#32 2#32) with mem := gray 0x3000 1 ++ [(0x3006, 0xFF#8)] })
      (fun t => t.res0 = 0x47#32 && t.res1 = 0#32) = true := by decide

/-- V-REMAP: a misaligned table is reported, and none is asked for when nothing is read. -/
theorem test_remap_misaligned :
    answers (step (ready 4#32 (args 0x3002#32 2#32)))
        (fun t => t.errs.code = 5#4 && t.errs.addr = 0x3002#32 && t.errs.cmd = 4#32) = true ∧
      answers (step (ready 4#32 (args 0x3001#32 0#32))) (fun t => !t.errs.err && t.res0 = 0#32 && t.res1 = 0#32) = true := by decide

/-- V-QSURF8: 2×1 surface. -/
theorem test_qsurf8_row :
    answers (step { ready 5#32 (surface 2 1 0x1000#32 0x4000#32 0#32 0#32) with mem := gray 0x1000 2 })
      (fun t => bytesAt t.mem 0x4000 2 = [0x08#8, 0x07#8]) = true := by decide

/-- V-QSURF8: no pixel, no error; with pixels, Misaligned. -/
theorem test_qsurf8_misaligned :
    answers (step (ready 5#32 (surface 0 4 0x1001#32 0x4000#32 0#32 0#32))) (fun t => !t.errs.err) = true ∧
      answers (step (ready 5#32 (surface 4 4 0x1001#32 0x4000#32 0#32 0#32)))
        (fun t => t.errs.code = 5#4 && t.errs.addr = 0x1001#32 && t.mem = []) = true := by decide

/-- V-LUTINIT. -/
theorem test_lutinit : answers (step (ready 0x10#32 Regs.reset)) (fun t => t.status = 2#32) = true := by decide

/-- V-PAIR: 0x12 and the ignored bits of ARG0. -/
theorem test_pair :
    answers (step (ready 0x11#32 (args 0x12#32 0#32))) (fun t => t.res0 = 0x00000102#32 && t.lutrdy) = true ∧
      answers (step (ready 0x11#32 (args 0xFFFFFF00#32 0#32))) (fun t => t.res0 = 0#32) = true := by decide

/-- V-PACK8. -/
theorem test_pack8 :
    answers (step (ready 0x12#32 (args 0x89ABCDEF#32 0#32))) (fun t => t.res0 = 0xFF0F3355#32) = true ∧
      answers (step (ready 0x12#32 (args 0x10000000#32 0#32))) (fun t => t.res0 = 0x80#32) = true := by decide

/-- S12. -/
theorem test_align_grows :
    answers (step (ready 0x13#32 (surface 640 480 0#32 0#32 0x000A000A#32 0x000F000F#32)))
      (fun t => t.res0 = 0x000A0008#32 && t.res1 = 0x000F0018#32 && !t.lutrdy) = true := by decide

/-- V-ALIGN: clipped, and the surface whose width is no multiple of 8. -/
theorem test_align_clips :
    answers (step (ready 0x13#32 (surface 16 16 0#32 0#32 0x000E000C#32 0x000A000A#32)))
        (fun t => t.res0 = 0x000E0008#32 && t.res1 = 0x00020008#32) = true ∧
      answers (step (ready 0x13#32 (surface 12 16 0#32 0#32 0#32 0#32)))
        (fun t => t.errs.code = 4#4 && t.errs.cmd = 0x13#32) = true := by decide

/-- V-PACKR-2: region (3, 1, 2, 1) of the 16×16 gray surface; its row 1 is the one read. -/
theorem test_packr_row :
    answers (step { ready 0x14#32 (surface 16 16 0x1000#32 0x2000#32 0x00010003#32 0x00010002#32) with mem := gray 0x1040 8 })
      (fun t => bytesAt t.mem 0x2000 5 = [0xFF#8, 0xFF#8, 0xFF#8, 0x22#8, 0#8] && t.res0 = 0x00010000#32 &&
        t.res1 = 0x00010008#32 && t.lutrdy) = true := by decide

/-- V-PACKR-3: Misaligned, LUTRDY set. -/
theorem test_packr_misaligned :
    answers (step (ready 0x14#32 (surface 8 1 0x1002#32 0x2000#32 0#32 0x00010008#32)))
      (fun t => t.status = 0x5A#32 && t.errs.addr = 0x1002#32 && t.errs.cmd = 0x14#32 && t.mem = []) = true := by decide

/-- V-PFLUSH-1 for its first row alone: dirty (10, 10, 1, 1) is region (8, 10, 8, 1), row 10 is a row of 2 mod 4. -/
theorem test_pflush_row :
    answers (step { ready 0x20#32 (surface 16 16 0x1000#32 0x2000#32 0#32 0#32) with
        mem := gray 0x12A0 8, dirty := dirtyRect 10 10 1 1 })
      (fun t => t.events = [.selectPlane 0#2, .copyIntoDevice 21#32 [0xDD#8], .selectPlane 1#2, .copyIntoDevice 21#32 [0xDD#8],
          .selectPlane 2#2, .copyIntoDevice 21#32 [0xDD#8], .selectPlane 3#2, .copyIntoDevice 21#32 [0x22#8],
          .outPort 0x3C4#16 0x02#8, .outPort 0x3C5#16 0x0F#8] &&
        t.res0 = 0x000A0008#32 && t.res1 = 0x00010008#32 && t.dirty = Dirty.clean) = true := by decide

/-- R190: clean, PFLUSH emits nothing. -/
theorem test_pflush_clean :
    answers (step (ready 0x20#32 (surface 16 16 0x1000#32 0x2000#32 0#32 0#32)))
      (fun t => t.events = [] && t.status = 2#32 && t.res1 = 0#32) = true := by decide

/-- R191 on an 8×1 screen: row 0 of the gray surface (V-PACKR-1), the dirty state stays. -/
theorem test_pfull_row :
    answers (step { ready 0x21#32 (surface 8 1 0x1000#32 0x2000#32 0#32 0#32) with
        mem := gray 0x1000 8, dirty := dirtyRect 0 0 1 1 })
      (fun t => bytesAt t.mem 0x2000 4 = [0x55#8, 0x55#8, 0x55#8, 0xAA#8] && t.events.length = 10 && t.dirty.dv &&
        t.res0 = 0#32 && t.res1 = 0x00010008#32) = true := by decide

/-- R185: a surface that is not the screen. -/
theorem test_pfull_geometry :
    answers (step (ready 0x21#32 { surface 16 16 0x1000#32 0x2000#32 0#32 0#32 with scrH := 8#16 }))
      (fun t => t.errs.code = 4#4 && t.events = [] && t.lutrdy) = true := by decide

/-- S9. -/
theorem test_mark_union :
    answers (step { ready 0x30#32 (args 0x00140014#32 0x00050005#32) with dirty := dirtyRect 10 10 5 5 })
      (fun t => readReg t .dirtyX = 10#32 && readReg t .dirtyY = 10#32 && readReg t .dirtyW = 15#32 && readReg t .dirtyH = 15#32 &&
        t.status = 4#32) = true := by decide

/-- R37: an edge needs 17 bits. -/
theorem test_mark_wide :
    answers (step (ready 0x30#32 (args 0xFFFFFFFF#32 0xFFFFFFFF#32)))
      (fun t => readReg t .dirtyX = 65535#32 && readReg t .dirtyW = 65535#32 && t.dirty.dr.toNat = 131070) = true := by decide

/-- S10. -/
theorem test_clear :
    answers (step { ready 0x31#32 Regs.reset with dirty := dirtyRect 3 4 5 6 }) (fun t => t.dirty = Dirty.clean && t.status = 0#32) =
      true := by decide

theorem test_nop : answers (step (ready 0#32 (args 1#32 2#32))) (fun t => t.status = 0#32 && t.regs = args 1#32 2#32) = true := by
  decide

/-! ### The host's side -/

/-- R40, R233: a CMD write while BUSY = 1 is dropped and recorded with the dropped word. -/
theorem test_busy_command :
    answers (step { ready 1#32 Regs.reset with turns := [.host], host := [issue defaultConfig .dthr] })
      (fun t => t.busy && t.errs.code = 3#4 && t.errs.cmd = 2#32 && t.cmd.word = 1#32) = true := by decide

/-- R20: a byte store to the window is refused, also one that only straddles into it. -/
theorem test_window_narrow :
    hostStore 0xFF#32 .byte 1#32 State.reset = .refused .hostAccess ∧
      hostStore 0xFFFFFFFF#32 .half 1#32 State.reset = .refused .hostAccess ∧
      answers (hostStore 0xFFFFFFFF#32 .byte 1#32 State.reset) (fun t => t.mem = [(0xFFFFFFFF, 1#8)]) = true := by
  refine ⟨rfl, rfl, ?_⟩
  decide

/-- R34 and R35 through the bus. -/
theorem test_window_reads :
    answers (hostLoad 0x9C#32 .word 1 State.reset) (fun t => t.vars = [(1, 0x00AAAAAA#32)]) = true ∧
      answers (hostLoad 0xC4#32 .word 2 State.reset) (fun t => t.vars = [(2, 0x060E040C#32)]) = true ∧
      answers (hostLoad 0x58#32 .word 3 State.reset) (fun t => t.vars = [(3, 0#32)]) = true := by decide

/-- R265: an early read of RES0 shows the previous value, a STATUS read with BUSY = 0 makes the result visible. -/
theorem test_early_read :
    answers (step ((State.reset.setRes0 9#32).placeCommand 0x02#32))
      (fun t => readReg t .res0 = 9#32 && readReg (afterRead t .status) .res0 = 0xFFFFFFC0#32) = true := by decide

/-- R26, R38, R265: a MARK has executed, BUSY = 0 was not read and a second command is accepted: STATUS shows DIRTY = DV = 1 and
BUSY = 1, DIRTY_W still the width from before. -/
theorem test_dirty_bit :
    answers (step (State.placeCommand 0x30#32 { State.reset with regs := args 0x00020001#32 0x00040003#32 }))
      (fun t => readReg (t.writeCmd 0#32) .status = 5#32 && readReg (t.writeCmd 0#32) .dirtyW = 0#32 &&
        readReg (afterRead t .status) .dirtyW = 3#32) = true := by decide

/-- R89: a poll binds every STATUS value it reads and goes on while bit 0 is 1. -/
theorem test_poll :
    answers (step { ready 0x10#32 Regs.reset with turns := [.host], host := [.poll 7] })
        (fun t => t.vars = [(7, 1#32)] && t.host = [.poll 7]) = true ∧
      answers (step { State.reset.setLutrdy with host := [.poll 7] }) (fun t => t.vars = [(7, 2#32)] && t.host = []) = true := by
  decide

/-- R266: REMAP of two entries at 0x3000 has executed and BUSY = 0 was not read. A store to a colour byte of entry 1 frees the byte
and a result, one to its alpha byte, on which no result depends (R83), frees the byte alone; after a STATUS read both are plain. -/
theorem test_race_after_execution :
    answers (step (State.placeCommand 4#32 { State.reset with regs := args 0x3000#32 2#32, mem := gray 0x3000 2 })) (fun t =>
      answers (hostStore 0x3006#32 .byte 1#32 t) (fun u => u.freeCtr = 2) &&
      answers (hostStore 0x3007#32 .byte 1#32 t) (fun u => u.freeCtr = 1 && u.res0 = 0x77#32) &&
      answers (hostStore 0x3006#32 .byte 1#32 (afterRead t .status)) (fun u => u.freeCtr = 0 && Memory.read u.mem 0x3006 = 1#8)) =
      true := by decide

/-- R62: little-endian. -/
theorem test_host_word :
    answers (hostStore 0x3000#32 .word 0x11223344#32 State.reset)
      (fun t => t.mem = [(0x3000, 0x44#8), (0x3001, 0x33#8), (0x3002, 0x22#8), (0x3003, 0x11#8)]) = true := by decide

/-- R236: a failing read ends REMAP with the failing address, RES unchanged. -/
theorem test_bus_error :
    answers (step { ready 4#32 (args 0x3000#32 2#32) with cfg := failing 0x3004#32 .read, res0 := 9#32 })
      (fun t => t.errs.code = 6#4 && t.errs.addr = 0x3004#32 && t.res0 = 9#32) = true := by decide

/-! ### Witnesses: for every statement with hypotheses, a concrete state and operands that meet all of them, at the boundaries of
its clauses -/

/-- DecodeEncodeAgree: both sides hold somewhere. -/
theorem witness_decodeEncodeAgree : decode 0x00000031#32 = .ok .clear ∧ 0x00000031#32 = encode .clear := by decide

/-- DecodeOrderTotal: the ends of every range of LegalOp and of the gaps between them. -/
theorem witness_decodeOrderTotal :
    (¬ LegalOp 0x00000006#32 ∧ ¬ LegalOp 0xFFFFFF0F#32 ∧ ¬ LegalOp 0x15#32 ∧ ¬ LegalOp 0x1F#32 ∧ ¬ LegalOp 0x22#32 ∧
      ¬ LegalOp 0x2F#32 ∧ ¬ LegalOp 0x32#32 ∧ ¬ LegalOp 0xFFFFFFFF#32) ∧
    (LegalOp 0x00000100#32 ∧ 256 ≤ (0x00000100#32 : Word).toNat ∧ LegalOp 0xFFFFFF31#32 ∧ 256 ≤ (0xFFFFFF31#32 : Word).toNat) ∧
    (LegalOp 0x00#32 ∧ LegalOp 0x05#32 ∧ LegalOp 0x10#32 ∧ LegalOp 0x14#32 ∧ LegalOp 0x20#32 ∧ LegalOp 0x21#32 ∧ LegalOp 0x30#32 ∧
      LegalOp 0x31#32 ∧ (0x31#32 : Word).toNat < 256) ∧
    (ready 0x06#32 Regs.reset).cmd.word = 0x06#32 := by
  simp [LegalOp, ready, State.cmd]

/-- StepRunsDecodedCommand, BDQ's move: both clauses. -/
theorem witness_stepRunsDecodedCommand :
    (ready 0x30#32 Regs.reset).latch = some { word := 0x30#32, regs := Regs.reset } ∧ decode 0x30#32 = .ok .mark ∧
      (ready 0x30#32 Regs.reset).turns = [] ∧ (State.reset.withFetchWord 32 0x30).turns = .bdq :: [] := by decide

/-- StepRunsDecodedCommand, the host's move: its next action with BUSY = 0, and with BUSY = 1 on its turn. -/
theorem witness_hostMoves :
    ∀ l ∈ [[HostAction.store 0x100#32 .word 7#32], [.load 0x100#32 .byte 3], []],
      ({ State.reset with host := l } : State).busy = false ∧
        ({ ready 1#32 Regs.reset with turns := [.host], host := l } : State).busy = true ∧
        ({ ready 1#32 Regs.reset with turns := [.host], host := l } : State).turns = .host :: [] := by decide

/-- Such a store with BUSY = 1 reaches memory, and the command has not run (R71). -/
theorem test_store_while_busy :
    answers (step { ready 0x10#32 Regs.reset with turns := [.host], host := [.store 0x100#32 .byte 7#32] })
      (fun t => t.mem = [(0x100, 7#8)] && t.busy && t.host = [] && t.turns = []) = true := by decide

theorem witness_illegalOpcodeRaised :
    (ready 0x06#32 Regs.reset).latch = some { word := 0x06#32, regs := Regs.reset } ∧ (ready 0x06#32 Regs.reset).turns = [] ∧
      ¬ LegalOp 0x06#32 := by
  unfold LegalOp; decide

theorem witness_reservedBitsRaised :
    (ready 0x101#32 Regs.reset).latch = some { word := 0x101#32, regs := Regs.reset } ∧ (ready 0x101#32 Regs.reset).turns = [] ∧
      LegalOp 0x101#32 ∧ 256 ≤ (0x101#32 : Word).toNat := by
  unfold LegalOp; decide

/-- A busy state whose error record is full. -/
def busyErr : State := { ready 1#32 Regs.reset with errs := { err := true, code := 6#4, addr := 4#32, cmd := 5#32 } }

theorem witness_cmdWriteLatchesOrDrops :
    State.reset.busy = false ∧ (ready 1#32 Regs.reset).busy = true ∧ (ready 1#32 Regs.reset).errs.err = false ∧
      busyErr.busy = true ∧ busyErr.errs.err = true ∧ Reg.arg0 ≠ .cmd := by decide

theorem witness_statusWriteClears :
    (0x00000008#32 : Word).getLsbD 3 = true ∧ (0xFFFFFFF7#32 : Word).getLsbD 3 = false := by decide

theorem witness_firstErrorKept : State.reset.errs.err = false ∧ busyErr.errs.err = true := by decide

/-- ConstantViews: a palette entry at either end. DirtyViews: a clean and a pending dirty state. -/
theorem witness_views :
    State.reset.cfg.palette.toList[(15#4).toNat]? = some (rgb 0xFF 0xFF 0xFF) ∧
      State.reset.cfg.palette.toList[(0#4).toNat]? = some (rgb 0 0 0) ∧ State.reset.held = none ∧
      State.reset.dirty.wf = true ∧ State.reset.dirty.dv = false ∧ (dirtyRect 65535 65535 65535 65535).wf = true := by decide

/-- StatusWordLayout: nothing latched, and something latched with the previous values held. -/
theorem witness_statusWordLayout :
    State.reset.latch = none ∧ ((State.reset.accept 1#32).latch.isSome = true ∧
      (State.reset.accept 1#32).held = some { res0 := 0#32, res1 := 0#32, lutrdy := false, dirty := Dirty.clean }) := by decide

theorem witness_earlyReads :
    State.reset.busy = false ∧ State.reset.held = none ∧
      Reg.dirtyH ∈ [Reg.res0, .res1, .dirtyX, .dirtyY, .dirtyW, .dirtyH] ∧
      ∃ t, executeLatched (writeReg 0x30#32 State.reset .cmd) = .next t := ⟨rfl, rfl, by decide, _, rfl⟩

/-- UnnamedOffsetsReadZero: the first and last unnamed offsets of both gaps. -/
theorem witness_unnamedOffsets :
    ∀ off ∈ [0x58, 0x7C, 0xD0, 0xFC], off < 256 ∧ off % 4 = 0 ∧ ∀ r : Reg, r.offset ≠ off := by
  intro off h
  have hoff : off = 0x58 ∨ off = 0x7C ∨ off = 0xD0 ∨ off = 0xFC := by simpa using h
  refine ⟨by omega, by omega, fun r => ?_⟩
  cases r <;> simp only [Reg.offset] <;> omega

/-- UnnamedOffsetsReadZero: a STATUS read with BUSY = 1 and with BUSY = 0, and a read of another register. -/
theorem witness_registerReads :
    (ready 1#32 Regs.reset).busy = true ∧ State.reset.busy = false ∧ Reg.tmat 3#2 ≠ .status := by decide

theorem witness_readOnlyRegisters :
    Reg.dirtyH ∈ [Reg.id, .res0, .res1, .erraddr, .errcmd, .dirtyX, .dirtyY, .dirtyW, .dirtyH] ∧
      (∃ i, Reg.pal 15#4 = .pal i) ∧ ∃ y, Reg.tmat 3#2 = .tmat y := ⟨by decide, ⟨_, rfl⟩, ⟨_, rfl⟩⟩

theorem witness_registerWriteReadBack :
    Reg.arg3 ∈ [Reg.arg0, .arg1, .arg2, .arg3, .surfBase, .outBase] ∧ Reg.surfH ∈ [Reg.scrW, .scrH, .surfW, .surfH] ∧
      Reg.ctrl ≠ .cmd ∧ Reg.ctrl ≠ .status ∧ Reg.ctrl ≠ .arg0 := by decide

/-- NarrowWindowAccessRefused: the window's ends, from inside and outside. -/
theorem witness_narrowWindowAccess :
    (touchesWindow State.reset.cfg 0xFF#32 .byte = true ∧ ¬ (Width.byte = .word ∧ (0xFF#32 - State.reset.cfg.base).toNat % 4 = 0)) ∧
      (touchesWindow State.reset.cfg 0xFFFFFFFD#32 .word = true ∧
        ¬ (Width.word = .word ∧ (0xFFFFFFFD#32 - State.reset.cfg.base).toNat % 4 = 0)) ∧
      touchesWindow State.reset.cfg 0x100#32 .byte = false ∧ touchesWindow State.reset.cfg 0xFFFFFFFC#32 .word = false ∧
      (touchesWindow State.reset.cfg 0xFC#32 .word = true ∧ (0xFC#32 - State.reset.cfg.base).toNat % 4 = 0) := by decide

theorem witness_nearestFirstMinimum :
    (0#4 : BitVec 4).toNat < (nearest defaultPalette (rgb 0xAA 0xAA 0xAA)).index.toNat := by decide

theorem witness_nearestResult :
    (ready 1#32 (args 0x00AAAAAA#32 0#32)).cfg.wf = true ∧ (ready 1#32 (args 0x00AAAAAA#32 0#32)).ops.arg0 = 0x00AAAAAA#32 := by
  decide

/-- PaletteRoundTrip: a palette with distinct entries and one without. -/
theorem witness_paletteRoundTrip :
    (∀ i j : BitVec 4, paletteEntry defaultPalette i = paletteEntry defaultPalette j → i = j) ∧
      paletteEntry { defaultPalette with p1 := rgb 0 0 0 } 0#4 = paletteEntry { defaultPalette with p1 := rgb 0 0 0 } 1#4 := by
  decide +kernel

/-- QuantizePositionLaws: the first and the last entry of the matrix, and positions of offset 0. -/
theorem witness_quantizePositionLaws :
    [0, 8, 2, 10, 12, 4, 14, 6, 3, 11, 1, 9, 15, 7, 13, 5][4 * (0 % 4) + 0 % 4]? = some 0 ∧
      [0, 8, 2, 10, 12, 4, 14, 6, 3, 11, 1, 9, 15, 7, 13, 5][4 * (65535 % 4) + 65535 % 4]? = some 5 ∧
      tm 0 1 = 8 ∧ tm 65532 65533 = 8 := by decide

/-- RemapResult: nothing to read at a misaligned address, and sixteen entries that wrap past 2^32. -/
theorem witness_remapResult_none :
    (ready 4#32 (args 0x3001#32 0#32)).raced = [] ∧
      ((ready 4#32 (args 0x3001#32 0#32)).ops.arg1.toNat = 0 ∨ (ready 4#32 (args 0x3001#32 0#32)).ops.arg0.toNat % 4 = 0) ∧
      ∀ j, j < min (ready 4#32 (args 0x3001#32 0#32)).ops.arg1.toNat 16 →
        memErrAt (ready 4#32 (args 0x3001#32 0#32)).cfg (0x3001#32 + BitVec.ofNat 32 (4 * j)) .read = false :=
  ⟨rfl, Or.inl rfl, fun _ _ => rfl⟩

theorem witness_remapResult_all :
    (ready 4#32 (args 0xFFFFFFFC#32 0xFFFFFFFF#32)).raced = [] ∧
      ((ready 4#32 (args 0xFFFFFFFC#32 0xFFFFFFFF#32)).ops.arg1.toNat = 0 ∨
        (ready 4#32 (args 0xFFFFFFFC#32 0xFFFFFFFF#32)).ops.arg0.toNat % 4 = 0) ∧
      ∀ j, j < min (ready 4#32 (args 0xFFFFFFFC#32 0xFFFFFFFF#32)).ops.arg1.toNat 16 →
        memErrAt (ready 4#32 (args 0xFFFFFFFC#32 0xFFFFFFFF#32)).cfg (0xFFFFFFFC#32 + BitVec.ofNat 32 (4 * j)) .read = false :=
  ⟨rfl, Or.inr rfl, fun _ _ => rfl⟩

/-- REMAP of sixteen entries whose last read fails. -/
def remapFails : State := { ready 4#32 (args 0x3000#32 16#32) with cfg := failing 0x303C#32 .read }

theorem witness_remapStops :
    remapFails.ops.arg0.toNat % 4 = 0 ∧ 15 < min remapFails.ops.arg1.toNat 16 ∧
      (∀ i, i < 15 → memErrAt remapFails.cfg (remapFails.ops.arg0 + BitVec.ofNat 32 (4 * i)) .read = false) ∧
      memErrAt remapFails.cfg (remapFails.ops.arg0 + BitVec.ofNat 32 (4 * 15)) .read = true := by decide

/-- QSURF8 of a 2×1 surface with its output right behind it. -/
def qsurfRuns : State := { ready 5#32 (surface 2 1 0x1000#32 0x1008#32 0#32 0#32) with mem := gray 0x1000 2 }

theorem witness_qsurfResult :
    (Memory.wf qsurfRuns.mem = true ∧ qsurfRuns.raced = [] ∧ qsurfRuns.ops.surfBase.toNat % 4 = 0 ∧
      qsurfRuns.ops.surfW.toNat ≠ 0 ∧ qsurfRuns.ops.surfH.toNat ≠ 0) ∧
      (∀ px py, px < qsurfRuns.ops.surfW.toNat → py < qsurfRuns.ops.surfH.toNat →
        memErrAt qsurfRuns.cfg (pixAddr qsurfRuns.ops px py) .read = false) ∧
      (∀ n, n < qsurfRuns.ops.surfW.toNat * qsurfRuns.ops.surfH.toNat →
        memErrAt qsurfRuns.cfg (qsurfRuns.ops.outBase + BitVec.ofNat 32 n) .write = false ∧
          covers (surfaceRange qsurfRuns.ops) (qsurfRuns.ops.outBase + BitVec.ofNat 32 n) = false) :=
  ⟨by decide, fun _ _ _ _ => rfl, by decide⟩

theorem witness_qsurfEmpty :
    (ready 5#32 (surface 0 4 0x1001#32 0#32 0#32 0#32)).ops.surfW = 0#16 ∧
      (ready 5#32 (surface 4 0 0x1001#32 0#32 0#32 0#32)).ops.surfH = 0#16 := by decide

/-- AlignRegionPixels: a region inside, one clipped at the right edge, an empty one. -/
theorem witness_alignRegion :
    640 % 8 = 0 ∧ (alignRegion 639 479 65535 65535 640 480).w = 8 ∧ (alignRegion 640 0 1 1 640 480).w = 0 ∧
      (alignRegion 10 10 0 5 640 480).w = 0 := by decide

theorem witness_alignResult :
    (ready 0x13#32 (surface 8 1 0#32 0#32 0#32 0#32)).ops.surfW.toNat ≠ 0 ∧
      (ready 0x13#32 (surface 8 1 0#32 0#32 0#32 0#32)).ops.surfH.toNat ≠ 0 ∧
      (ready 0x13#32 (surface 8 1 0#32 0#32 0#32 0#32)).ops.surfW.toNat % 8 = 0 := by decide

/-- An 8×1 gray surface, its output right behind it, HSEN = 1, the whole of it dirty and asked for. -/
def packs (c : Word) : State :=
  { ready c (surface 8 1 0x1000#32 0x1020#32 0#32 0x00010008#32) with mem := gray 0x1000 8, dirty := dirtyRect 0 0 8 1 }

/-- The region of `packs`. -/
def packsRegion : Region := { x := 0, y := 0, w := 8, h := 1 }

theorem packs_outside :
    ∀ n, n < 4 * planeSize packsRegion →
      covers (surfaceRange (surface 8 1 0x1000#32 0x1020#32 0#32 0x00010008#32)) (0x1020#32 + BitVec.ofNat 32 n) = false := by
  decide

theorem packs_runs (c : Word) : PackRuns (packs c) packsRegion :=
  ⟨by simp [packs, ready, State.ops, State.cmd, surface], fun _ _ _ _ _ _ => rfl, fun n hn => ⟨rfl, packs_outside n hn⟩, rfl⟩

theorem witness_packrResult :
    (SurfaceFits (packs 0x14#32).ops ∧ packsRegion = requestedRegion (packs 0x14#32).ops ∧ packsRegion.w ≠ 0 ∧
      Memory.wf (packs 0x14#32).mem = true) ∧ PackRuns (packs 0x14#32) packsRegion := by
  refine ⟨?_, packs_runs _⟩
  unfold SurfaceFits; decide

theorem witness_packrEmpty :
    SurfaceFits (ready 0x14#32 (surface 8 1 0x1002#32 0#32 0#32 0#32)).ops ∧
      emptyRegion = requestedRegion (ready 0x14#32 (surface 8 1 0x1002#32 0#32 0#32 0#32)).ops ∧ emptyRegion.w = 0 := by
  unfold SurfaceFits; decide

theorem witness_flushGates :
    (ready 0x20#32 Regs.reset).ops.hsen = false ∧ (ready 0x20#32 (surface 8 1 0#32 0#32 0#32 0#32)).dirty.dv = false := by decide

theorem witness_pflushResult :
    (Memory.wf (packs 0x20#32).mem = true ∧ (packs 0x20#32).ops.hsen = true ∧ (packs 0x20#32).dirty.dv = true ∧
      FlushFits (packs 0x20#32).ops ∧ packsRegion = pendingRegion (packs 0x20#32).ops (packs 0x20#32).dirty ∧
      packsRegion.w ≠ 0) ∧ PackRuns (packs 0x20#32) packsRegion := by
  refine ⟨?_, packs_runs _⟩
  unfold FlushFits; decide

/-- A dirty rectangle right of the screen. -/
def dirtyOutside : State := { ready 0x20#32 (surface 8 1 0x1002#32 0#32 0#32 0#32) with dirty := dirtyRect 8 0 1 1 }

theorem witness_pflushEmpty :
    dirtyOutside.ops.hsen = true ∧ dirtyOutside.dirty.dv = true ∧ FlushFits dirtyOutside.ops ∧
      (pendingRegion dirtyOutside.ops dirtyOutside.dirty).w = 0 := by
  unfold FlushFits; decide

theorem witness_pfullResult :
    (Memory.wf (packs 0x21#32).mem = true ∧ (packs 0x21#32).ops.hsen = true ∧ FlushFits (packs 0x21#32).ops ∧
      packsRegion = wholeScreen (packs 0x21#32).ops) ∧ PackRuns (packs 0x21#32) packsRegion := by
  refine ⟨?_, packs_runs _⟩
  unfold FlushFits; decide

/-- RegionEventCount: a region that ends at the screen's edges, and a copy event of it. -/
theorem witness_regionEventCount :
    packsRegion.x + packsRegion.w ≤ (packs 0x21#32).ops.scrW.toNat ∧
    packsRegion.y + packsRegion.h ≤ (packs 0x21#32).ops.scrH.toNat ∧
      0 < packsRegion.w ∧ (packs 0x21#32).ops.scrW.toNat % 8 = 0 ∧
      [pack8 (List.replicate 8 7#4)].length = packsRegion.w / 8 * packsRegion.h ∧
      HsEvent.copyIntoDevice 0#32 [0xFF#8] ∈
        regionEvents defaultConfig (packs 0x21#32).ops packsRegion [pack8 (List.replicate 8 7#4)] := by decide

theorem witness_markResult : State.reset.dirty.dv = false ∧ (packs 0x30#32).dirty.dv = true := by decide

/-- MarkSequenceBoundingBox: rectangles at both ends of the range, in two orders. -/
theorem witness_markSequence :
    (∀ p ∈ ((65535, 65535, 65535, 65535) : Nat × Nat × Nat × Nat) :: [(0, 0, 0, 0)],
      p.1 < 65536 ∧ p.2.1 < 65536 ∧ p.2.2.1 < 65536 ∧ p.2.2.2 < 65536) ∧
      List.Perm [((0, 0, 0, 0) : Nat × Nat × Nat × Nat), (65535, 65535, 65535, 65535)]
        ((65535, 65535, 65535, 65535) :: [(0, 0, 0, 0)]) := by
  refine ⟨by decide, List.Perm.swap _ _ _⟩

/-- GeometryRaised: each way a surface fails, then each way the flush set-up fails. -/
theorem witness_geometryRaised :
    ∀ p ∈ [(0, 1), (8, 0), (12, 1)], ¬ SurfaceFits (surface p.1 p.2 0#32 0#32 0#32 0#32) := by
  unfold SurfaceFits; decide

/-- A dirty 12×1 screen. -/
def badScreen : State := { ready 0x20#32 (surface 12 1 0#32 0#32 0#32 0#32) with dirty := dirtyRect 0 0 1 1 }

theorem witness_geometryRaised_flush :
    badScreen.ops.hsen = true ∧ badScreen.dirty.dv = true ∧ ¬ FlushFits badScreen.ops ∧
      ¬ FlushFits { surface 8 1 0#32 0#32 0#32 0#32 with scrW := 16#16 } ∧
      ¬ FlushFits { surface 8 1 0#32 0#32 0#32 0#32 with scrH := 2#16 } ∧ ¬ FlushFits (surface 0 1 0#32 0#32 0#32 0#32) ∧
      ¬ FlushFits (surface 8 0 0#32 0#32 0#32 0#32) := by
  unfold FlushFits; decide

/-- An 8×1 surface at an address that is not 4-aligned, dirty and asked for. -/
def misplaced : State :=
  { ready 0x14#32 (surface 8 1 0x1002#32 0x2000#32 0#32 0x00010008#32) with dirty := dirtyRect 0 0 8 1 }

theorem witness_misalignedRaised :
    (args 0x3002#32 1#32).arg1.toNat ≠ 0 ∧ (args 0x3002#32 1#32).arg0.toNat % 4 ≠ 0 ∧ misplaced.ops.surfBase.toNat % 4 ≠ 0 ∧
      misplaced.ops.surfW.toNat * misplaced.ops.surfH.toNat ≠ 0 ∧ SurfaceFits misplaced.ops ∧
      (requestedRegion misplaced.ops).w ≠ 0 ∧ misplaced.ops.hsen = true ∧ misplaced.dirty.dv = true ∧ FlushFits misplaced.ops ∧
      (pendingRegion misplaced.ops misplaced.dirty).w ≠ 0 := by
  unfold SurfaceFits FlushFits; decide

/-- MisalignedRaised: each of the five commands records code 5 from an empty record. -/
theorem witness_misalignedOnly :
    ∀ i ∈ [Instr.qsurf8, .packr, .pflush, .pfull],
      answers (exec i misplaced) (fun t => !misplaced.errs.err && t.errs.code = 5#4 && misplaced.errs.code ≠ 5#4) = true ∧
        answers (exec .remap (ready 4#32 (args 0x3002#32 1#32))) (fun t => t.errs.code = 5#4) = true := by decide

/-- BusErrorEffects: REMAP with nothing to read, and sixteen aligned entries the last of which fails. -/
theorem witness_busError_remap :
    (ready 4#32 (args 0x3001#32 0#32)).ops.arg1.toNat = 0 ∧ remapFails.ops.arg0.toNat % 4 = 0 ∧
      firstFailing remapFails.cfg (remapAccesses remapFails.ops) = some (0x303C#32, .read) ∧
      firstFailing defaultConfig (remapAccesses remapFails.ops) = none := by decide

/-- BusErrorEffects: for QSURF8, PACKR, PFLUSH and PFULL the last read and the last write of their accesses fail, and none does. -/
theorem witness_busError_surface :
    (packs 0x14#32).ops.surfBase.toNat % 4 = 0 ∧ SurfaceFits (packs 0x14#32).ops ∧ (packs 0x14#32).ops.hsen = true ∧
      FlushFits (packs 0x14#32).ops ∧ (packs 0x14#32).dirty.dv = true ∧
      firstFailing (failing 0x101C#32 .read) (qsurfAccesses (packs 0x14#32).ops) = some (0x101C#32, .read) ∧
      firstFailing (failing 0x1027#32 .write) (qsurfAccesses (packs 0x14#32).ops) = some (0x1027#32, .write) ∧
      firstFailing defaultConfig (qsurfAccesses (packs 0x14#32).ops) = none ∧
      ∀ r ∈ [requestedRegion (packs 0x14#32).ops, pendingRegion (packs 0x14#32).ops (packs 0x14#32).dirty,
          wholeScreen (packs 0x14#32).ops],
        firstFailing (failing 0x101C#32 .read) (packAccesses (packs 0x14#32).ops r) = some (0x101C#32, .read) ∧
          firstFailing (failing 0x1023#32 .write) (packAccesses (packs 0x14#32).ops r) = some (0x1023#32, .write) ∧
          firstFailing defaultConfig (packAccesses (packs 0x14#32).ops r) = none := by
  unfold SurfaceFits FlushFits; decide

theorem witness_busErrorEffects :
    ∃ t, exec .remap remapFails = .next t ∧ remapFails.errs.err = false ∧ t.errs.code = 6#4 ∧ remapFails.errs.code ≠ 6#4 :=
  ⟨_, rfl, rfl, rfl, by decide⟩

/-- LutrdySetOnceTillReset: a step with LUTRDY = 1 that keeps it, and the reset input, which does not. -/
theorem witness_lutrdy :
    (∃ t, exec .lutinit State.reset = .next t) ∧
      (∃ t, step State.reset.setLutrdy = .next t ∧ t.lutrdy = true) ∧
      ∃ t, step { State.reset.setLutrdy with host := [.reset] } = .next t ∧ t.lutrdy = false :=
  ⟨⟨_, rfl⟩, ⟨_, rfl, rfl⟩, ⟨_, rfl, rfl⟩⟩

theorem witness_registerCommandFrames :
    (∃ t, exec .align (packs 0x13#32) = .next t) ∧
      Instr.align ∈ [Instr.nop, .nearest, .dthr, .qpix, .remap, .lutinit, .pair, .pack8, .align, .mark, .clear] ∧
      Instr.mark ∈ [Instr.nop, .lutinit, .mark, .clear] ∧ Instr.align ≠ .mark ∧ Instr.align ≠ .clear := ⟨⟨_, rfl⟩, by decide⟩

/-- OnlyOutputRangeWritten: an address just outside the output range, and the range itself. -/
theorem witness_onlyOutputRange :
    (∃ t, exec .packr (packs 0x14#32) = .next t) ∧
      coveredBy (reachOf (packs 0x14#32).ops (packs 0x14#32).dirty .packr).writes 0x1024#32 = false ∧
      { start := 0x1020#32, len := 4 } ∈ (reachOf (packs 0x14#32).ops (packs 0x14#32).dirty .packr).writes :=
  ⟨⟨_, rfl⟩, by decide, by decide⟩

/-- EventsOnlyAppended: no result waits, or no byte is to be left alone. -/
theorem witness_eventsOnlyAppended :
    (packs 0x20#32).uses = [] ∧ (packs 0x20#32).hazard = { reads := [], writes := [] } := by decide

theorem witness_eventsAndParameters :
    (∃ t, step (packs 0x20#32) = .next t) ∧ (∃ t, exec .qsurf8 qsurfRuns = .next t) ∧ Instr.qsurf8 ≠ .pflush ∧
      Instr.qsurf8 ≠ .pfull := ⟨⟨_, rfl⟩, ⟨_, rfl⟩, by decide⟩

theorem witness_resetInput :
    ({ State.reset with host := [.reset] } : State).busy = false ∧
      ({ State.reset with host := [.reset] } : State).host = .reset :: [] := by decide

theorem witness_resetDuringCommand :
    ({ packs 0x20#32 with turns := [.host], host := [.reset] } : State).latch =
        some { word := 0x20#32, regs := surface 8 1 0x1000#32 0x1020#32 0#32 0x00010008#32 } ∧
      ({ packs 0x20#32 with turns := [.host], host := [.reset] } : State).turns = .host :: [] ∧
      ({ packs 0x20#32 with turns := [.host], host := [.reset] } : State).host = .reset :: [] := by decide

theorem witness_latchedOperandsOnly :
    (packs 0x14#32).latch = some { word := 0x14#32, regs := surface 8 1 0x1000#32 0x1020#32 0#32 0x00010008#32 } ∧
      ∃ t, exec .packr (packs 0x14#32) = .next t := ⟨rfl, _, rfl⟩

theorem witness_errorRecordDoesNotBlock : ∃ t, exec .nearest busyErr = .next t := ⟨_, rfl⟩

theorem witness_acceptedCommandExecutes :
    ({ packs 0x20#32 with turns := [.host, .host] } : State).busy = true ∧
      ({ packs 0x20#32 with turns := [.host, .host] } : State).host = [] := by decide

theorem witness_stepKeepsGoodState : (packs 0x20#32).Inv ∧ ∃ t, step (packs 0x20#32) = .next t :=
  ⟨⟨by decide, by decide, by decide, by decide⟩, _, rfl⟩

/-- PollRepeatsStatusRead: with BUSY = 0, and with BUSY = 1 on the host's turn. -/
theorem witness_poll :
    ({ State.reset with host := [.poll 7] } : State).host = .poll 7 :: [] ∧ State.reset.busy = false ∧
      ({ ready 1#32 Regs.reset with turns := [.host], host := [.poll 7] } : State).host = .poll 7 :: [] ∧
      ({ ready 1#32 Regs.reset with turns := [.host], host := [.poll 7] } : State).busy = true ∧
      ({ ready 1#32 Regs.reset with turns := [.host], host := [.poll 7] } : State).turns = .host :: [] := by decide

/-- An executed PACKR of the 8×1 surface, BUSY = 0 not read back: its pixels and its output are to be left alone. -/
def unread : State :=
  { packs 0x14#32 with
    latch := none
    hazard := reachOf (packs 0x14#32).ops (packs 0x14#32).dirty .packr
    uses := packUses (packs 0x14#32).ops packsRegion }

/-- RaceFreesDependents: the first byte read, on which all four output bytes depend, the last byte written, and BUSY = 1. -/
theorem witness_race :
    Memory.wf unread.mem = true ∧ touchesWindow unread.cfg 0x1000#32 .byte = false ∧
      coveredBy unread.hazard.reads 0x1000#32 = true ∧ coveredBy unread.hazard.writes 0x1023#32 = true ∧
      touchesWindow unread.cfg 0x1023#32 .byte = false ∧ unread.uses.length = 4 ∧
      (∀ u ∈ unread.uses, coveredBy u.inputs 0x1000#32 = true ∧ u.result ≠ .byte 0x1028#32 ∧ u.result ≠ .nibble 0) ∧
      (Result.byte 0x1028#32 ≠ .byte 0x1000#32 ∧ Result.nibble 0 ≠ .byte 0x1000#32) ∧
      ({ packs 0x14#32 with hazard := unread.hazard } : State).busy = true := by decide

/-- Results of a PACKR, of a REMAP that read its output, of a REMAP of another pixel and of a flush. -/
def chained : State :=
  { unread with
    uses := [{ inputs := [colourBytes 0x1000#32], result := .byte 0x1020#32 },
      { inputs := [colourBytes 0x1020#32], result := .nibble 0 },
      { inputs := [colourBytes 0x1004#32], result := .nibble 1 },
      { inputs := [colourBytes 0x1004#32], result := .eventByte 1 0 }] }

/-- RaceFreesDependents: a result that depends on byte 0x1001 at once, one that does through it, and a nibble and a copied byte that
do not. -/
theorem witness_raceDependents :
    DependsOn chained.uses 0x1001#32 0 ∧ DependsOn chained.uses 0x1001#32 1 ∧ ¬ DependsOn chained.uses 0x1001#32 2 ∧
      ¬ DependsOn chained.uses 0x1001#32 3 := by
  have h0 : DependsOn chained.uses 0x1001#32 0 := .direct rfl (by decide)
  have hno : ∀ n, ∀ u : Use, n = 2 ∨ n = 3 → chained.uses[n]? = some u → u.inputs = [colourBytes 0x1004#32] := by
    rintro n u (rfl | rfl) h <;> cases h <;> rfl
  have hbytes : ∀ (m : Nat) (v : Use) (b : Word), chained.uses[m]? = some v → v.result = .byte b → b = 0x1020#32 := by
    intro m v b hm hv
    have := List.mem_of_getElem? hm
    simp only [chained, List.mem_cons, List.not_mem_nil, or_false] at this
    rcases this with rfl | rfl | rfl | rfl <;> cases hv
    rfl
  have hnot : ∀ n, n = 2 ∨ n = 3 → ¬ DependsOn chained.uses 0x1001#32 n := by
    rintro n hn (⟨hu, ha⟩ | ⟨_, _, hv, hb, hu, ha⟩)
    · rw [hno n _ hn hu] at ha
      exact absurd ha (by decide)
    · rw [hno n _ hn hu, hbytes _ _ _ hv hb] at ha
      exact absurd ha (by decide)
  exact ⟨h0, .through (by decide) h0 rfl rfl rfl (by decide), hnot 2 (Or.inl rfl), hnot 3 (Or.inr rfl)⟩

/-- AcceptanceGuardsItsBytes: a word that decodes and one that does not, and the conditions of PACKR, PFLUSH and PFULL, met and
not met. -/
theorem witness_acceptance :
    State.reset.busy = false ∧ decode 0x14#32 = .ok .packr ∧ decode 0x06#32 = .error .illegalOpcode ∧
      (SurfaceFits (packs 0x14#32).ops ∧ (packs 0x14#32).ops.hsen = true ∧ (packs 0x14#32).dirty.dv = true ∧
        FlushFits (packs 0x14#32).ops) ∧
      Instr.align ∉ [Instr.remap, .qsurf8, .packr, .pflush, .pfull] ∧ ¬ SurfaceFits badScreen.ops ∧
      ¬ (badScreen.ops.hsen = true ∧ badScreen.dirty.dv = true ∧ FlushFits badScreen.ops) ∧
      ¬ (Regs.reset.hsen = true ∧ FlushFits Regs.reset) := by
  unfold SurfaceFits FlushFits; decide

/-- R266: accepting PACKR of the 8×1 surface guards what PACKR reaches: up to the last pixel byte and the first to the last
of its four output bytes. -/
theorem test_acceptance_guards :
    (State.accept 0x14#32 { packs 0x14#32 with regs := (packs 0x14#32).ops, latch := none }).hazard =
      reachOf (packs 0x14#32).ops (packs 0x14#32).dirty .packr := rfl

theorem test_packr_guards :
    coveredBy (reachOf (packs 0x14#32).ops (packs 0x14#32).dirty .packr).reads 0x101F#32 = true ∧
      coveredBy (reachOf (packs 0x14#32).ops (packs 0x14#32).dirty .packr).reads 0x1020#32 = false ∧
      coveredBy (reachOf (packs 0x14#32).ops (packs 0x14#32).dirty .packr).writes 0x1020#32 = true ∧
      coveredBy (reachOf (packs 0x14#32).ops (packs 0x14#32).dirty .packr).writes 0x1024#32 = false := by decide

/-- HostMemoryStoreAndLoad: the first word above the window and the last word of memory, and the bytes around the window. -/
theorem witness_hostWordStore :
    Memory.wf State.reset.mem = true ∧
      (∀ i, i < 4 → coveredBy State.reset.hazard.reads (0x100#32 + BitVec.ofNat 32 i) = false ∧
        coveredBy State.reset.hazard.writes (0x100#32 + BitVec.ofNat 32 i) = false) ∧
      touchesWindow State.reset.cfg 0x100#32 .word = false ∧ touchesWindow State.reset.cfg 0xFFFFFFFC#32 .word = false ∧
      4 ≤ ((0x104#32 : Word) - 0x100#32).toNat ∧ coveredBy State.reset.hazard.writes 0x100#32 = false ∧
      touchesWindow State.reset.cfg 0x100#32 .byte = false ∧ touchesWindow State.reset.cfg 0xFFFFFFFF#32 .byte = false := by decide

/-- HostMemoryStoreAndLoad: a word right behind the bytes to be left alone, a byte there, and a word that lies half in them. -/
theorem witness_storeBesideRanges :
    Memory.wf unread.mem = true ∧ touchesWindow unread.cfg 0x1024#32 .word = false ∧
      (∀ i, i < 4 → coveredBy unread.hazard.reads (0x1024#32 + BitVec.ofNat 32 i) = false ∧
        coveredBy unread.hazard.writes (0x1024#32 + BitVec.ofNat 32 i) = false) ∧
      touchesWindow unread.cfg 0x1024#32 .byte = false ∧
      (touchesWindow unread.cfg 0x1022#32 .word = false ∧ coveredBy unread.hazard.writes 0x1022#32 = true) := by decide

/-- R266: of that word's four bytes the two to be left alone are raced, each to a free value of its own. -/
theorem test_word_store_half_guarded :
    answers (hostStore 0x1022#32 .word 0x11223344#32 unread) (fun t => t.freeCtr = 2) = true := by decide

/-- HostMemoryStoreAndLoad: a load of a byte a command read, BUSY = 0 not read back. -/
theorem witness_hostByteLoad :
    coveredBy unread.hazard.reads 0x1000#32 = true ∧ coveredBy unread.hazard.writes 0x1000#32 = false ∧
      touchesWindow unread.cfg 0x1000#32 .byte = false := by decide

/-- OverlapOrRaceFreesResults, REMAP: of two entries the second was raced, and nibble 2 has none. -/
def remapRaced : State := { ready 4#32 (args 0x3000#32 2#32) with mem := gray 0x3000 2, raced := [0x3005#32] }

theorem witness_remapRaced :
    (remapRaced.ops.arg0.toNat % 4 = 0 ∧ firstFailing remapRaced.cfg (remapAccesses remapRaced.ops) = none) ∧
      (1 < min remapRaced.ops.arg1.toNat 16 ∧ min remapRaced.ops.arg1.toNat 16 ≤ 2) ∧
      ColourOpen remapRaced (fun _ => False) (remapRaced.ops.arg0 + BitVec.ofNat 32 (4 * 1)) ∧
      ¬ ColourOpen remapRaced (fun _ => False) (remapRaced.ops.arg0 + BitVec.ofNat 32 (4 * 0)) := by
  unfold ColourOpen
  decide

/-- OverlapOrRaceFreesResults, QSURF8: the first output byte is the second pixel's blue, and where the output is apart nothing is
open. -/
def qsurfOverlaps : State := { ready 5#32 (surface 2 1 0x1000#32 0x1004#32 0#32 0#32) with mem := gray 0x1000 2 }

theorem witness_qsurfOverlaps :
    (Memory.wf qsurfOverlaps.mem = true ∧ qsurfOverlaps.ops.surfBase.toNat % 4 = 0 ∧
      qsurfOverlaps.ops.surfW.toNat * qsurfOverlaps.ops.surfH.toNat ≠ 0 ∧
      firstFailing qsurfOverlaps.cfg (qsurfAccesses qsurfOverlaps.ops) = none) ∧
      ByteOpen qsurfOverlaps 0x1004#32 ∧
      ColourOpen qsurfOverlaps (qsurfWritten qsurfOverlaps.ops 1 0) (pixAddr qsurfOverlaps.ops 1 0) ∧
      ¬ ByteOpen qsurfRuns 0x1008#32 ∧ ¬ ColourOpen qsurfRuns (qsurfWritten qsurfRuns.ops 0 0) (pixAddr qsurfRuns.ops 0 0) := by
  refine ⟨by decide, Or.inr (by decide), ⟨0, by decide, Or.inr ⟨0, by decide⟩⟩, by unfold ByteOpen; decide, ?_⟩
  rintro ⟨d, hd, h | ⟨n, hn, -⟩⟩
  · revert h
    exact List.not_mem_nil
  · exact absurd hn (by simp)

/-- `packs` with a pixel of its one byte column raced, or with the byte of plane 1. -/
theorem witness_packsRaced (c : Word) :
    (ColumnOpen { packs c with raced := [0x1004#32] } packsRegion 0 0 ∧
      ByteOpen { packs c with raced := [0x1021#32] } 0x1021#32) ∧
      ¬ ColumnOpen { packs c with raced := [0x1021#32] } packsRegion 0 0 ∧
      ¬ ByteOpen { packs c with raced := [0x1021#32] } 0x1020#32 := by
  have hclean : ∀ i < 8, ∀ d < 3,
      pixAddr (packs 0#32).ops (packsRegion.x + 8 * 0 + i) (packsRegion.y + 0) + BitVec.ofNat 32 d ≠ 0x1021#32 := by decide
  refine ⟨⟨⟨1, by decide, 0, by decide, Or.inl (List.mem_singleton.mpr rfl)⟩, Or.inl (List.mem_singleton.mpr rfl)⟩, ?_,
    fun h => h.elim (by decide : ¬ 0x1020#32 ∈ [0x1021#32]) (by decide : ¬ covers (surfaceRange (packs 0#32).ops) 0x1020#32 = true)⟩
  rintro ⟨i, hi, d, hd, h | ⟨_, _, _, _, _, h, _⟩⟩
  · exact hclean i hi d hd (List.mem_singleton.mp h)
  · exact absurd h (by simp)

/-- OverlapOrRaceFreesResults, PACKR, PFLUSH and PFULL. -/
theorem witness_packRaced :
    (Memory.wf (packs 0x14#32).mem = true ∧ (packs 0x14#32).ops.surfBase.toNat % 4 = 0 ∧ packsRegion.w ≠ 0 ∧
      firstFailing (packs 0x14#32).cfg (packAccesses (packs 0x14#32).ops packsRegion) = none ∧
      SurfaceFits (packs 0x14#32).ops ∧ packsRegion = requestedRegion (packs 0x14#32).ops) ∧
      ((packs 0x20#32).ops.hsen = true ∧ FlushFits (packs 0x20#32).ops ∧ (packs 0x20#32).dirty.dv = true ∧
        packsRegion = pendingRegion (packs 0x20#32).ops (packs 0x20#32).dirty) ∧
      packsRegion = wholeScreen (packs 0x21#32).ops := by
  unfold SurfaceFits FlushFits
  decide

end Sys2Proof.Tests
end

section
/-! What each command with more than one ending can do, guards included: later proofs take its result apart with these. -/

namespace Sys2Proof.Machine

/-- Everything REMAP can do (R113): Misaligned, BusError at a failing read, or the indices in RES0 and RES1. -/
theorem execRemap_cases {s t : State} (h : execRemap s = .next t) :
    (remapMisaligned s.ops = true ∧ t = s.raise .misaligned s.ops.arg0) ∨
    (remapMisaligned s.ops = false ∧ ∃ a, remapEntries s.cfg s.ops 0 (remapCount s.ops) s.bus = .error a ∧
      t = s.raise .busError a) ∨
    (remapMisaligned s.ops = false ∧ ∃ l f, remapEntries s.cfg s.ops 0 (remapCount s.ops) s.bus = .ok (l, f) ∧
      t = ((({ s with freeCtr := f } : State).setRes (packNibbles (l.take 8)) (packNibbles (l.drop 8))).addUses
        (remapUses s.ops)).complete) := by
  unfold execRemap at h
  split at h
  · next hm => cases h; exact .inl ⟨hm, rfl⟩
  · next hm =>
    have hm : remapMisaligned s.ops = false := by simpa using hm
    split at h
    · next a ha => cases h; exact .inr (.inl ⟨hm, a, ha, rfl⟩)
    · next l f hl => cases h; exact .inr (.inr ⟨hm, l, f, hl, rfl⟩)

/-- Everything QSURF8 can do (R114): nothing for an empty surface, Misaligned, BusError at a failing access, or the surface
quantized. -/
theorem execQsurf8_cases {s t : State} (h : execQsurf8 s = .next t) :
    (s.ops.surfW.toNat * s.ops.surfH.toNat = 0 ∧ t = s.complete) ∨
    s.ops.surfW.toNat * s.ops.surfH.toNat ≠ 0 ∧
      ((misaligned4 s.ops.surfBase = true ∧ t = s.raise .misaligned s.ops.surfBase) ∨
      (misaligned4 s.ops.surfBase = false ∧ ∃ a,
        qsurfLoop s.cfg s.ops (positions s.ops.surfW.toNat s.ops.surfH.toNat) s.bus = .error a ∧
        t = s.raiseBusError (qsurfOut s.ops) a) ∨
      (misaligned4 s.ops.surfBase = false ∧ ∃ b,
        qsurfLoop s.cfg s.ops (positions s.ops.surfW.toNat s.ops.surfH.toNat) s.bus = .ok b ∧
        t = ((s.putBus b).addUses (qsurfUses s.ops)).complete)) := by
  unfold execQsurf8 at h
  split at h
  · next he => cases h; exact .inl ⟨he, rfl⟩
  · next he =>
    refine .inr ⟨he, ?_⟩
    split at h
    · next hm => cases h; exact .inl ⟨hm, rfl⟩
    · next hm =>
      have hm : misaligned4 s.ops.surfBase = false := by simpa using hm
      split at h
      · next a ha => cases h; exact .inr (.inl ⟨hm, a, ha, rfl⟩)
      · next b hb => cases h; exact .inr (.inr ⟨hm, b, hb, rfl⟩)

/-- Everything ALIGN can do (R153): Geometry, or the aligned region in RES0 and RES1. -/
theorem execAlign_cases {s t : State} (h : execAlign s = .next t) :
    (argRegion s.ops = none ∧ t = s.raise .geometry 0#32) ∨
    (∃ r, argRegion s.ops = some r ∧ t = (s.setResRegion r).complete) := by
  unfold execAlign at h
  split at h
  · next hr => cases h; exact .inl ⟨hr, rfl⟩
  · next r hr => cases h; exact .inr ⟨r, hr, rfl⟩

/-- Everything PACKR can do (R154): Geometry, or the region packed and in RES0 and RES1. -/
theorem execPackr_cases {s t : State} (h : execPackr s = .next t) :
    (argRegion s.ops = none ∧ t = s.setLutrdy.raise .geometry 0#32) ∨
    (∃ r, argRegion s.ops = some r ∧ t = s.setLutrdy.packThen r fun _ u => (u.setResRegion r).complete) := by
  unfold execPackr at h
  split at h
  · next hr => cases h; exact .inl ⟨hr, rfl⟩
  · next r hr => cases h; exact .inr ⟨r, hr, rfl⟩

/-- Everything PFLUSH can do (R190): nothing beyond LUTRDY, Geometry, or the dirty region packed, its events emitted and the dirty
state cleared. -/
theorem execPflush_cases {s t : State} (h : execPflush s = .next t) :
    ((s.ops.hsen = false ∨ s.dirty.dv = false) ∧ t = s.setLutrdy.complete) ∨
    (s.ops.hsen = true ∧ s.dirty.dv = true ∧ dirtyRegion s.ops s.dirty = none ∧ t = s.setLutrdy.raise .geometry 0#32) ∨
    (s.ops.hsen = true ∧ s.dirty.dv = true ∧ ∃ r, dirtyRegion s.ops s.dirty = some r ∧
      t = s.setLutrdy.packThen r fun pb u => (((u.emitRegion r pb).clearDirty).setResRegion r).complete) := by
  unfold execPflush at h
  split at h
  · next hg => cases h; exact .inl ⟨by simpa using hg, rfl⟩
  · next hg =>
    obtain ⟨hh, hd⟩ : s.ops.hsen = true ∧ s.dirty.dv = true := by simpa using hg
    split at h
    · next hr => cases h; exact .inr (.inl ⟨hh, hd, hr, rfl⟩)
    · next r hr => cases h; exact .inr (.inr ⟨hh, hd, r, hr, rfl⟩)

/-- Everything PFULL can do (R191): nothing beyond LUTRDY, Geometry, or the whole screen packed and its events emitted. -/
theorem execPfull_cases {s t : State} (h : execPfull s = .next t) :
    (s.ops.hsen = false ∧ t = s.setLutrdy.complete) ∨
    (s.ops.hsen = true ∧ screenRegion s.ops = none ∧ t = s.setLutrdy.raise .geometry 0#32) ∨
    (s.ops.hsen = true ∧ ∃ r, screenRegion s.ops = some r ∧
      t = s.setLutrdy.packThen r fun pb u => ((u.emitRegion r pb).setResRegion r).complete) := by
  unfold execPfull at h
  split at h
  · next hg => cases h; exact .inl ⟨by simpa using hg, rfl⟩
  · next hg =>
    have hh : s.ops.hsen = true := by simpa using hg
    split at h
    · next hr => cases h; exact .inr (.inl ⟨hh, hr, rfl⟩)
    · next r hr => cases h; exact .inr (.inr ⟨hh, r, hr, rfl⟩)

end Sys2Proof.Machine
end

section
/-! What every command keeps: it is proved of each update a command is made of, and composed. -/

namespace Sys2Proof.Machine

/-- What no command breaks: the setup, each well-formedness the invariant asks for, and the events delivered before. It is reflexive
and transitive, so a command keeps it as soon as each of its updates does. -/
structure CommandKeeps (s t : State) : Prop where
  setup : SetupKept s t
  mem : Memory.wf s.mem = true → Memory.wf t.mem = true
  dirty : s.dirty.wf = true → t.dirty.wf = true
  errs : s.errs.wf = true → t.errs.wf = true
  events : s.events <+: t.events

theorem SetupKept.refl (s : State) : SetupKept s s := ⟨rfl, rfl, rfl, rfl, rfl, rfl, rfl⟩

theorem SetupKept.trans {s t u : State} (h : SetupKept s t) (h' : SetupKept t u) : SetupKept s u := by
  obtain ⟨hcfg, hregs, hhost, hvars, hturns, hheld, hhazard⟩ := h
  obtain ⟨hcfg', hregs', hhost', hvars', hturns', hheld', hhazard'⟩ := h'
  exact ⟨hcfg'.trans hcfg, hregs'.trans hregs, hhost'.trans hhost, hvars'.trans hvars, hturns'.trans hturns,
    hheld'.trans hheld, hhazard'.trans hhazard⟩

namespace CommandKeeps

theorem trans {s t u : State} (h : CommandKeeps s t) (h' : CommandKeeps t u) : CommandKeeps s u where
  setup := h.setup.trans h'.setup
  mem hw := h'.mem (h.mem hw)
  dirty hw := h'.dirty (h.dirty hw)
  errs hw := h'.errs (h.errs hw)
  events := h.events.trans h'.events

/-- An update of other fields: the latch, RES0 and RES1, LUTRDY, the raced bytes, the uses or the free-value counter. -/
theorem of_eq {s t : State} (hset : SetupKept s t) (hm : t.mem = s.mem) (hd : t.dirty = s.dirty) (he : t.errs = s.errs)
    (hv : t.events = s.events) : CommandKeeps s t where
  setup := hset
  mem hw := hm ▸ hw
  dirty hw := hd ▸ hw
  errs hw := he ▸ hw
  events := hv ▸ List.prefix_rfl

theorem setLutrdy (s : State) : CommandKeeps s s.setLutrdy := of_eq (.refl s) rfl rfl rfl rfl

theorem setRes0 (a : Word) (s : State) : CommandKeeps s (s.setRes0 a) := of_eq (.refl s) rfl rfl rfl rfl

theorem setRes (a b : Word) (s : State) : CommandKeeps s (s.setRes a b) := of_eq (.refl s) rfl rfl rfl rfl

theorem setResRegion (r : Region) (s : State) : CommandKeeps s (s.setResRegion r) := setRes _ _ s

theorem addUses (us : List Use) (s : State) : CommandKeeps s (s.addUses us) := of_eq (.refl s) rfl rfl rfl rfl

theorem count (f : Nat) (s : State) : CommandKeeps s { s with freeCtr := f } := of_eq (.refl s) rfl rfl rfl rfl

theorem complete (s : State) : CommandKeeps s s.complete := of_eq (.refl s) rfl rfl rfl rfl

theorem putBus {b : Bus} {s : State} (hb : Memory.wf s.mem = true → Memory.wf b.mem = true) : CommandKeeps s (s.putBus b) :=
  ⟨.refl s, hb, id, id, List.prefix_rfl⟩

theorem havocRange (r : Range) (s : State) : CommandKeeps s (s.havocRange r) :=
  ⟨.refl s, (OnlyChanges.havocRange r s).2, id, id, List.prefix_rfl⟩

theorem havocRanges (rs : List Range) (s : State) : CommandKeeps s (s.havocRanges rs) := by
  induction rs generalizing s with
  | nil => exact of_eq (.refl s) rfl rfl rfl rfl
  | cons r rs ih => exact (havocRange r s).trans (ih _)

theorem emit (es : List HsEvent) (s : State) : CommandKeeps s (s.emit es) :=
  ⟨.refl s, id, id, id, List.prefix_append _ _⟩

theorem clearDirty (s : State) : CommandKeeps s s.clearDirty :=
  ⟨.refl s, id, fun _ => rfl, id, List.prefix_rfl⟩

end CommandKeeps

/-- R230's codes are 1 to 6 (V3). -/
theorem ErrorKind.code_bounds (e : ErrorKind) : 1 ≤ e.code.toNat ∧ e.code.toNat ≤ 6 := by
  cases e <;> decide

/-- A recorded error is one of R230's, whatever command and address it names. -/
theorem ErrRec.wf_recorded (e : ErrorKind) (a c : Word) :
    ErrRec.wf { err := true, code := e.code, addr := a, cmd := c } = true := by
  simp [ErrRec.wf, e.code_bounds]

/-- Marking a rectangle of 16-bit coordinates keeps R37: the 17-bit edges hold every sum, so no edge passes its opposite. -/
theorem Dirty.wf_mark {d : Dirty} {x y w h : Nat} (hd : d.wf = true) (hx : x < 65536) (hy : y < 65536) (hw : w < 65536)
    (hh : h < 65536) : (d.mark x y w h).wf = true := by
  cases hv : d.dv with
  | false =>
    simp only [Dirty.mark, Dirty.wf, edgeSum, hv, BitVec.toNat_ofNat, Bool.false_eq_true, if_true, if_false,
      Bool.and_eq_true, decide_eq_true_eq]
    omega
  | true =>
    have hl := d.dl.isLt
    have ht := d.dt.isLt
    have hr := d.dr.isLt
    have hb := d.db.isLt
    simp only [Dirty.wf, hv, if_true, Bool.and_eq_true, decide_eq_true_eq] at hd
    simp only [Dirty.mark, Dirty.wf, hv, BitVec.toNat_ofNat, if_true, Bool.and_eq_true, decide_eq_true_eq]
    omega

namespace CommandKeeps

theorem record (e : ErrorKind) (c a : Word) (s : State) : CommandKeeps s (s.record e c a) where
  setup := by simp [SetupKept]
  mem := by simp
  dirty := by simp
  errs hw := by
    rw [State.record_errs]
    split
    · exact hw
    · exact ErrRec.wf_recorded e a c
  events := by simp

theorem raise (e : ErrorKind) (a : Word) (s : State) : CommandKeeps s (s.raise e a) :=
  (record e s.cmd.word a s).trans (complete _)

theorem raiseBusError (out : Range) (a : Word) (s : State) : CommandKeeps s (s.raiseBusError out a) :=
  (havocRange out s).trans (raise .busError a _)

theorem markRect {x y w h : Nat} (hx : x < 65536) (hy : y < 65536) (hw : w < 65536) (hh : h < 65536) (s : State) :
    CommandKeeps s (s.markRect x y w h) :=
  ⟨.refl s, id, fun hd => Dirty.wf_mark hd hx hy hw hh, id, List.prefix_rfl⟩

theorem emitRegion (r : Region) (pb : List Planes) (s : State) : CommandKeeps s (s.emitRegion r pb) := by
  unfold State.emitRegion
  split
  · exact of_eq (.refl s) rfl rfl rfl rfl
  · exact (emit _ s).trans (addUses _ _)

/-- A command that packs keeps what its last part keeps. -/
theorem packThen {fin : List Planes → State → State} (hfin : ∀ pb u, CommandKeeps u (fin pb u)) (r : Region) (s : State) :
    CommandKeeps s (s.packThen r fin) := by
  obtain ⟨-, h⟩ | ⟨-, -, h⟩ | ⟨-, -, p, -, h⟩ | ⟨-, -, -, pb, b, hpack, h⟩ := packThen_cases s r fin <;> rw [h]
  · exact hfin [] s
  · exact raise _ _ s
  · exact raiseBusError _ _ s
  · exact ((putBus (packRegion_only hpack).2).trans (addUses _ _)).trans (hfin pb _)

end CommandKeeps

/-! ### Every command -/

/-- Every command is a chain of updates, each of which keeps it. -/
theorem exec_keeps {i : Instr} {s t : State} (h : exec i s = .next t) : CommandKeeps s t := by
  cases i with
  | nop => cases h; exact .complete s
  | nearest | dthr | qpix => cases h; exact (CommandKeeps.setRes _ _ s).trans (.complete _)
  | lutinit => cases h; exact (CommandKeeps.setLutrdy s).trans (.complete _)
  | pair | pack8 => cases h; exact ((CommandKeeps.setLutrdy s).trans (.setRes0 _ _)).trans (.complete _)
  | clear => cases h; exact (CommandKeeps.clearDirty s).trans (.complete _)
  | mark =>
    cases h
    exact (CommandKeeps.markRect (loHalf_lt _) (hiHalf_lt _) (loHalf_lt _) (hiHalf_lt _) s).trans (.complete _)
  | align =>
    obtain ⟨-, rfl⟩ | ⟨r, -, rfl⟩ := execAlign_cases h
    · exact .raise _ _ s
    · exact (CommandKeeps.setResRegion r s).trans (.complete _)
  | remap =>
    obtain ⟨-, rfl⟩ | ⟨-, a, -, rfl⟩ | ⟨-, l, f, -, rfl⟩ := execRemap_cases h
    · exact .raise _ _ s
    · exact .raise _ _ s
    · exact (((CommandKeeps.count f s).trans (.setRes _ _ _)).trans (.addUses _ _)).trans (.complete _)
  | qsurf8 =>
    obtain ⟨-, rfl⟩ | ⟨-, ⟨-, rfl⟩ | ⟨-, a, -, rfl⟩ | ⟨-, b, hb, rfl⟩⟩ := execQsurf8_cases h
    · exact .complete s
    · exact .raise _ _ s
    · exact .raiseBusError _ _ s
    · exact ((CommandKeeps.putBus (qsurfLoop_only (fun _ _ => mem_positions.mp) hb).2).trans (.addUses _ _)).trans
        (.complete _)
  | packr =>
    obtain ⟨-, rfl⟩ | ⟨r, -, rfl⟩ := execPackr_cases h
    · exact (CommandKeeps.setLutrdy s).trans (.raise _ _ _)
    · exact (CommandKeeps.setLutrdy s).trans
        (.packThen (fun _ u => (CommandKeeps.setResRegion r u).trans (.complete _)) r _)
  | pflush =>
    obtain ⟨-, rfl⟩ | ⟨-, -, -, rfl⟩ | ⟨-, -, r, -, rfl⟩ := execPflush_cases h
    · exact (CommandKeeps.setLutrdy s).trans (.complete _)
    · exact (CommandKeeps.setLutrdy s).trans (.raise _ _ _)
    · exact (CommandKeeps.setLutrdy s).trans (.packThen (fun pb u =>
        (((CommandKeeps.emitRegion r pb u).trans (.clearDirty _)).trans (.setResRegion r _)).trans (.complete _)) r _)
  | pfull =>
    obtain ⟨-, rfl⟩ | ⟨-, -, rfl⟩ | ⟨-, r, -, rfl⟩ := execPfull_cases h
    · exact (CommandKeeps.setLutrdy s).trans (.complete _)
    · exact (CommandKeeps.setLutrdy s).trans (.raise _ _ _)
    · exact (CommandKeeps.setLutrdy s).trans (.packThen (fun pb u =>
        ((CommandKeeps.emitRegion r pb u).trans (.setResRegion r _)).trans (.complete _)) r _)

theorem executeLatched_keeps {s t : State} (h : executeLatched s = .next t) : CommandKeeps s t := by
  unfold executeLatched at h
  split at h
  · exact exec_keeps h
  · cases h; exact .raise _ _ s
  · cases h; exact .raise _ _ s

end Sys2Proof.Machine
end

section
/-! What every step keeps, of a command, of each host action and of the reset input. -/

namespace Sys2Proof.Machine

/-! ### What every step keeps -/

/-- No race can alter a delivered event: no result of an executed command waits for BUSY = 0 to be read, or no byte is to be left
alone (R266). -/
def EventsSettled (s : State) : Prop := s.uses = [] ∨ s.hazard = { reads := [], writes := [] }

/-- What every step keeps: the parameters, the invariant, each delivered event's kind, place and length, and, where no race can
alter them, the delivered events themselves. -/
structure StepKeeps (s t : State) : Prop where
  cfg : t.cfg = s.cfg
  good : s.Inv → t.Inv
  shapes : s.events.map HsEvent.shape <+: t.events.map HsEvent.shape
  events : EventsSettled s → s.events <+: t.events

/-- The invariant through an update that leaves what is held for host reads alone: they show the held dirty state, or the machine's
own. -/
theorem State.Inv.of_held {s t : State} (hcfg : t.cfg = s.cfg) (hheld : t.held = s.held)
    (hmem : Memory.wf s.mem = true → Memory.wf t.mem = true) (hdirty : s.dirty.wf = true → t.dirty.wf = true)
    (herrs : s.errs.wf = true → t.errs.wf = true) (h : s.Inv) : t.Inv := by
  obtain ⟨hk, hm, hd, hs, he⟩ := h
  refine ⟨hcfg ▸ hk, hmem hm, hdirty hd, ?_, herrs he⟩
  unfold State.shown at hs ⊢
  rw [hheld]
  cases hq : s.held with
  | none => exact hdirty hd
  | some q => simpa [hq] using hs

theorem CommandKeeps.stepKeeps {s t : State} (h : CommandKeeps s t) : StepKeeps s t := by
  obtain ⟨hcfg, -, -, -, -, hheld, -⟩ := h.setup
  exact ⟨hcfg, .of_held hcfg hheld h.mem h.dirty h.errs, h.events.map _, fun _ => h.events⟩

namespace StepKeeps

theorem refl (s : State) : StepKeeps s s := ⟨rfl, id, List.prefix_rfl, fun _ => List.prefix_rfl⟩

/-- A further update that keeps the parameters, the invariant and the events. -/
theorem andThen {s t u : State} (h : StepKeeps s t) (hc : u.cfg = t.cfg) (hi : t.Inv → u.Inv) (he : u.events = t.events) :
    StepKeeps s u :=
  ⟨hc.trans h.cfg, fun hs => hi (h.good hs), he ▸ h.shapes, he ▸ h.events⟩

theorem bindVar {s t : State} (h : StepKeeps s t) (x : Nat) (v : Word) : StepKeeps s (t.bindVar x v) :=
  h.andThen rfl id rfl

theorem setHost {s t : State} (h : StepKeeps s t) (l : List HostAction) : StepKeeps s { t with host := l } :=
  h.andThen rfl id rfl

/-- Reset leaves the clean dirty state and an empty error record (R260). -/
theorem clearBdq {s t : State} (h : StepKeeps s t) : StepKeeps s t.clearBdq :=
  h.andThen rfl (fun ⟨hk, hm, _⟩ => ⟨hk, hm, rfl, rfl, rfl⟩) rfl

/-- A CMD write holds what host reads show before it (R265). -/
theorem accept (c : Word) (s : State) : StepKeeps s (s.accept c) := (refl s).andThen rfl id rfl

/-- A STATUS read shows the dirty state itself from then on, or what was shown before (R265). -/
theorem acknowledge (s : State) : StepKeeps s s.acknowledge := by
  unfold State.acknowledge
  split
  · exact refl s
  · exact (refl s).andThen rfl (fun ⟨hk, hm, hd, _, he⟩ => ⟨hk, hm, hd, hd, he⟩) rfl

theorem writeStatus (v : Word) (s : State) : StepKeeps s (s.writeStatus v) := by
  unfold State.writeStatus
  split
  · exact (refl s).andThen rfl (fun ⟨hk, hm, hd, hs, _⟩ => ⟨hk, hm, hd, hs, rfl⟩) rfl
  · exact refl s

theorem writeCmd (c : Word) (s : State) : StepKeeps s (s.writeCmd c) := by
  unfold State.writeCmd
  split
  · exact (CommandKeeps.record _ _ _ s).stepKeeps
  · exact accept c s

theorem writeReg (v : Word) (s : State) (r : Reg) : StepKeeps s (writeReg v s r) := by
  unfold Machine.writeReg
  split
  · exact writeCmd v s
  · exact writeStatus v s
  · exact (refl s).andThen rfl id rfl

theorem afterRead (s : State) (r : Reg) : StepKeeps s (afterRead s r) := by
  unfold Machine.afterRead
  split
  · exact acknowledge s
  · exact refl s

end StepKeeps

/-! ### Host accesses of memory -/

/-- A race happens only where a byte is to be left alone, and alters an event only where a result waits. -/
theorem hostPutByte_events {s : State} (h : EventsSettled s) (a : Word) (v : Byte) : (hostPutByte s a v).events = s.events := by
  obtain hu | hz := h
  · unfold hostPutByte
    split
    · exact raceByte_events hu a
    · rfl
  · rw [hostPutByte_plain (by simp [hz, coveredBy]) (by simp [hz, coveredBy])]

theorem afterHostByte_events {s : State} (h : EventsSettled s) (a : Word) : (afterHostByte s a).events = s.events := by
  obtain hu | hz := h
  · unfold afterHostByte
    split
    · exact raceByte_events (s := { s with freeCtr := s.freeCtr + 1 }) hu a
    · rfl
  · rw [afterHostByte_plain (by simp [hz, coveredBy])]

/-- Whether events are settled is read from fields no host access of memory touches. -/
theorem EventsSettled.of_apart {s t : State} (ha : t.apart = s.apart) (h : EventsSettled s) : EventsSettled t :=
  h.imp (congrArg State.uses ha).trans (congrArg State.hazard ha).trans

theorem hostPut_events {s : State} (h : EventsSettled s) (v : Word) (as : List Word) : (hostPut v as s).events = s.events := by
  induction as generalizing s v with
  | nil => rfl
  | cons a as ih =>
    have ha := hostPutByte_keeps (hostKeeps_apart s) a (v.extractLsb' 0 8) s rfl
    exact (ih (h.of_apart ha) (v >>> 8)).trans (hostPutByte_events h a _)

theorem hostGet_events {s : State} (h : EventsSettled s) (as : List Word) : (hostGet as s).2.events = s.events := by
  induction as generalizing s with
  | nil => rfl
  | cons a as ih =>
    have ha := afterHostByte_keeps (hostKeeps_apart s) a s rfl
    exact (ih (h.of_apart ha)).trans (afterHostByte_events h a)

namespace StepKeeps

/-- A host access of memory: what its updates keep (Laws/Host), it keeps, and it alters no settled event. -/
theorem of_access {s t : State} (h : ∀ Q, HostKeeps Q → Q s → Q t) (he : EventsSettled s → t.events = s.events) :
    StepKeeps s t := by
  have ha : t.apart = s.apart := h _ (hostKeeps_apart s) rfl
  have hcfg : t.cfg = s.cfg := (congrArg State.cfg ha :)
  have hdirty : t.dirty = s.dirty := (congrArg State.dirty ha :)
  have herrs : t.errs = s.errs := (congrArg State.errs ha :)
  have hgood : s.Inv → t.Inv :=
    .of_held hcfg (congrArg State.held ha :) (h _ hostKeeps_wf) (fun hd => hdirty ▸ hd) (fun hr => herrs ▸ hr)
  exact ⟨hcfg, hgood, (h _ (hostKeeps_shapes _) rfl) ▸ List.prefix_rfl, fun hs => he hs ▸ List.prefix_rfl⟩

theorem hostPut (v : Word) (as : List Word) (s : State) : StepKeeps s (hostPut v as s) :=
  of_access (fun _ h => hostPut_keeps h v as s) fun h => hostPut_events h v as

theorem hostGet (as : List Word) (s : State) : StepKeeps s (hostGet as s).2 :=
  of_access (fun _ h => hostGet_keeps h as s) fun h => hostGet_events h as

end StepKeeps

/-! ### Host actions and steps -/

theorem hostStore_keeps {a : Word} {w : Width} {v : Word} {s t : State} (h : hostStore a w v s = .next t) : StepKeeps s t := by
  unfold hostStore at h
  split at h
  · split at h
    · split at h
      · cases h; exact .writeReg v s _
      · cases h; exact .refl s
    · cases h
  · cases h; exact .hostPut v _ s

theorem hostLoad_keeps {a : Word} {w : Width} {x : Nat} {s t : State} (h : hostLoad a w x s = .next t) : StepKeeps s t := by
  unfold hostLoad at h
  split at h
  · split at h
    · split at h
      · cases h; exact (StepKeeps.afterRead s _).bindVar x _
      · cases h; exact (StepKeeps.refl s).bindVar x _
    · cases h
  · cases h; exact (StepKeeps.hostGet _ s).bindVar x _

theorem pollOnce_keeps (x : Nat) (s : State) : StepKeeps s (s.pollOnce x) := by
  have hread := (StepKeeps.afterRead s .status).bindVar x (readReg s .status)
  unfold State.pollOnce
  split
  · exact hread.setHost _
  · exact hread

/-- What reset makes of a running command: the free-value counter moves, a first part of its events is delivered and its output range
holds free values (R262). -/
theorem abort_eq (s : State) : ∃ f es rs, s.abort = State.havocRanges rs (({ s with freeCtr := f } : State).emit es) := by
  unfold State.abort
  dsimp only
  split
  · exact ⟨_, _, _, rfl⟩
  · exact ⟨_, _, _, rfl⟩
  · exact ⟨_, _, _, rfl⟩

theorem abort_keeps (s : State) : CommandKeeps s s.abort := by
  obtain ⟨f, es, rs, h⟩ := abort_eq s
  rw [h]
  exact ((CommandKeeps.count f s).trans (.emit es _)).trans (.havocRanges rs _)

theorem resetInput_keeps (s : State) : StepKeeps s s.resetInput := by
  unfold State.resetInput
  split
  · exact (abort_keeps s).stepKeeps.clearBdq
  · exact (StepKeeps.refl s).clearBdq

theorem hostAct_keeps {act : HostAction} {s t : State} (h : hostAct act s = .next t) : StepKeeps s t := by
  cases act with
  | store a w v => exact hostStore_keeps h
  | load a w x => exact hostLoad_keeps h
  | poll x => cases h; exact pollOnce_keeps x s
  | reset => cases h; exact resetInput_keeps s

/-- Taking the host's next action or the next turn off its list changes nothing a step keeps. -/
theorem StepKeeps.of_taken {s t : State} {l : List HostAction} {ts : List Turn}
    (h : StepKeeps { s with host := l, turns := ts } t) : StepKeeps s t :=
  ⟨h.cfg, h.good, h.shapes, h.events⟩

theorem hostStep_keeps {s t : State} (h : hostStep s = .next t) : StepKeeps s t := by
  unfold hostStep at h
  split at h
  · cases h; exact .refl s
  · exact (hostAct_keeps h).of_taken

/-- One case per agent that moves (R5, R41): BDQ executes the latched command, or the host acts. -/
theorem step_keeps {s t : State} (h : step s = .next t) : StepKeeps s t := by
  unfold step advance at h
  split at h
  · split at h
    · exact (executeLatched_keeps h).stepKeeps
    · exact (executeLatched_keeps h).stepKeeps.of_taken
    · exact (hostStep_keeps h).of_taken
  · exact hostStep_keeps h

/-- Settles O55: every update a command or a host action is made of keeps the invariant. -/
theorem stepKeepsGoodState : Obligations.StepKeepsGoodState :=
  fun _ _ hs h => (step_keeps h).good hs

/-- Settles O47: the parameters are among what every step keeps. -/
theorem parametersConstant : Obligations.ParametersConstant :=
  fun _ _ h => (step_keeps h).cfg

end Sys2Proof.Machine
end

section
/-! Which commands leave memory and the events alone. -/

namespace Sys2Proof.Machine

/-- Settles O44: by what each of the commands can do. -/
theorem registerCommandFrames : Obligations.RegisterCommandFrames := by
  intro i s t h hi
  cases i with
  | nop | nearest | dthr | qpix | lutinit | pair | pack8 | mark | clear => cases h; simp [MemoryKept]
  | align => obtain ⟨-, rfl⟩ | ⟨r, -, rfl⟩ := execAlign_cases h <;> simp [MemoryKept]
  | remap => obtain ⟨-, rfl⟩ | ⟨-, a, -, rfl⟩ | ⟨-, l, f, -, rfl⟩ := execRemap_cases h <;> simp [MemoryKept]
  | qsurf8 | packr | pflush | pfull => exact absurd hi (by decide)

/-- PackRegion itself delivers no event: what packThen delivers, its last part does. -/
theorem packThen_events {fin : List Planes → State → State} (hfin : ∀ pb u, (fin pb u).events = u.events) (r : Region)
    (s : State) : (s.packThen r fin).events = s.events := by
  obtain ⟨-, h⟩ | ⟨-, -, h⟩ | ⟨-, -, p, -, h⟩ | ⟨-, -, -, pb, b, -, h⟩ := packThen_cases s r fin <;> rw [h]
  · exact hfin [] s
  · exact State.raise_events _ _ s
  · exact State.raise_events _ _ _
  · exact hfin pb _

/-- Of the commands only PFLUSH and PFULL emit events (R180). -/
theorem exec_events {i : Instr} {s t : State} (h : exec i s = .next t) (hflush : i ≠ .pflush) (hfull : i ≠ .pfull) :
    t.events = s.events := by
  cases i with
  | pflush | pfull => contradiction
  | qsurf8 =>
    obtain ⟨-, rfl⟩ | ⟨-, ⟨-, rfl⟩ | ⟨-, a, -, rfl⟩ | ⟨-, b, -, rfl⟩⟩ := execQsurf8_cases h
    · rfl
    · exact State.raise_events _ _ s
    · exact State.raise_events _ _ _
    · rfl
  | packr =>
    obtain ⟨-, rfl⟩ | ⟨r, -, rfl⟩ := execPackr_cases h
    · simp
    · refine packThen_events (fun _ _ => ?_) r s.setLutrdy
      rfl
  | _ => exact (registerCommandFrames _ s t h (by decide)).2.1

/-- Settles O46: an update of the events appends to them, or is a race, which alters copied bytes of results that wait. -/
theorem eventsOnlyAppended : Obligations.EventsOnlyAppended := by
  refine ⟨fun s t h hs => ?_, fun s t h => ?_, fun _ _ _ => exec_events⟩
  · obtain ⟨es, hes⟩ := (step_keeps h).events hs
    exact ⟨es, hes.symm⟩
  · obtain ⟨es, hes⟩ := (step_keeps h).shapes
    exact ⟨es, hes.symm⟩

end Sys2Proof.Machine
end

section
/-! Commands read the latched copies of the read/write registers: each computes the same with other values in the registers. -/

namespace Sys2Proof.Machine

/-- The state with other values in the read/write registers. -/
def State.withRegs (g : Regs) (s : State) : State := { s with regs := g }

/-- An outcome's next state with other values in the read/write registers. -/
def outcomeWithRegs (g : Regs) : Host.Outcome State Fault Refusal → Host.Outcome State Fault Refusal
  | .next t => .next (t.withRegs g)
  | .fault r => .fault r
  | .refused r => .refused r

section withRegs

variable (g : Regs) (s : State)

@[simp] theorem withRegs_ops : (s.withRegs g).ops = s.ops := rfl
@[simp] theorem withRegs_cfg : (s.withRegs g).cfg = s.cfg := rfl
@[simp] theorem withRegs_bus : (s.withRegs g).bus = s.bus := rfl
@[simp] theorem withRegs_dirty : (s.withRegs g).dirty = s.dirty := rfl
@[simp] theorem withRegs_putBus (b : Bus) : (s.withRegs g).putBus b = (s.putBus b).withRegs g := rfl
@[simp] theorem withRegs_addUses (us : List Use) : (s.withRegs g).addUses us = (s.addUses us).withRegs g := rfl
@[simp] theorem withRegs_setLutrdy : (s.withRegs g).setLutrdy = s.setLutrdy.withRegs g := rfl

@[simp] theorem record_withRegs (e : ErrorKind) (c a : Word) : (s.withRegs g).record e c a = (s.record e c a).withRegs g := by
  unfold State.record
  rw [apply_ite (State.withRegs g)]
  rfl

@[simp] theorem raise_withRegs (e : ErrorKind) (a : Word) : (s.withRegs g).raise e a = (s.raise e a).withRegs g :=
  congrArg State.complete (record_withRegs g s e s.cmd.word a)

@[simp] theorem raiseBusError_withRegs (out : Range) (a : Word) :
    (s.withRegs g).raiseBusError out a = (s.raiseBusError out a).withRegs g :=
  raise_withRegs g (s.havocRange out) .busError a

@[simp] theorem emitRegion_withRegs (r : Region) (pb : List Planes) :
    (s.withRegs g).emitRegion r pb = (s.emitRegion r pb).withRegs g := by
  unfold State.emitRegion
  rw [apply_ite (State.withRegs g)]
  rfl

/-- Packing reads only latched operands when its last part does. -/
theorem packThen_withRegs {fin : List Planes → State → State} (hfin : ∀ pb u, fin pb (u.withRegs g) = (fin pb u).withRegs g)
    (r : Region) : (s.withRegs g).packThen r fin = (s.packThen r fin).withRegs g := by
  unfold State.packThen
  simp only [withRegs_ops, withRegs_cfg, withRegs_bus, raise_withRegs, raiseBusError_withRegs, withRegs_putBus,
    withRegs_addUses]
  split
  · exact hfin [] s
  · split
    · rfl
    · split
      · rfl
      · exact hfin _ _

theorem execRemap_withRegs : execRemap (s.withRegs g) = outcomeWithRegs g (execRemap s) := by
  unfold execRemap
  simp only [withRegs_ops, withRegs_cfg, withRegs_bus, raise_withRegs]
  split
  · rfl
  · split <;> rfl

theorem execQsurf8_withRegs : execQsurf8 (s.withRegs g) = outcomeWithRegs g (execQsurf8 s) := by
  unfold execQsurf8
  simp only [withRegs_ops, withRegs_cfg, withRegs_bus, raise_withRegs, raiseBusError_withRegs]
  split
  · rfl
  · split
    · rfl
    · split <;> rfl

theorem execAlign_withRegs : execAlign (s.withRegs g) = outcomeWithRegs g (execAlign s) := by
  unfold execAlign
  simp only [withRegs_ops, raise_withRegs]
  split <;> rfl

theorem execPackr_withRegs : execPackr (s.withRegs g) = outcomeWithRegs g (execPackr s) := by
  unfold execPackr
  simp only [withRegs_ops, withRegs_setLutrdy, raise_withRegs]
  split
  · rfl
  · refine congrArg _ (packThen_withRegs g _ (fun _ _ => ?_) _)
    rfl

theorem execPflush_withRegs : execPflush (s.withRegs g) = outcomeWithRegs g (execPflush s) := by
  unfold execPflush
  simp only [withRegs_ops, withRegs_dirty, withRegs_setLutrdy, raise_withRegs]
  split
  · rfl
  · split
    · rfl
    · refine congrArg _ (packThen_withRegs g _ (fun pb u => ?_) _)
      rw [emitRegion_withRegs]
      rfl

theorem execPfull_withRegs : execPfull (s.withRegs g) = outcomeWithRegs g (execPfull s) := by
  unfold execPfull
  simp only [withRegs_ops, withRegs_setLutrdy, raise_withRegs]
  split
  · rfl
  · split
    · rfl
    · refine congrArg _ (packThen_withRegs g _ (fun pb u => ?_) _)
      rw [emitRegion_withRegs]
      rfl

/-- No command reads a read/write register: its operands are the latched copies (R9, R40). -/
theorem exec_withRegs (i : Instr) : exec i (s.withRegs g) = outcomeWithRegs g (exec i s) := by
  cases i with
  | nop | nearest | dthr | qpix | lutinit | pair | pack8 | mark | clear => rfl
  | remap => exact execRemap_withRegs g s
  | qsurf8 => exact execQsurf8_withRegs g s
  | align => exact execAlign_withRegs g s
  | packr => exact execPackr_withRegs g s
  | pflush => exact execPflush_withRegs g s
  | pfull => exact execPfull_withRegs g s

end withRegs

/-- Settles O50: also with nothing latched, when the operands are those of the empty latch. -/
theorem latchedOperandsOnly : Obligations.LatchedOperandsOnly :=
  fun i s _ g _ _ h => (exec_withRegs g s i).trans (congrArg (outcomeWithRegs g) h)

end Sys2Proof.Machine
end

section
/-! The register window: each register's place in it, what a host access reaches, and what a register reads as and holds. -/

namespace Sys2Proof.Machine

/-! ### Offsets (R22) -/

/-- The list of the registers is complete. -/
theorem Reg.mem_all (r : Reg) : r ∈ Reg.all := by
  cases r with
  | pal i =>
    have hi : Reg.pal i ∈ (List.range 16).map fun n => Reg.pal (BitVec.ofNat 4 n) :=
      List.mem_map.mpr ⟨i.toNat, List.mem_range.mpr i.isLt, by simp⟩
    exact List.mem_append_left _ (List.mem_append_right _ hi)
  | tmat y => exact List.mem_append_right _ (List.mem_map.mpr ⟨y.toNat, List.mem_range.mpr y.isLt, by simp⟩)
  | _ => decide

/-- A register is found at its own offset, so no two share one. -/
theorem regAt_offset (r : Reg) : regAt r.offset = some r := by
  have hall : ∀ r ∈ Reg.all, regAt r.offset = some r := by decide
  exact hall r r.mem_all

/-- Where R22 names no register none is found (R21). -/
theorem regAt_eq_none {off : Nat} (h : ∀ r : Reg, r.offset ≠ off) : regAt off = none := by
  simp [regAt, h]

theorem Reg.offset_lt (r : Reg) : r.offset < 256 := by
  have hall : ∀ r ∈ Reg.all, r.offset < 256 := by decide
  exact hall r r.mem_all

theorem Reg.offset_aligned (r : Reg) : r.offset % 4 = 0 := by
  have hall : ∀ r ∈ Reg.all, r.offset % 4 = 0 := by decide
  exact hall r r.mem_all

/-! ### Which accesses reach the window (R20) -/

/-- The number of bytes of an access. -/
def Width.bytes : Width → Nat
  | .byte => 1
  | .half => 2
  | .word => 4

theorem accessBytes_eq (a : Word) (w : Width) : accessBytes a w = (List.range w.bytes).map fun i => a + BitVec.ofNat 32 i := by
  cases w <;> simp [accessBytes, Width.bytes, List.range_succ]

/-- An access touches the window with one of its bytes. -/
theorem touchesWindow_iff (k : Config) (a : Word) (w : Width) :
    touchesWindow k a w = true ↔ ∃ i, i < w.bytes ∧ (a + BitVec.ofNat 32 i - k.base).toNat < 256 := by
  simp [touchesWindow, accessBytes_eq, windowOffset]

theorem windowAccessOk_iff (k : Config) (a : Word) (w : Width) :
    windowAccessOk k a w = true ↔ w = .word ∧ (a - k.base).toNat % 4 = 0 := by
  simp [windowAccessOk, windowOffset]

theorem windowOffset_base_add (k : Config) {off : Nat} (h : off < 256) : windowOffset k (k.base + BitVec.ofNat 32 off) = off := by
  rw [windowOffset, BitVec.add_comm, BitVec.add_sub_cancel, BitVec.toNat_ofNat]
  omega

/-! ### What a host store or load does, one equation per place it goes -/

section access

variable {s : State} {a : Word} {w : Width}

theorem hostStore_memory (h : touchesWindow s.cfg a w = false) (v : Word) :
    hostStore a w v s = .next (hostPut v (accessBytes a w) s) := by
  simp [hostStore, h]

theorem hostLoad_memory (h : touchesWindow s.cfg a w = false) (x : Nat) :
    hostLoad a w x s = .next ((hostGet (accessBytes a w) s).2.bindVar x (hostGet (accessBytes a w) s).1) := by
  simp [hostLoad, h]

theorem hostStore_refused (h : touchesWindow s.cfg a w = true) (hok : windowAccessOk s.cfg a w = false) (v : Word) :
    hostStore a w v s = .refused .hostAccess := by
  simp [hostStore, h, hok]

theorem hostLoad_refused (h : touchesWindow s.cfg a w = true) (hok : windowAccessOk s.cfg a w = false) (x : Nat) :
    hostLoad a w x s = .refused .hostAccess := by
  simp [hostLoad, h, hok]

/-- A store to the window writes the register there, and nothing where there is none (R21). -/
theorem hostStore_window (h : touchesWindow s.cfg a w = true) (hok : windowAccessOk s.cfg a w = true) (v : Word) :
    hostStore a w v s = .next ((regAt (windowOffset s.cfg a)).elim s (writeReg v s)) := by
  rw [hostStore, if_pos h, if_pos hok]
  cases regAt (windowOffset s.cfg a) <;> rfl

/-- A load from the window reads the register there, and 0 where there is none (R21). -/
theorem hostLoad_window (h : touchesWindow s.cfg a w = true) (hok : windowAccessOk s.cfg a w = true) (x : Nat) :
    hostLoad a w x s =
      .next ((regAt (windowOffset s.cfg a)).elim (s.bindVar x 0#32) fun r => (afterRead s r).bindVar x (readReg s r)) := by
  rw [hostLoad, if_pos h, if_pos hok]
  cases regAt (windowOffset s.cfg a) <;> rfl

/-- Everything a host store that is taken can do: it goes to memory, or to the register at its offset of
the window, if one is there. -/
theorem hostStore_cases {v : Word} {t : State} (h : hostStore a w v s = .next t) :
    (touchesWindow s.cfg a w = false ∧ t = hostPut v (accessBytes a w) s) ∨
    (touchesWindow s.cfg a w = true ∧ windowAccessOk s.cfg a w = true ∧
      t = (regAt (windowOffset s.cfg a)).elim s (writeReg v s)) := by
  cases ht : touchesWindow s.cfg a w with
  | false => rw [hostStore_memory ht] at h; cases h; exact .inl ⟨rfl, rfl⟩
  | true =>
    cases hok : windowAccessOk s.cfg a w with
    | false => rw [hostStore_refused ht hok] at h; cases h
    | true => rw [hostStore_window ht hok] at h; cases h; exact .inr ⟨rfl, rfl, rfl⟩

/-- Everything a host load that is taken can do: it reads memory, or the register at its offset of the
window, if one is there. -/
theorem hostLoad_cases {x : Nat} {t : State} (h : hostLoad a w x s = .next t) :
    (touchesWindow s.cfg a w = false ∧
      t = (hostGet (accessBytes a w) s).2.bindVar x (hostGet (accessBytes a w) s).1) ∨
    (touchesWindow s.cfg a w = true ∧ windowAccessOk s.cfg a w = true ∧
      t = (regAt (windowOffset s.cfg a)).elim (s.bindVar x 0#32) fun r => (afterRead s r).bindVar x (readReg s r)) := by
  cases ht : touchesWindow s.cfg a w with
  | false => rw [hostLoad_memory ht] at h; cases h; exact .inl ⟨rfl, rfl⟩
  | true =>
    cases hok : windowAccessOk s.cfg a w with
    | false => rw [hostLoad_refused ht hok] at h; cases h
    | true => rw [hostLoad_window ht hok] at h; cases h; exact .inr ⟨rfl, rfl, rfl⟩

end access

/-- A 32-bit access at a 4-aligned offset touches the window and is defined. -/
theorem window_access (k : Config) {off : Nat} (h : off < 256) (h4 : off % 4 = 0) :
    touchesWindow k (k.base + BitVec.ofNat 32 off) .word = true ∧
      windowAccessOk k (k.base + BitVec.ofNat 32 off) .word = true := by
  have hoff : (k.base + BitVec.ofNat 32 off - k.base).toNat = off := windowOffset_base_add k h
  refine ⟨(touchesWindow_iff ..).mpr ⟨0, by decide, ?_⟩, (windowAccessOk_iff ..).mpr ⟨rfl, ?_⟩⟩
  · rw [BitVec.add_zero, hoff]; exact h
  · rw [hoff]; exact h4

theorem hostStore_offset (s : State) (v : Word) {off : Nat} (h : off < 256) (h4 : off % 4 = 0) :
    hostStore (s.cfg.base + BitVec.ofNat 32 off) .word v s = .next ((regAt off).elim s (writeReg v s)) := by
  obtain ⟨ht, hok⟩ := window_access s.cfg h h4
  rw [hostStore_window ht hok, windowOffset_base_add s.cfg h]

theorem hostLoad_offset (s : State) (x : Nat) {off : Nat} (h : off < 256) (h4 : off % 4 = 0) :
    hostLoad (s.cfg.base + BitVec.ofNat 32 off) .word x s =
      .next ((regAt off).elim (s.bindVar x 0#32) fun r => (afterRead s r).bindVar x (readReg s r)) := by
  obtain ⟨ht, hok⟩ := window_access s.cfg h h4
  rw [hostLoad_window ht hok, windowOffset_base_add s.cfg h]

/-- Settles O16: an access outside the window goes to memory, one that touches it is refused unless R20 defines it. -/
theorem narrowWindowAccessRefused : Obligations.NarrowWindowAccessRefused := by
  refine ⟨fun k a => ⟨?_, touchesWindow_iff k a .half, touchesWindow_iff k a .word⟩,
    fun s a v w x => ⟨fun ht hno => ?_, fun h => ?_⟩⟩
  · simp [touchesWindow_iff, Width.bytes]
  · have hok : windowAccessOk s.cfg a w = false := by rwa [← Bool.not_eq_true, windowAccessOk_iff]
    exact ⟨hostStore_refused ht hok v, hostLoad_refused ht hok x⟩
  · cases ht : touchesWindow s.cfg a w with
    | false => exact ⟨⟨_, hostStore_memory ht v⟩, ⟨_, hostLoad_memory ht x⟩⟩
    | true =>
      have hok := (windowAccessOk_iff ..).mpr (h.resolve_left (by simp [ht]))
      exact ⟨⟨_, hostStore_window ht hok v⟩, ⟨_, hostLoad_window ht hok x⟩⟩

/-! ### What a read and a write change -/

/-- A STATUS read with BUSY = 1, and any read of another register, changes nothing. -/
theorem afterRead_eq_self {s : State} {r : Reg} (h : r ≠ .status ∨ s.busy = true) : afterRead s r = s := by
  cases r with
  | status => simp [afterRead, State.acknowledge, h.resolve_left (fun hr => hr rfl)]
  | _ => rfl

theorem afterRead_vars (s : State) (r : Reg) : (afterRead s r).vars = s.vars := by
  cases r with
  | status => exact State.acknowledge_vars s
  | _ => rfl

/-- A write to a register other than CMD and STATUS is one to the read/write registers. -/
theorem writeReg_eq {s : State} {r : Reg} (hcmd : r ≠ .cmd) (hstatus : r ≠ .status) (v : Word) :
    writeReg v s r = { s with regs := s.regs.write v r } := by
  cases r with
  | cmd | status => contradiction
  | _ => rfl

/-- Settles O14: a 4-aligned offset of the window reaches the register there, or none. -/
theorem unnamedOffsetsReadZero : Obligations.UnnamedOffsetsReadZero := by
  refine ⟨regAt_offset, by decide, fun _ => rfl, fun _ => rfl, fun s r v x => ⟨?_, ?_, afterRead_eq_self⟩, fun s hb => ?_,
    fun s off x v hlt h4 hnone => ⟨?_, ?_⟩, fun s v r hr => ?_, fun _ => rfl⟩
  · rw [hostStore_offset s v r.offset_lt r.offset_aligned, regAt_offset]
    rfl
  · rw [hostLoad_offset s x r.offset_lt r.offset_aligned, regAt_offset, ← afterRead_vars s r]
    rfl
  · simp [afterRead, State.acknowledge, hb, Footprint.empty]
  · rw [hostStore_offset s v hlt h4, regAt_eq_none hnone]
    rfl
  · rw [hostLoad_offset s x hlt h4, regAt_eq_none hnone]
    rfl
  · cases r with
    | id | res0 | res1 | erraddr | errcmd | dirtyX | dirtyY | dirtyW | dirtyH | pal | tmat => rfl
    | _ => simp at hr

/-! ### The read/write registers -/

/-- A 16-bit register as the host reads it. -/
theorem toNat_half (v : BitVec 16) : (v.zeroExtend 32).toNat = v.toNat := BitVec.toNat_setWidth_of_le (by decide)

/-- What a 16-bit register holds of a written word. -/
theorem toNat_written_half (v : Word) : ((v.extractLsb' 0 16).zeroExtend 32).toNat = v.toNat % 65536 :=
  (toNat_half _).trans (loHalf_eq v)

/-- A write to one register leaves what the others read as: each read/write register is a field of its own (so the two
sides agree by definition, or the registers are the same), and a write to any other register changes no field. -/
theorem readReg_write_other (s : State) (v : Word) {r r' : Reg} (h : r ≠ r') :
    readReg { s with regs := s.regs.write v r } r' = readReg s r' := by
  cases r with
  | ctrl | arg0 | arg1 | arg2 | arg3 | scrW | scrH | surfBase | surfW | surfH | outBase => cases r' <;> trivial
  | _ => rfl

/-- CTRL reads as HSEN in bit 0 (R28). -/
theorem readReg_ctrl (s : State) : readReg s .ctrl = if s.regs.hsen then 1#32 else 0#32 := by
  show (BitVec.ofBool s.regs.hsen).zeroExtend 32 = _
  cases s.regs.hsen <;> rfl

/-- Settles O15: by the field each register is. -/
theorem registerWriteReadBack : Obligations.RegisterWriteReadBack := by
  refine ⟨fun s => ?_, fun s v r hr => ?_, fun s v r hr => ?_, fun s v => ?_, fun s v r r' hcmd hstatus hne => ?_⟩
  · exact ⟨rfl, rfl, rfl, rfl, rfl, rfl, toNat_half _, toNat_half _, toNat_half _, toNat_half _, readReg_ctrl s⟩
  · cases r with
    | arg0 | arg1 | arg2 | arg3 | surfBase | outBase => rfl
    | _ => simp at hr
  · cases r with
    | scrW | scrH | surfW | surfH => exact toNat_written_half v
    | _ => simp at hr
  · rw [readReg_ctrl]
    show (if v.getLsbD 0 then 1#32 else 0#32).toNat = _
    rw [BitVec.getLsbD, Nat.testBit_zero]
    rcases Nat.mod_two_eq_zero_or_one v.toNat with h | h <;> simp [h]
  · rw [writeReg_eq hcmd hstatus]
    exact readReg_write_other s v hne

/-! ### CMD and STATUS writes -/

theorem writeReg_cmd_idle {s : State} (h : s.busy = false) (c : Word) : writeReg c s .cmd = s.accept c := by
  simp [writeReg, State.writeCmd, h]

theorem writeReg_cmd_busy {s : State} (h : s.busy = true) (c : Word) : writeReg c s .cmd = s.record .busyCommand c 0#32 := by
  simp [writeReg, State.writeCmd, h]

/-- Settles O7: an acceptance with BUSY = 0, a recorded error with BUSY = 1, and what is latched shows nowhere. -/
theorem cmdWriteLatchesOrDrops : Obligations.CmdWriteLatchesOrDrops := by
  refine ⟨fun s c hb => ?_, fun s c hb => ?_, fun s r v hcmd => ?_, fun s r l l' => ?_⟩
  · rw [writeReg_cmd_idle hb]
    simp
  · rw [writeReg_cmd_busy hb]
    exact ⟨State.record_latch .., fun he => by simp [State.record, he], fun he => by simp [State.record, he, ErrorKind.code]⟩
  · by_cases hstatus : r = .status
    · subst hstatus
      simp only [writeReg, State.writeStatus]
      split <;> rfl
    · rw [writeReg_eq hcmd hstatus]
  · cases r <;> rfl

/-- Settles O8: a cleared record takes the next error (R237). -/
theorem statusWriteClears : Obligations.StatusWriteClears := by
  refine fun s v => ⟨fun hv => ?_, fun hv => if_neg (Bool.eq_false_iff.mp hv)⟩
  have hw : writeReg v s .status = { s with errs := ErrRec.none } := if_pos hv
  refine ⟨hw, fun e a => ?_⟩
  rw [hw, State.raise_errs]
  rfl

/-! ### STATUS, the constants and the dirty registers -/

/-- The bits of a zero-extended 4-bit field above four single bits, lowest last. -/
theorem fieldAboveBits_getLsbD (c : BitVec 4) (b3 b2 b1 b0 : Bool) (i : Nat) :
    (0#24 ++ c ++ BitVec.ofBool b3 ++ BitVec.ofBool b2 ++ BitVec.ofBool b1 ++ BitVec.ofBool b0 :
      BitVec (24 + 4 + 1 + 1 + 1 + 1)).getLsbD i =
    if i = 0 then b0 else if i = 1 then b1 else if i = 2 then b2 else if i = 3 then b3 else c.getLsbD (i - 4) := by
  simp only [BitVec.getLsbD_append, BitVec.getLsbD_zero]
  match i with
  | 0 | 1 | 2 | 3 => simp
  | i + 4 =>
    by_cases h : i < 4
    · simp [h]
    · simp [h, BitVec.getLsbD_of_ge c i (by omega)]

/-- The bits of STATUS (R26). -/
theorem status_getLsbD (s : State) (i : Nat) : s.status.getLsbD i =
    if i = 0 then s.busy else if i = 1 then s.lutrdyByStatus else if i = 2 then s.dirty.dv else if i = 3 then s.errs.err
    else s.errs.code.getLsbD (i - 4) :=
  fieldAboveBits_getLsbD _ _ _ _ _ i

/-- ERRCODE is what STATUS holds from bit 4 on, with nothing above it. -/
theorem status_getLsbD_code (s : State) (i : Nat) : s.status.getLsbD (4 + i) = s.errs.code.getLsbD i := by
  rw [Nat.add_comm]
  exact status_getLsbD s (i + 4)

theorem lutrdyByStatus_idle {s : State} (h : s.busy = false) : s.lutrdyByStatus = s.lutrdy := by
  simp [State.lutrdyByStatus, h]

theorem lutrdyByStatus_busy {s : State} (h : s.busy = true) : s.lutrdyByStatus = s.shown.lutrdy := by
  simp [State.lutrdyByStatus, h]

/-- Where no value is held the registers themselves are shown (R265). -/
theorem shown_of_not_held {s : State} (h : s.held = none) :
    s.shown = { res0 := s.res0, res1 := s.res1, lutrdy := s.lutrdy, dirty := s.dirty } := by
  simp [State.shown, h]

theorem lutrdyByStatus_not_held {s : State} (h : s.held = none) : s.lutrdyByStatus = s.lutrdy := by
  simp [State.lutrdyByStatus, shown_of_not_held h]

theorem shown_of_held {s : State} {q : Shown} (h : s.held = some q) : s.shown = q := by
  simp [State.shown, h]

/-- Settles O10: bit by bit. -/
theorem statusWordLayout : Obligations.StatusWordLayout := by
  intro s
  have hbit (i : Nat) := status_getLsbD s i
  refine ⟨hbit 0, fun h => (hbit 1).trans ?_, fun q hb hq => (hbit 1).trans ?_, hbit 2, hbit 3,
    BitVec.eq_of_getLsbD_eq fun i hi => ?_, BitVec.eq_of_getLsbD_eq fun i hi => ?_, rfl, rfl⟩
  · exact h.elim (fun hl => lutrdyByStatus_idle (congrArg Option.isSome hl)) lutrdyByStatus_not_held
  · exact (lutrdyByStatus_busy hb).trans (congrArg Shown.lutrdy (shown_of_held hq))
  · rw [BitVec.getLsbD_extractLsb', decide_eq_true hi, Bool.true_and]
    exact status_getLsbD_code s i
  · rw [BitVec.getLsbD_extractLsb', decide_eq_true hi, Bool.true_and, BitVec.getLsbD_zero, show 8 + i = 4 + (4 + i) by omega]
    exact (status_getLsbD_code s (4 + i)).trans (BitVec.getLsbD_of_ge _ _ (by omega))

/-- Settles O11: ID and TM are constants, and PALi is entry i of the palette. -/
theorem constantViews : Obligations.ConstantViews := by
  refine fun s => ⟨rfl, rfl, rfl, rfl, rfl, fun i e he => ?_, fun i => ⟨_, List.getElem?_eq_getElem i.isLt⟩⟩
  have hentry : paletteEntry s.cfg.palette i = e := by simp [paletteEntry, List.getD_eq_getElem?_getD, he]
  rw [← hentry]
  rfl

/-- A clean dirty state that obeys R37 has all edges 0. -/
theorem Dirty.eq_clean {d : Dirty} (h : d.wf = true) (hv : d.dv = false) : d = Dirty.clean := by
  simpa [Dirty.wf, hv] using h

/-- No edge of a dirty state that obeys R37 passes its opposite, pending or not. -/
theorem Dirty.wf_edges {d : Dirty} (h : d.wf = true) : d.dl.toNat ≤ d.dr.toNat ∧ d.dt.toNat ≤ d.db.toNat := by
  cases hv : d.dv with
  | true => simpa [Dirty.wf, hv] using h
  | false =>
    rw [Dirty.eq_clean h hv]
    decide

/-- The 17-bit difference of an edge and its opposite, as the host reads it, is their difference as numbers. -/
theorem toNat_edgeDiff {lo : BitVec 16} {hi : BitVec 17} (h : lo.toNat ≤ hi.toNat) :
    ((hi - lo.zeroExtend 17).zeroExtend 32).toNat = hi.toNat - lo.toNat := by
  have hlo : (lo.zeroExtend 17).toNat = lo.toNat := by
    rw [BitVec.toNat_setWidth]
    omega
  rw [BitVec.toNat_setWidth_of_le (by decide), BitVec.toNat_sub_of_le (by rwa [BitVec.le_def, hlo]), hlo]

/-- Settles O12: with no value held the dirty registers are views of the dirty state, whose edges are in order. -/
theorem dirtyViews : Obligations.DirtyViews := by
  refine ⟨fun s => status_getLsbD s 2, fun s hheld => ?_⟩
  have hshown : s.shown.dirty = s.dirty := congrArg Shown.dirty (shown_of_not_held hheld)
  simp only [readReg, hshown]
  refine ⟨toNat_half _, toNat_half _, fun hwf => ?_⟩
  obtain ⟨hx, hy⟩ := Dirty.wf_edges hwf
  refine ⟨toNat_edgeDiff hx, toNat_edgeDiff hy, fun hv => ?_⟩
  rw [Dirty.eq_clean hwf hv]
  decide

/-! ### Reset -/

/-- Settles O53, by evaluation of the one reset state. -/
theorem resetValues : Obligations.ResetValues := ⟨rfl, rfl, rfl, rfl, by decide, rfl⟩

/-- Settles O54: the default parameters obey R6 and R30, and memory, the dirty state and the record are empty. -/
theorem resetStateIsGood : Obligations.ResetStateIsGood := ⟨by decide, Memory.wf_reset, rfl, rfl, rfl⟩

end Sys2Proof.Machine
end

section
/-! How a command ends: completed, whatever its state, and with LUTRDY as R42 says. -/

namespace Sys2Proof.Machine

/-- With nothing latched BUSY = 0 (R26). -/
theorem Idle.busy {s : State} (h : Idle s) : s.busy = false := congrArg Option.isSome h.1

/-- A command has ended: it is completed, and LUTRDY is l. -/
def Ended (l : Bool) (t : State) : Prop := Idle t ∧ t.lutrdy = l

namespace Ended

theorem complete (s : State) : Ended s.lutrdy s.complete := ⟨⟨rfl, rfl⟩, rfl⟩

theorem raise (e : ErrorKind) (a : Word) (s : State) : Ended s.lutrdy (s.raise e a) :=
  ⟨⟨rfl, rfl⟩, State.raise_lutrdy e a s⟩

/-- A command that packs ends with an error or with its last part, and packing leaves LUTRDY alone. -/
theorem packThen {fin : List Planes → State → State} (hfin : ∀ pb u, Ended u.lutrdy (fin pb u)) (r : Region) (s : State) :
    Ended s.lutrdy (s.packThen r fin) := by
  obtain ⟨-, h⟩ | ⟨-, -, h⟩ | ⟨-, -, p, -, h⟩ | ⟨-, -, -, pb, b, -, h⟩ := packThen_cases s r fin <;> rw [h]
  · exact hfin [] s
  · exact raise _ _ s
  · exact raise _ _ (s.havocRange _)
  · exact hfin pb ((s.putBus b).addUses _)

end Ended

theorem emitRegion_lutrdy (r : Region) (pb : List Planes) (s : State) : (s.emitRegion r pb).lutrdy = s.lutrdy := by
  unfold State.emitRegion
  split <;> rfl

/-- Every ending of a command, an error or not, is its completion (R41, R241), and the commands that use the planar table have set
LUTRDY by then (R42). -/
theorem exec_ended {i : Instr} {s t : State} (h : exec i s = .next t) :
    Ended (if i ∈ [Instr.lutinit, .pair, .pack8, .packr, .pflush, .pfull] then true else s.lutrdy) t := by
  cases i with
  | nop | nearest | dthr | qpix | lutinit | pair | pack8 | mark | clear => cases h; exact .complete _
  | align =>
    obtain ⟨-, rfl⟩ | ⟨r, -, rfl⟩ := execAlign_cases h
    · exact .raise _ _ s
    · exact .complete _
  | remap =>
    obtain ⟨-, rfl⟩ | ⟨-, a, -, rfl⟩ | ⟨-, l, f, -, rfl⟩ := execRemap_cases h
    · exact .raise _ _ s
    · exact .raise _ _ s
    · exact .complete _
  | qsurf8 =>
    obtain ⟨-, rfl⟩ | ⟨-, ⟨-, rfl⟩ | ⟨-, a, -, rfl⟩ | ⟨-, b, -, rfl⟩⟩ := execQsurf8_cases h
    · exact .complete s
    · exact .raise _ _ s
    · exact .raise _ _ (s.havocRange _)
    · exact .complete _
  | packr =>
    obtain ⟨-, rfl⟩ | ⟨r, -, rfl⟩ := execPackr_cases h
    · exact .raise _ _ s.setLutrdy
    · exact .packThen (fun _ u => .complete (u.setResRegion r)) r s.setLutrdy
  | pflush =>
    obtain ⟨-, rfl⟩ | ⟨-, -, -, rfl⟩ | ⟨-, -, r, -, rfl⟩ := execPflush_cases h
    · exact .complete s.setLutrdy
    · exact .raise _ _ s.setLutrdy
    · refine .packThen (fun pb u => ?_) r s.setLutrdy
      exact ⟨⟨rfl, rfl⟩, emitRegion_lutrdy r pb u⟩
  | pfull =>
    obtain ⟨-, rfl⟩ | ⟨-, -, rfl⟩ | ⟨-, r, -, rfl⟩ := execPfull_cases h
    · exact .complete s.setLutrdy
    · exact .raise _ _ s.setLutrdy
    · refine .packThen (fun pb u => ?_) r s.setLutrdy
      exact ⟨⟨rfl, rfl⟩, emitRegion_lutrdy r pb u⟩

/-- Every command answers a next state: each branch of its meaning is one (R241). -/
theorem exec_next (i : Instr) (s : State) : ∃ t, exec i s = .next t := by
  cases i with
  | nop | nearest | dthr | qpix | lutinit | pair | pack8 | mark | clear => exact ⟨_, rfl⟩
  | align => simp only [exec, execAlign]; split <;> exact ⟨_, rfl⟩
  | packr => simp only [exec, execPackr]; split <;> exact ⟨_, rfl⟩
  | remap =>
    simp only [exec, execRemap]
    split
    · exact ⟨_, rfl⟩
    · split <;> exact ⟨_, rfl⟩
  | qsurf8 =>
    simp only [exec, execQsurf8]
    split
    · exact ⟨_, rfl⟩
    · split
      · exact ⟨_, rfl⟩
      · split <;> exact ⟨_, rfl⟩
  | pflush =>
    simp only [exec, execPflush]
    split
    · exact ⟨_, rfl⟩
    · split <;> exact ⟨_, rfl⟩
  | pfull =>
    simp only [exec, execPfull]
    split
    · exact ⟨_, rfl⟩
    · split <;> exact ⟨_, rfl⟩

/-- Settles O43: each command answers a next state, and each of its endings is a completion. -/
theorem everyCommandCompletes : Obligations.EveryCommandCompletes := by
  intro i s
  obtain ⟨t, h⟩ := exec_next i s
  have hidle : Idle t := (exec_ended h).1
  exact ⟨t, h, hidle.busy, hidle, (exec_keeps h).setup⟩

/-- The latched command executes to its completion, also when its word does not decode (R41, R231, R232). -/
theorem executeLatched_completes (s : State) : ∃ t, executeLatched s = .next t ∧ Idle t ∧ SetupKept s t := by
  unfold executeLatched
  split
  · next i _ =>
    obtain ⟨t, h, -, hidle, hset⟩ := everyCommandCompletes i s
    exact ⟨t, h, hidle, hset⟩
  · exact ⟨_, rfl, (Ended.raise _ _ s).1, (CommandKeeps.raise _ _ s).setup⟩
  · exact ⟨_, rfl, (Ended.raise _ _ s).1, (CommandKeeps.raise _ _ s).setup⟩

end Sys2Proof.Machine
end

section
/-! Only the reset input clears LUTRDY. -/

namespace Sys2Proof.Machine

/-- Execution never clears LUTRDY. -/
theorem executeLatched_keeps_lutrdy {s t : State} (h : executeLatched s = .next t) (hs : s.lutrdy = true) :
    t.lutrdy = true := by
  unfold executeLatched at h
  split at h
  · rw [(exec_ended h).2, hs, ite_self]
  · cases h; exact (State.raise_lutrdy _ _ s).trans hs
  · cases h; exact (State.raise_lutrdy _ _ s).trans hs

theorem writeReg_lutrdy (v : Word) (s : State) (r : Reg) : (writeReg v s r).lutrdy = s.lutrdy := by
  cases r with
  | cmd => simp only [writeReg, State.writeCmd]; split <;> simp
  | status => simp only [writeReg, State.writeStatus]; split <;> rfl
  | _ => rfl

theorem afterRead_lutrdy (s : State) (r : Reg) : (afterRead s r).lutrdy = s.lutrdy := by
  cases r with
  | status => exact State.acknowledge_lutrdy s
  | _ => rfl

/-- LUTRDY is among the fields no host access of memory touches. -/
theorem hostPut_lutrdy (v : Word) (as : List Word) (s : State) : (hostPut v as s).lutrdy = s.lutrdy :=
  (congrArg State.lutrdy (hostPut_keeps (hostKeeps_apart s) v as s rfl) :)

theorem hostGet_lutrdy (as : List Word) (s : State) : (hostGet as s).2.lutrdy = s.lutrdy :=
  (congrArg State.lutrdy (hostGet_keeps (hostKeeps_apart s) as s rfl) :)

theorem pollOnce_lutrdy (x : Nat) (s : State) : (s.pollOnce x).lutrdy = s.lutrdy := by
  unfold State.pollOnce
  split <;> exact afterRead_lutrdy s .status

theorem hostStore_lutrdy {a : Word} {w : Width} {v : Word} {s t : State} (h : hostStore a w v s = .next t) :
    t.lutrdy = s.lutrdy := by
  obtain ⟨-, rfl⟩ | ⟨-, -, rfl⟩ := hostStore_cases h
  · exact hostPut_lutrdy v _ s
  · cases regAt (windowOffset s.cfg a) with
    | none => rfl
    | some r => exact writeReg_lutrdy v s r

theorem hostLoad_lutrdy {a : Word} {w : Width} {x : Nat} {s t : State} (h : hostLoad a w x s = .next t) :
    t.lutrdy = s.lutrdy := by
  obtain ⟨-, rfl⟩ | ⟨-, -, rfl⟩ := hostLoad_cases h
  · exact hostGet_lutrdy _ s
  · cases regAt (windowOffset s.cfg a) with
    | none => rfl
    | some r => exact afterRead_lutrdy s r

/-- Every host action but the reset input leaves LUTRDY alone. -/
theorem hostAct_lutrdy {act : HostAction} {s t : State} (h : hostAct act s = .next t) (hact : act ≠ .reset) :
    t.lutrdy = s.lutrdy := by
  cases act with
  | store a w v => exact hostStore_lutrdy h
  | load a w x => exact hostLoad_lutrdy h
  | poll x => cases h; exact pollOnce_lutrdy x s
  | reset => contradiction

/-- The host leaves LUTRDY alone, unless its next action is the reset input. -/
theorem hostStep_lutrdy {s t : State} (h : hostStep s = .next t) : t.lutrdy = s.lutrdy ∨ s.host.head? = some .reset := by
  unfold hostStep at h
  split at h
  · cases h; exact .inl rfl
  · next act rest hhost =>
    by_cases hact : act = .reset
    · exact .inr (by rw [hhost, hact]; rfl)
    · exact .inl (hostAct_lutrdy (s := { s with host := rest }) h hact)

/-- Settles O42: by the command, and by the agent that moves. -/
theorem lutrdySetOnceTillReset : Obligations.LutrdySetOnceTillReset := by
  refine ⟨fun _ _ _ h => (exec_ended h).2, fun s t h hs => ?_⟩
  unfold step advance at h
  split at h
  · split at h
    · exact .inl (executeLatched_keeps_lutrdy h hs)
    · exact .inl (executeLatched_keeps_lutrdy h hs)
    · exact (hostStep_lutrdy h).imp_left (·.trans hs)
  · exact (hostStep_lutrdy h).imp_left (·.trans hs)

end Sys2Proof.Machine
end

section
/-! Who moves in a step, and that an accepted command executes. -/

namespace Sys2Proof.Machine

/-! ### One equation per agent that moves -/

/-- With BUSY = 0 the host moves. -/
theorem step_idle {s : State} (h : s.busy = false) : step s = hostStep s := by
  simp [step, advance, h]

/-- With no turn left BDQ executes. -/
theorem step_no_turn {s : State} (h : s.busy = true) (ht : s.turns = []) : step s = executeLatched s := by
  simp [step, advance, h, ht]

/-- On its turn BDQ executes. -/
theorem step_bdq_turn {s : State} {ts : List Turn} (h : s.busy = true) (ht : s.turns = .bdq :: ts) :
    step s = executeLatched { s with turns := ts } := by
  simp [step, advance, h, ht]

/-- On its turn the host moves. -/
theorem step_host_turn {s : State} {ts : List Turn} (h : s.busy = true) (ht : s.turns = .host :: ts) :
    step s = hostStep { s with turns := ts } := by
  simp [step, advance, h, ht]

/-- With no action left the host changes nothing (R250). -/
theorem hostStep_nil {s : State} (h : s.host = []) : hostStep s = .next s := by
  simp [hostStep, h]

theorem hostStep_cons {s : State} {act : HostAction} {rest : List HostAction} (h : s.host = act :: rest) :
    hostStep s = hostAct act { s with host := rest } := by
  simp [hostStep, h]

/-- A latched word that decodes runs its command (R88). -/
theorem executeLatched_decoded {s : State} {i : Instr} (h : decode s.cmd.word = .ok i) : executeLatched s = exec i s := by
  simp [executeLatched, h]

/-- The operands are those of the latched command (R9). -/
theorem cmd_of_latch {s : State} {l : Latch} (h : s.latch = some l) : s.cmd = l := by
  simp [State.cmd, h]

/-- Settles O4: each clause is the equation of the agent that moves, then that of its move. -/
theorem stepRunsDecodedCommand : Obligations.StepRunsDecodedCommand := by
  refine ⟨fun s l i hl hd => ?_, fun s a w v rest hh => ?_, fun s a w x rest hh => ?_, fun s hh => ?_⟩
  · have hb : s.busy = true := by simp [State.busy, hl]
    have hc : s.cmd = l := cmd_of_latch hl
    have hd : decode s.cmd.word = .ok i := hc ▸ hd
    exact ⟨hc, congrArg Latch.regs hc, fun ht => (step_no_turn hb ht).trans (executeLatched_decoded hd),
      fun ts ht => (step_bdq_turn hb ht).trans (executeLatched_decoded (s := { s with turns := ts }) hd)⟩
  · exact ⟨fun hb => (step_idle hb).trans (hostStep_cons hh),
      fun ts hb ht => (step_host_turn hb ht).trans (hostStep_cons (s := { s with turns := ts }) hh)⟩
  · exact ⟨fun hb => (step_idle hb).trans (hostStep_cons hh),
      fun ts hb ht => (step_host_turn hb ht).trans (hostStep_cons (s := { s with turns := ts }) hh)⟩
  · exact ⟨fun hb => (step_idle hb).trans (hostStep_nil hh),
      fun ts hb ht => (step_host_turn hb ht).trans (hostStep_nil (s := { s with turns := ts }) hh)⟩

/-! ### Progress -/

/-- A run of one step more, once its first step is known. -/
theorem core_run_succ {M : Host.Core} {s t : M.State} (h : M.step s = .next t) (k : Nat) : M.run (k + 1) s = M.run k t := by
  rw [Host.Core.run, h]

theorem run_succ {s t : State} (h : step s = .next t) (k : Nat) : core.run (k + 1) s = core.run k t :=
  core_run_succ (M := core) h k

/-- With BUSY = 0 and nothing for the host to do the state stays (R250). -/
theorem run_of_nothing_to_do {s : State} (hb : s.busy = false) (hh : s.host = []) (k : Nat) : core.run k s = .next s := by
  induction k with
  | zero => rfl
  | succ k ih => exact (run_succ ((step_idle hb).trans (hostStep_nil hh)) k).trans ih

/-- Settles O52, by induction on the turns left: BDQ's own turn, or none, executes the command, and the host's turn passes. -/
theorem acceptedCommandExecutes : Obligations.AcceptedCommandExecutes := by
  unfold Obligations.AcceptedCommandExecutes
  intro s hb hh
  induction hts : s.turns generalizing s with
  | nil =>
    obtain ⟨t, hex, hidle, -⟩ := executeLatched_completes s
    exact ⟨t, run_succ ((step_no_turn hb hts).trans hex) 0, hidle.busy⟩
  | cons turn ts ih =>
    cases turn with
    | host =>
      obtain ⟨t, hrun, ht⟩ := ih { s with turns := ts } hb hh rfl
      have hstep := (step_host_turn hb hts).trans (hostStep_nil (s := { s with turns := ts }) hh)
      exact ⟨t, (run_succ hstep _).trans hrun, ht⟩
    | bdq =>
      obtain ⟨t, hex, hidle, -, -, hhost, -⟩ := executeLatched_completes { s with turns := ts }
      have hstep := (step_bdq_turn hb hts).trans hex
      exact ⟨t, (run_succ hstep _).trans (run_of_nothing_to_do hidle.busy (hhost.trans hh) _), hidle.busy⟩

end Sys2Proof.Machine
end

section
/-! The region each packing command works on, and what it does once its checks have passed. -/

namespace Sys2Proof.Machine

/-- The region check of R145 as the model computes it. -/
theorem surfaceOk_iff {g : Regs} : surfaceOk g = true ↔ SurfaceFits g := by
  simp [surfaceOk, SurfaceFits, and_assoc]

/-- The flush check of R185 as the model computes it. -/
theorem flushOk_iff {g : Regs} : flushOk g = true ↔ FlushFits g := by
  simp [flushOk, FlushFits, and_assoc, Nat.pos_iff_ne_zero]

theorem argRegion_eq_some {g : Regs} {r : Region} : argRegion g = some r ↔ SurfaceFits g ∧ r = requestedRegion g := by
  by_cases h : SurfaceFits g <;> simp [argRegion, requestedRegion, surfaceOk_iff, loHalf_eq, hiHalf_eq, h, eq_comm (a := r)]

theorem dirtyRegion_eq_some {g : Regs} {d : Dirty} {r : Region} :
    dirtyRegion g d = some r ↔ FlushFits g ∧ r = pendingRegion g d := by
  by_cases h : FlushFits g <;> simp [dirtyRegion, pendingRegion, flushOk_iff, h, eq_comm (a := r)]

theorem screenRegion_eq_some {g : Regs} {r : Region} : screenRegion g = some r ↔ FlushFits g ∧ r = wholeScreen g := by
  by_cases h : FlushFits g <;> simp [screenRegion, wholeScreen, flushOk_iff, h, eq_comm (a := r)]

/-- The whole screen has something to read whenever R185 passes. -/
theorem FlushFits.wholeScreen_w {g : Regs} (h : FlushFits g) : (wholeScreen g).w ≠ 0 := by
  obtain ⟨-, -, hw, -⟩ := h
  exact hw.ne'

/-- PACKR on a surface that passes R145 (R154). -/
theorem exec_packr_fits {s : State} (h : SurfaceFits s.ops) : exec .packr s =
    .next (s.setLutrdy.packThen (requestedRegion s.ops) fun _ u => (u.setResRegion (requestedRegion s.ops)).complete) := by
  simp only [exec, execPackr, argRegion_eq_some.mpr ⟨h, rfl⟩]

/-- PFLUSH with something to flush and a geometry that passes R185 (R190). -/
theorem exec_pflush_fits {s : State} (hh : s.ops.hsen = true) (hd : s.dirty.dv = true) (h : FlushFits s.ops) : exec .pflush s =
    .next (s.setLutrdy.packThen (pendingRegion s.ops s.dirty) fun pb u =>
      (((u.emitRegion (pendingRegion s.ops s.dirty) pb).clearDirty).setResRegion (pendingRegion s.ops s.dirty)).complete) := by
  simp [exec, execPflush, hh, hd, dirtyRegion_eq_some.mpr ⟨h, rfl⟩]

/-- PFULL with the Hardware Surface enabled and a geometry that passes R185 (R191). -/
theorem exec_pfull_fits {s : State} (hh : s.ops.hsen = true) (h : FlushFits s.ops) : exec .pfull s =
    .next (s.setLutrdy.packThen (wholeScreen s.ops) fun pb u =>
      ((u.emitRegion (wholeScreen s.ops) pb).setResRegion (wholeScreen s.ops)).complete) := by
  simp [exec, execPfull, hh, screenRegion_eq_some.mpr ⟨h, rfl⟩]

end Sys2Proof.Machine
end

section
/-! Misaligned (R64, R235): which commands raise it, and what it leaves alone. -/

namespace Sys2Proof.Machine

/-- Command i raises error e with address a, before any effect but LUTRDY, which is l (R236, R237). -/
def Raises (i : Instr) (e : ErrorKind) (a : Word) (l : Bool) (s : State) : Prop :=
  ∃ t, exec i s = .next t ∧ Recorded e a s t ∧ Idle t ∧ SetupKept s t ∧ ErrorKept s t ∧ MemoryKept s t ∧ t.lutrdy = l

/-- A command whose only effect before it raises is on LUTRDY. -/
theorem Raises.of_raise {i : Instr} {e : ErrorKind} {a : Word} {l : Bool} {s u : State} (h : exec i s = .next (u.raise e a))
    (hu : u = { s with lutrdy := l }) : Raises i e a l s := by
  subst hu
  exact ⟨_, h, ⟨fun hs => by simp [State.raise_errs, hs], fun hs => by simp [State.raise_errs, hs, State.cmd]⟩,
    (Ended.raise e a _).1, (CommandKeeps.raise e a _).setup, by simp [ErrorKept], by simp [MemoryKept],
    State.raise_lutrdy e a _⟩

theorem remapMisaligned_iff {g : Regs} : remapMisaligned g = true ↔ g.arg1.toNat ≠ 0 ∧ g.arg0.toNat % 4 ≠ 0 := by
  rw [remapMisaligned, Bool.and_eq_true, decide_eq_true_iff, misaligned4_eq_true, remapCount]
  omega

theorem packThen_misaligned {s u : State} {r : Region} (hw : r.w ≠ 0) (hm : s.ops.surfBase.toNat % 4 ≠ 0)
    (hu : u.ops = s.ops) (fin : List Planes → State → State) : u.packThen r fin = u.raise .misaligned s.ops.surfBase := by
  rw [State.packThen, if_neg hw, hu, if_pos (misaligned4_eq_true.mpr hm)]

/-- From an empty record only Misaligned records its code (R230). -/
theorem kind_of_raise_code {e : ErrorKind} {a : Word} {s : State} (hs : s.errs.err = false)
    (h : (s.raise e a).errs.code = 5#4) : e = .misaligned := by
  rw [State.raise_errs, hs, if_neg Bool.false_ne_true] at h
  revert h
  cases e <;> simp [ErrorKind.code]

/-- A command that packs records Misaligned only where it has something to read and its base is misaligned. -/
theorem packThen_code {fin : List Planes → State → State} {r : Region} {s : State} (hs : s.errs.err = false)
    (h5 : s.errs.code ≠ 5#4) (h : (s.packThen r fin).errs.code = 5#4) (hfin : ∀ pb u, (fin pb u).errs = u.errs) :
    r.w ≠ 0 ∧ s.ops.surfBase.toNat % 4 ≠ 0 := by
  obtain ⟨-, heq⟩ | ⟨hw, hm, -⟩ | ⟨-, -, p, -, heq⟩ | ⟨-, -, -, pb, b, -, heq⟩ := packThen_cases s r fin
  · rw [heq, hfin] at h
    exact absurd h h5
  · exact ⟨hw, misaligned4_eq_true.mp hm⟩
  · rw [heq] at h
    exact absurd (kind_of_raise_code (s := s.havocRange _) hs h) (by decide)
  · rw [heq, hfin] at h
    exact absurd h h5

theorem emitRegion_errs (r : Region) (pb : List Planes) (s : State) : (s.emitRegion r pb).errs = s.errs := by
  unfold State.emitRegion
  split <;> rfl

/-- Which commands record Misaligned from an empty record, and when. -/
theorem exec_code_misaligned {i : Instr} {s t : State} (h : exec i s = .next t) (hs : s.errs.err = false)
    (ht : t.errs.code = 5#4) (h5 : s.errs.code ≠ 5#4) :
    i = .remap ∧ s.ops.arg1.toNat ≠ 0 ∧ s.ops.arg0.toNat % 4 ≠ 0 ∨
      s.ops.surfBase.toNat % 4 ≠ 0 ∧
        (i = .qsurf8 ∧ s.ops.surfW.toNat * s.ops.surfH.toNat ≠ 0 ∨
          i = .packr ∧ SurfaceFits s.ops ∧ (requestedRegion s.ops).w ≠ 0 ∨
          i = .pflush ∧ s.ops.hsen = true ∧ s.dirty.dv = true ∧ FlushFits s.ops ∧ (pendingRegion s.ops s.dirty).w ≠ 0 ∨
          i = .pfull ∧ s.ops.hsen = true ∧ FlushFits s.ops) := by
  have other : ∀ {e : ErrorKind} {a : Word} {u : State}, e ≠ .misaligned → u.errs = s.errs →
      (u.raise e a).errs.code = 5#4 → False := fun he hu hc => he (kind_of_raise_code (hu ▸ hs) hc)
  cases i with
  | nop | nearest | dthr | qpix | lutinit | pair | pack8 | mark | clear => cases h; exact absurd ht h5
  | align =>
    obtain ⟨-, rfl⟩ | ⟨r, -, rfl⟩ := execAlign_cases h
    · exact (other (by decide) rfl ht).elim
    · exact absurd ht h5
  | remap =>
    obtain ⟨hm, -⟩ | ⟨-, a, -, rfl⟩ | ⟨-, l, f, -, rfl⟩ := execRemap_cases h
    · exact .inl ⟨rfl, remapMisaligned_iff.mp hm⟩
    · exact (other (by decide) rfl ht).elim
    · exact absurd ht h5
  | qsurf8 =>
    obtain ⟨-, rfl⟩ | ⟨hne, ⟨hm, -⟩ | ⟨-, a, -, rfl⟩ | ⟨-, b, -, rfl⟩⟩ := execQsurf8_cases h
    · exact absurd ht h5
    · exact .inr ⟨misaligned4_eq_true.mp hm, .inl ⟨rfl, hne⟩⟩
    · exact (other (by decide) (State.havocRange_errs _ s) ht).elim
    · exact absurd ht h5
  | packr =>
    obtain ⟨-, rfl⟩ | ⟨r, hr, rfl⟩ := execPackr_cases h
    · exact (other (by decide) (State.setLutrdy_errs s) ht).elim
    · obtain ⟨hfits, rfl⟩ := argRegion_eq_some.mp hr
      obtain ⟨hw, hm⟩ := packThen_code (s := s.setLutrdy) hs h5 ht fun _ _ => rfl
      exact .inr ⟨hm, .inr (.inl ⟨rfl, hfits, hw⟩)⟩
  | pflush =>
    obtain ⟨-, rfl⟩ | ⟨-, -, -, rfl⟩ | ⟨hh, hd, r, hr, rfl⟩ := execPflush_cases h
    · exact absurd ht h5
    · exact (other (by decide) (State.setLutrdy_errs s) ht).elim
    · obtain ⟨hfits, rfl⟩ := dirtyRegion_eq_some.mp hr
      obtain ⟨hw, hm⟩ := packThen_code (s := s.setLutrdy) hs h5 ht fun pb u => emitRegion_errs _ pb u
      exact .inr ⟨hm, .inr (.inr (.inl ⟨rfl, hh, hd, hfits, hw⟩))⟩
  | pfull =>
    obtain ⟨-, rfl⟩ | ⟨-, -, rfl⟩ | ⟨hh, r, hr, rfl⟩ := execPfull_cases h
    · exact absurd ht h5
    · exact (other (by decide) (State.setLutrdy_errs s) ht).elim
    · obtain ⟨hfits, rfl⟩ := screenRegion_eq_some.mp hr
      obtain ⟨-, hm⟩ := packThen_code (s := s.setLutrdy) hs h5 ht fun pb u => emitRegion_errs _ pb u
      exact .inr ⟨hm, .inr (.inr (.inr ⟨rfl, hh, hfits⟩))⟩

/-- Settles O40: each of the five commands comes to its alignment check and ends there; every other ending records another code. -/
theorem misalignedRaised : Obligations.MisalignedRaised := by
  refine ⟨fun s h1 h0 => ?remap, fun s hm => ⟨fun hne => ?qsurf8, fun hfits hw => ?packr, fun hh hd hfits hw => ?pflush,
    fun hh hfits => ?pfull⟩, fun i s t => exec_code_misaligned⟩
  case remap => exact Raises.of_raise (by rw [exec, execRemap, if_pos (remapMisaligned_iff.mpr ⟨h1, h0⟩)]) rfl
  case qsurf8 => exact Raises.of_raise (by rw [exec, execQsurf8, if_neg hne, if_pos (misaligned4_eq_true.mpr hm)]) rfl
  case packr =>
    have hexec : exec .packr s = .next (s.setLutrdy.raise .misaligned s.ops.surfBase) := by
      rw [exec_packr_fits hfits, packThen_misaligned hw hm (State.setLutrdy_ops s)]
    exact Raises.of_raise hexec rfl
  case pflush =>
    have hexec : exec .pflush s = .next (s.setLutrdy.raise .misaligned s.ops.surfBase) := by
      rw [exec_pflush_fits hh hd hfits, packThen_misaligned hw hm (State.setLutrdy_ops s)]
    exact Raises.of_raise hexec rfl
  case pfull =>
    have hexec : exec .pfull s = .next (s.setLutrdy.raise .misaligned s.ops.surfBase) := by
      rw [exec_pfull_fits hh hfits, packThen_misaligned hfits.wholeScreen_w hm (State.setLutrdy_ops s)]
    exact Raises.of_raise hexec rfl

end Sys2Proof.Machine
end

section
/-! The bytes a command writes lie in its output range (R76, R236). -/

namespace Sys2Proof.Machine

theorem coveredBy_singleton (r : Range) (a : Word) : coveredBy [r] a = covers r a := by
  simp [coveredBy]

/-- A BusError leaves every byte outside the output range (R236). -/
theorem raiseBusError_other {out : Range} {p a : Word} {s : State} (ha : ¬ covers out a = true) :
    byteAt (s.raiseBusError out p).mem a = byteAt s.mem a := by
  rw [State.raiseBusError, State.raise_mem]
  exact (OnlyChanges.havocRange out s).1 a ha

/-- A command that packs changes no byte outside the region's output range, if its last part changes none: it writes only while it
packs, or the whole range after a BusError. -/
theorem packThen_other {fin : List Planes → State → State} {r : Region} {s : State} {a : Word}
    (ha : ¬ coveredBy (packReach s.ops (some r)).writes a = true) (hfin : ∀ pb u, (fin pb u).mem = u.mem) :
    byteAt (s.packThen r fin).mem a = byteAt s.mem a := by
  have hout : r.w ≠ 0 → ¬ covers (packOut s.ops r) a = true := fun hw => by
    rwa [packReach, if_neg hw, coveredBy_singleton] at ha
  obtain ⟨-, h⟩ | ⟨-, -, h⟩ | ⟨hw, -, p, -, h⟩ | ⟨hw, -, -, pb, b, hpack, h⟩ := packThen_cases s r fin <;> rw [h]
  · rw [hfin]
  · rw [State.raise_mem]
  · exact raiseBusError_other (hout hw)
  · rw [hfin]
    exact (packRegion_only hpack).1 a (hout hw)

theorem emitRegion_mem (r : Region) (pb : List Planes) (s : State) : (s.emitRegion r pb).mem = s.mem := by
  unfold State.emitRegion
  split <;> rfl

/-- Every command writes only bytes of its output range. -/
theorem exec_only {i : Instr} {s t : State} (h : exec i s = .next t) {a : Word}
    (ha : coveredBy (reachOf s.ops s.dirty i).writes a = false) : byteAt t.mem a = byteAt s.mem a := by
  have ha' := Bool.eq_false_iff.mp ha
  cases i with
  | qsurf8 =>
    rw [show (reachOf s.ops s.dirty .qsurf8).writes = [qsurfOut s.ops] from rfl, coveredBy_singleton] at ha'
    obtain ⟨-, rfl⟩ | ⟨-, ⟨-, rfl⟩ | ⟨-, p, -, rfl⟩ | ⟨-, b, hb, rfl⟩⟩ := execQsurf8_cases h
    · rfl
    · rw [State.raise_mem]
    · exact raiseBusError_other ha'
    · exact (qsurfLoop_only (fun _ _ => mem_positions.mp) hb).1 a ha'
  | packr =>
    obtain ⟨-, rfl⟩ | ⟨r, hr, rfl⟩ := execPackr_cases h
    · rw [State.raise_mem]; rfl
    · rw [reachOf, hr] at ha'
      exact packThen_other (s := s.setLutrdy) ha' fun _ _ => rfl
  | pflush =>
    obtain ⟨-, rfl⟩ | ⟨-, -, -, rfl⟩ | ⟨hh, hd, r, hr, rfl⟩ := execPflush_cases h
    · rfl
    · rw [State.raise_mem]; rfl
    · simp only [reachOf, hh, hd, hr, Bool.and_self, if_true] at ha'
      exact packThen_other (s := s.setLutrdy) ha' fun pb u => emitRegion_mem r pb u
  | pfull =>
    obtain ⟨-, rfl⟩ | ⟨-, -, rfl⟩ | ⟨hh, r, hr, rfl⟩ := execPfull_cases h
    · rfl
    · rw [State.raise_mem]; rfl
    · simp only [reachOf, hh, hr, if_true] at ha'
      exact packThen_other (s := s.setLutrdy) ha' fun pb u => emitRegion_mem r pb u
  | _ => exact (registerCommandFrames _ s t h (by decide)).1 a

/-- The one range a packing command writes is R76's of the region it packs. -/
theorem mem_packReach_writes {g : Regs} {o : Option Region} {q : Range} (h : q ∈ (packReach g o).writes) :
    ∃ r, o = some r ∧ q = packOut g r := by
  cases o with
  | none => exact absurd h List.not_mem_nil
  | some r =>
    rw [packReach] at h
    split at h
    · exact absurd h List.not_mem_nil
    · exact ⟨r, rfl, List.mem_singleton.mp h⟩

/-- Settles O45: the writes of each command are followed to its output range, and the ranges are read off. -/
theorem onlyOutputRangeWritten : Obligations.OnlyOutputRangeWritten := by
  refine ⟨fun r rs a => ⟨decide_eq_true_iff, List.any_eq_true⟩, fun i s t h a => exec_only h, fun g d i q hq => ?_⟩
  cases i with
  | qsurf8 =>
    obtain rfl := List.mem_singleton.mp hq
    exact ⟨rfl, .inl ⟨rfl, rfl⟩⟩
  | packr =>
    obtain ⟨r, hr, rfl⟩ := mem_packReach_writes hq
    exact ⟨rfl, .inr ⟨r, rfl, .inl ⟨rfl, argRegion_eq_some.mp hr⟩⟩⟩
  | pflush =>
    rw [reachOf] at hq
    split at hq
    · obtain ⟨r, hr, rfl⟩ := mem_packReach_writes hq
      exact ⟨rfl, .inr ⟨r, rfl, .inr (.inl ⟨rfl, dirtyRegion_eq_some.mp hr⟩)⟩⟩
    · exact absurd hq List.not_mem_nil
  | pfull =>
    rw [reachOf] at hq
    split at hq
    · obtain ⟨r, hr, rfl⟩ := mem_packReach_writes hq
      exact ⟨rfl, .inr ⟨r, rfl, .inr (.inr ⟨rfl, screenRegion_eq_some.mp hr⟩)⟩⟩
    · exact absurd hq List.not_mem_nil
  | _ => exact absurd hq List.not_mem_nil

end Sys2Proof.Machine
end

section
/-! Host accesses of memory outside the window (R62, R89): a store is the stores of its bytes, and where R266 forbids none of them
they are plain writes. -/

namespace Sys2Proof.Machine

/-- The bytes of v, least significant first, written at consecutive addresses (R62). -/
def putBytes (v : Word) : List Word → Memory → Memory
  | [], m => m
  | a :: as, m => putBytes (v >>> 8) as (Memory.write m a.toNat (v.extractLsb' 0 8))

/-- A host store of bytes outside every range writes them. -/
theorem hostPut_plain {as : List Word} : ∀ {s : State} {v : Word},
    (∀ a ∈ as, coveredBy s.hazard.reads a = false ∧ coveredBy s.hazard.writes a = false) →
    hostPut v as s = { s with mem := putBytes v as s.mem } := by
  induction as with
  | nil => exact fun _ => rfl
  | cons a as ih =>
    intro s v h
    obtain ⟨hr, hw⟩ := h a List.mem_cons_self
    rw [hostPut, hostPutByte_plain hr hw]
    exact ih fun b hb => h b (List.mem_cons_of_mem a hb)

theorem byteAt_putBytes_other {as : List Word} {b : Word} (hb : b ∉ as) : ∀ (v : Word) (m : Memory),
    byteAt (putBytes v as m) b = byteAt m b := by
  induction as with
  | nil => exact fun _ _ => rfl
  | cons a as ih =>
    intro v m
    rw [List.mem_cons, not_or] at hb
    obtain ⟨hne, hb⟩ := hb
    exact (ih hb _ _).trans (byteAt_write_other hne)

/-- Of different addresses number i holds byte i of v. -/
theorem byteAt_putBytes {as : List Word} (hnd : as.Nodup) : ∀ {v : Word} {m : Memory} {i : Nat} {a : Word},
    Memory.wf m = true → as[i]? = some a → byteAt (putBytes v as m) a = v.extractLsb' (8 * i) 8 := by
  induction as with
  | nil => exact fun _ h => nomatch h
  | cons b as ih =>
    intro v m i a hm hi
    obtain ⟨hb, hnd⟩ := List.nodup_cons.mp hnd
    rw [putBytes]
    cases i with
    | zero =>
      obtain rfl : b = a := Option.some.inj hi
      rw [byteAt_putBytes_other hb, byteAt_write_same hm]
    | succ i =>
      rw [ih hnd (Memory.wf_write hm) hi]
      refine BitVec.eq_of_getElem_eq fun j hj => ?_
      simp only [BitVec.getElem_extractLsb', BitVec.getLsbD_ushiftRight]
      congr 1
      omega

theorem accessBytes_nodup (a : Word) (w : Width) : (accessBytes a w).Nodup := by
  rw [accessBytes_eq]
  have hw : w.bytes ≤ 4 := by cases w <;> decide
  refine List.Nodup.map_on (fun i hi j hj h => ?_) List.nodup_range
  rw [List.mem_range] at hi hj
  exact add_ofNat_inj (by omega) (by omega) a h

theorem mem_accessBytes {a b : Word} {w : Width} : b ∈ accessBytes a w ↔ ∃ i, i < w.bytes ∧ b = a + BitVec.ofNat 32 i := by
  simp [accessBytes_eq, eq_comm]

/-- A byte of an access outside the window lies outside it. -/
theorem touchesWindow_byte {k : Config} {a : Word} {w : Width} (h : touchesWindow k a w = false) {i : Nat} (hi : i < w.bytes) :
    touchesWindow k (a + BitVec.ofNat 32 i) .byte = false := by
  rw [← Bool.not_eq_true, touchesWindow_iff] at h ⊢
  rintro ⟨j, hj, hlt⟩
  obtain rfl : j = 0 := Nat.lt_one_iff.mp hj
  exact h ⟨i, hi, by simpa using hlt⟩

theorem hostPutByte_cfg (s : State) (a : Word) (v : Byte) : (hostPutByte s a v).cfg = s.cfg :=
  (congrArg State.cfg (hostPutByte_keeps (hostKeeps_apart s) a v s rfl) :)

/-- A 1-byte host store outside the window stores its lowest byte (R62). -/
theorem hostStore_byte {s : State} {a : Word} (h : touchesWindow s.cfg a .byte = false) (v : Word) :
    hostStore a .byte v s = .next (hostPutByte s a (v.extractLsb' 0 8)) :=
  hostStore_memory h v

/-- A 1-byte host load outside the window and every output range binds the byte. -/
theorem hostLoad_byte_plain {s : State} {a : Word} (h : touchesWindow s.cfg a .byte = false)
    (hw : coveredBy s.hazard.writes a = false) (x : Nat) :
    hostLoad a .byte x s = .next { s with vars := s.vars ++ [(x, (byteAt s.mem a).zeroExtend 32)] } := by
  rw [hostLoad_memory h]
  simp [accessBytes, hostGet, hostByte, hw, afterHostByte_plain hw, State.bindVar]

/-- A word is the four bytes of it that lie at consecutive addresses (R62). -/
theorem read32_eq {m : Memory} {a v : Word} (h : ∀ i, i < 4 → byteAt m (a + BitVec.ofNat 32 i) = v.extractLsb' (8 * i) 8) :
    read32 m a = v := by
  have h0 := h 0 (by decide)
  rw [BitVec.add_zero] at h0
  refine BitVec.eq_of_getLsbD_eq fun j hj => ?_
  rw [read32_getLsbD, h0, show byteAt m (a + 1#32) = _ from h 1 (by decide), show byteAt m (a + 2#32) = _ from h 2 (by decide),
    show byteAt m (a + 3#32) = _ from h 3 (by decide)]
  simp only [BitVec.getLsbD_extractLsb']
  split
  · simp [*]
  · split
    · simp [show j - 8 < 8 by omega, show 8 + (j - 8) = j by omega]
    · split
      · simp [show j - 16 < 8 by omega, show 16 + (j - 16) = j by omega]
      · simp [show j - 24 < 8 by omega, show 24 + (j - 24) = j by omega]

/-- Byte i of a word as a number. -/
theorem toNat_extract_byte (v : Word) (i : Nat) : (v.extractLsb' (8 * i) 8).toNat = v.toNat / 256 ^ i % 256 := by
  rw [BitVec.extractLsb'_toNat, Nat.shiftRight_eq_div_pow, Nat.pow_mul]

/-- A 32-bit host store outside the window is the stores of its four bytes, lowest first (R62). -/
theorem hostStore_word {s : State} {a : Word} (h : touchesWindow s.cfg a .word = false) (v : Word) :
    ∃ s1 s2 s3 t, hostStore a .byte v s = .next s1 ∧ hostStore (a + 1#32) .byte (v >>> 8) s1 = .next s2 ∧
      hostStore (a + 2#32) .byte (v >>> 16) s2 = .next s3 ∧ hostStore (a + 3#32) .byte (v >>> 24) s3 = .next t ∧
      hostStore a .word v s = .next t := by
  have hbyte : ∀ i, i < 4 → ∀ u : State, u.cfg = s.cfg → touchesWindow u.cfg (a + BitVec.ofNat 32 i) .byte = false :=
    fun i hi u hu => hu ▸ touchesWindow_byte h hi
  have h0 := hbyte 0 (by decide) s rfl
  rw [BitVec.add_zero] at h0
  refine ⟨_, _, _, _, hostStore_byte h0 v, hostStore_byte (hbyte 1 (by decide) _ ?_) _,
    hostStore_byte (hbyte 2 (by decide) _ ?_) _, hostStore_byte (hbyte 3 (by decide) _ ?_) _, ?_⟩
  · simp only [hostPutByte_cfg]
  · simp only [hostPutByte_cfg]
  · simp only [hostPutByte_cfg]
  · rw [hostStore_memory h, accessBytes]
    simp only [hostPut, ← BitVec.shiftRight_add]

/-- Settles O56: where R266 forbids no store of its bytes, a word is the writes of its four bytes at four addresses. -/
theorem hostMemoryStoreAndLoad : Obligations.HostMemoryStoreAndLoad := by
  refine ⟨fun s a v hwf hwin hfree => ?word, fun s a v hwin => hostStore_word hwin v, fun s a v hwf hwin hr hw => ?byte,
    fun s a x hw hwin => hostLoad_byte_plain hwin hw x⟩
  case word =>
    have hbyte : ∀ i, i < 4 →
        byteAt (putBytes v (accessBytes a .word) s.mem) (a + BitVec.ofNat 32 i) = v.extractLsb' (8 * i) 8 := by
      intro i hi
      refine byteAt_putBytes (accessBytes_nodup a .word) hwf ?_
      simp [accessBytes_eq, Width.bytes, hi]
    refine ⟨putBytes v (accessBytes a .word) s.mem, ?_, read32_eq hbyte, fun i hi => ?_, fun b hb => ?_⟩
    · rw [hostStore_memory hwin, hostPut_plain fun b hb => ?_]
      obtain ⟨i, hi, rfl⟩ := mem_accessBytes.mp hb
      exact hfree i hi
    · rw [hbyte i hi, toNat_extract_byte]
    · refine byteAt_putBytes_other (fun hmem => ?_) v s.mem
      have hin : covers { start := a, len := 4 } b = true := (covers_bytes a b 4).mpr (mem_accessBytes.mp hmem)
      exact absurd (of_decide_eq_true hin) (Nat.not_lt.mpr hb)
  case byte =>
    refine ⟨_, (hostStore_byte hwin v).trans (congrArg _ (hostPutByte_plain hr hw _)), ?_, fun b hb => byteAt_write_other hb⟩
    rw [byteAt_write_same hwf]
    exact (toNat_extract_byte v 0).trans (by simp)

end Sys2Proof.Machine
end

section
/-! Results that are any value and results that are definite (R76, R71 c): what REMAP and QSURF8 leave. -/

namespace Sys2Proof.Machine

/-- Nibble j of a packed list is its entry number j, 0 where there is none (R113). -/
theorem packNibbles_nibble (l : List (BitVec 4)) : ∀ {j : Nat}, j < 8 →
    (packNibbles l).extractLsb' (4 * j) 4 = l.getD j 0#4 := by
  induction l with
  | nil =>
    intro j _
    refine BitVec.eq_of_getElem_eq fun i hi => ?_
    simp [packNibbles]
  | cons x xs ih =>
    intro j hj
    refine BitVec.eq_of_getElem_eq fun i hi => ?_
    rw [BitVec.getElem_extractLsb', packNibbles, BitVec.getLsbD_or, BitVec.getLsbD_shiftLeft, BitVec.getLsbD_setWidth]
    cases j with
    | zero => simp [hi, show i < 32 by omega]
    | succ j =>
      rw [List.getD_cons_succ, ← ih (by omega), BitVec.getElem_extractLsb', BitVec.getLsbD_of_ge x _ (by omega)]
      simp [show 4 * (j + 1) + i < 32 by omega, show ¬ 4 * (j + 1) + i < 4 by omega, show 4 * (j + 1) + i - 4 = 4 * j + i by omega]

/-- RES0 and RES1 hold the sixteen nibbles of REMAP (R113). -/
theorem nibbleAt_packNibbles {t : State} {l : List (BitVec 4)} (h0 : t.res0 = packNibbles (l.take 8))
    (h1 : t.res1 = packNibbles (l.drop 8)) {j : Nat} (hj : j < 16) : nibbleAt t j = l.getD j 0#4 := by
  unfold nibbleAt
  split
  · next h => rw [h0, packNibbles_nibble _ h]; simp [List.getD, h]
  · next h => rw [h1, packNibbles_nibble _ (by omega)]; simp [List.getD, show 8 + (j - 8) = j by omega]

/-- A command finds the raced bytes tainted, and no other. -/
theorem colourTainted_bus {s : State} {a : Word} : colourTainted s.bus a = true ↔ ColourOpen s (fun _ => False) a := by
  simp [colourTainted_iff, ColourOpen, State.bus]

/-- REMAP where no check and no access fails (R113). -/
theorem exec_remap_runs {s : State} (hm : s.ops.arg1.toNat = 0 ∨ s.ops.arg0.toNat % 4 = 0)
    (hf : firstFailing s.cfg (remapAccesses s.ops) = none) :
    ∃ l f, remapEntries s.cfg s.ops 0 (remapCount s.ops) s.bus = .ok (l, f) ∧ exec .remap s =
      .next ((({ s with freeCtr := f } : State).setRes (packNibbles (l.take 8)) (packNibbles (l.drop 8))).addUses
        (remapUses s.ops)).complete := by
  have hmis : ¬ remapMisaligned s.ops = true := fun h => by
    obtain ⟨h1, h0⟩ := remapMisaligned_iff.mp h
    exact hm.elim h1 h0
  have hacc : remapAccesses s.ops = (List.range (remapCount s.ops)).map fun i => (remapAddr s.ops (0 + i), .read) := by
    simp [remapAccesses, remapCount, remapAddr]
  obtain ⟨⟨l, f⟩, h⟩ := (remapEntries_stops s.cfg s.ops (remapCount s.ops) 0 s.bus).2 (hacc ▸ hf)
  exact ⟨l, f, h, by rw [exec, execRemap, if_neg hmis, h]⟩

/-- REMAP's nibbles on any bytes: free where the entry's colour was raced, definite elsewhere. -/
theorem remap_whereDefinite {s : State} (hm : s.ops.arg1.toNat = 0 ∨ s.ops.arg0.toNat % 4 = 0)
    (hf : firstFailing s.cfg (remapAccesses s.ops) = none) :
    ∃ t, exec .remap s = .next t ∧ Idle t ∧ SetupKept s t ∧ MemoryKept s t ∧ t.errs = s.errs ∧
      ∀ j, j < 16 →
        (min s.ops.arg1.toNat 16 ≤ j → nibbleAt t j = 0#4) ∧
        (j < min s.ops.arg1.toNat 16 →
          (ColourOpen s (fun _ => False) (s.ops.arg0 + BitVec.ofNat 32 (4 * j)) → FreeIn s t (.nibble j)) ∧
          (¬ ColourOpen s (fun _ => False) (s.ops.arg0 + BitVec.ofNat 32 (4 * j)) →
            nibbleAt t j =
              (nearest s.cfg.palette (colourOf (read32 s.mem (s.ops.arg0 + BitVec.ofNat 32 (4 * j))))).index)) := by
  obtain ⟨l, f, hl, hexec⟩ := exec_remap_runs hm hf
  obtain ⟨hlen, -, hentry⟩ := remapEntries_open hl
  refine ⟨_, hexec, (exec_ended hexec).1, (exec_keeps hexec).setup, fun _ => rfl, rfl, fun j hj => ?_⟩
  rw [nibbleAt_packNibbles rfl rfl hj]
  refine ⟨fun hge => ?none, fun hlt => ?entry⟩
  case none =>
    have hge : l.length ≤ j := hlen ▸ hge
    simp [hge]
  case entry =>
    obtain ⟨hfree, hdef⟩ := hentry j hlt
    rw [Nat.zero_add] at hfree hdef
    rw [← colourTainted_bus]
    refine ⟨fun ho => ?_, fun ho => ?_⟩
    · obtain ⟨q, hlo, hhi, hq⟩ := hfree ho
      refine ⟨q, hlo, hhi, fun _ => ?_⟩
      rw [nibbleAt_packNibbles rfl rfl hj, List.getD, hq, Option.getD_some]
    · rw [List.getD, hdef (Bool.eq_false_iff.mpr ho), Option.getD_some]
      rfl

/-- QSURF8 where no check and no access fails (R114). -/
theorem exec_qsurf8_runs {s : State} (hm : s.ops.surfBase.toNat % 4 = 0) (hne : s.ops.surfW.toNat * s.ops.surfH.toNat ≠ 0)
    (hf : firstFailing s.cfg (qsurfAccesses s.ops) = none) :
    ∃ b, qsurfLoop s.cfg s.ops (positions s.ops.surfW.toNat s.ops.surfH.toNat) s.bus = .ok b ∧
      exec .qsurf8 s = .next ((s.putBus b).addUses (qsurfUses s.ops)).complete := by
  have hmis : ¬ misaligned4 s.ops.surfBase = true := Bool.eq_false_iff.mp (misaligned4_eq_false.mpr hm)
  obtain ⟨b, h⟩ := (qsurfLoop_stops s.cfg s.ops _ s.bus).2 (qsurfAccesses_eq s.ops ▸ hf)
  exact ⟨b, h, by rw [exec, execQsurf8, if_neg hne, if_neg hmis, h]⟩

/-- The conditions under which an output byte of QSURF8 is any value, by the pixel and by its number. -/
theorem qsurfOpen_iff {s : State} {px py : Nat} (hx : px < s.ops.surfW.toNat) :
    QsurfOpen s.ops s.raced (py * s.ops.surfW.toNat + px) ↔
      ColourOpen s (qsurfWritten s.ops px py) (pixAddr s.ops px py) ∨
        ByteOpen s (s.ops.outBase + BitVec.ofNat 32 (py * s.ops.surfW.toNat + px)) := by
  obtain ⟨hpx, hpy⟩ := pos_number (y := py) hx
  rw [QsurfOpen, hpx, hpy]
  rfl

/-- QSURF8's bytes on any bytes: free where the pixel's colour or the byte itself is any value, definite elsewhere. -/
theorem qsurf8_whereDefinite {s : State} (hwf : Memory.wf s.mem = true) (hm : s.ops.surfBase.toNat % 4 = 0)
    (hne : s.ops.surfW.toNat * s.ops.surfH.toNat ≠ 0) (hf : firstFailing s.cfg (qsurfAccesses s.ops) = none) :
    ∃ t, exec .qsurf8 s = .next t ∧ Idle t ∧ SetupKept s t ∧ t.errs = s.errs ∧
      (∀ px py, px < s.ops.surfW.toNat → py < s.ops.surfH.toNat → ∀ b : Word,
        b = s.ops.outBase + BitVec.ofNat 32 (py * s.ops.surfW.toNat + px) →
        (ColourOpen s (qsurfWritten s.ops px py) (pixAddr s.ops px py) ∨ ByteOpen s b → FreeIn s t (.byte b)) ∧
        (¬ (ColourOpen s (qsurfWritten s.ops px py) (pixAddr s.ops px py) ∨ ByteOpen s b) →
          (byteAt t.mem b).toNat = (quantize s.cfg.palette (read32 s.mem (pixAddr s.ops px py)) px py).toNat)) ∧
      ∀ a : Word, covers (qsurfOut s.ops) a = false → byteAt t.mem a = byteAt s.mem a := by
  obtain ⟨b, hb, hexec⟩ := exec_qsurf8_runs hm hne hf
  refine ⟨_, hexec, (exec_ended hexec).1, (exec_keeps hexec).setup, rfl, fun px py hx hy o ho => ?_, fun a ha => ?_⟩
  · have hloop := hb
    rw [positions_eq (Nat.zero_lt_of_lt hx), List.range_eq_range'] at hloop
    obtain ⟨-, -, hbyte⟩ := qsurfLoop_open _ (Nat.zero_add _) ((Going.start hwf).congr fun x => by simp [Before]) hloop
    obtain ⟨hfree, hdef⟩ := hbyte _ (Nat.zero_le _) (by simpa using index_lt hx hy)
    obtain ⟨hpx, hpy⟩ := pos_number (y := py) hx
    subst ho
    rw [← qsurfOpen_iff hx]
    refine ⟨hfree, fun hno => (congrArg BitVec.toNat (hdef hno)).trans ?_⟩
    rw [hpx, hpy, toNat_indexByte]
  · exact (qsurfLoop_only (fun _ _ => mem_positions.mp) hb).1 a (Bool.eq_false_iff.mp ha)

end Sys2Proof.Machine
end

section
/-! The regions PACKR, PFLUSH and PFULL work on lie in the surface and are made of whole columns (R143, R185). -/

namespace Sys2Proof.Machine

theorem regionIn_align {g : Regs} (hw : g.surfW.toNat % 8 = 0) (x y w h : Nat) :
    RegionIn g (alignRegion x y w h g.surfW.toNat g.surfH.toNat) := by
  unfold alignRegion
  split
  · exact ⟨rfl, rfl, Nat.zero_le _, Nat.zero_le _⟩
  · split
    · exact ⟨rfl, rfl, Nat.zero_le _, Nat.zero_le _⟩
    · constructor <;> simp only [floor8, ceil8] at * <;> omega

theorem regionIn_requested {g : Regs} (h : SurfaceFits g) : RegionIn g (requestedRegion g) := by
  obtain ⟨-, -, hw8⟩ := h
  exact regionIn_align hw8 _ _ _ _

theorem regionIn_pending {g : Regs} (h : FlushFits g) (d : Dirty) : RegionIn g (pendingRegion g d) := by
  obtain ⟨hw, -, -, -, hw8⟩ := h
  exact regionIn_align (hw ▸ hw8) _ _ _ _

theorem regionIn_wholeScreen {g : Regs} (h : FlushFits g) : RegionIn g (wholeScreen g) := by
  obtain ⟨hw, hh, -, -, hw8⟩ := h
  exact ⟨rfl, hw8, by simp [wholeScreen, hw], by simp [wholeScreen, hh]⟩

/-- RES0 and RES1 hold a region of the surface in full (R154, R190, R191). -/
theorem RegionIn.halves_toNat {g : Regs} {r : Region} (h : RegionIn g r) :
    (halves r.y r.x).toNat = r.y * 65536 + r.x ∧ (halves r.h r.w).toNat = r.h * 65536 + r.w := by
  have hw := g.surfW.isLt
  have hh := g.surfH.isLt
  have hx := h.hw
  have hy := h.hh
  exact ⟨Machine.halves_toNat (by omega) (by omega), Machine.halves_toNat (by omega) (by omega)⟩

end Sys2Proof.Machine
end

section
/-! What PackRegion leaves in memory and in the command's own copies, on any bytes (R76, R144, R71 c). -/

namespace Sys2Proof.Machine

/-- The command's own copies of the packed bytes, with f free values counted after them: a copy is a free value where a pixel of
its column is any value to the command, and the packed byte elsewhere. -/
def CopiesWhereDefinite (s : State) (f : Nat) (r : Region) (pb : List Planes) : Prop :=
  pb.length = planeSize r ∧
  ∀ k c y, k < 4 → c < rowBytes r → y < r.h → ∃ q, pb[y * rowBytes r + c]? = some q ∧
    (ColumnOpen s r c y → ∃ n, s.freeCtr ≤ n ∧ n < f ∧ planeByte q k = Config.freeByte n) ∧
    (¬ ColumnOpen s r c y → PackedByte s r k c y (planeByte q k))

/-- The plane bytes of the dithered indices of a column are packed bytes (R142). -/
theorem packedByte_colIdx (s : State) (r : Region) {k : Nat} (hk : k < 4) (c y : Nat) :
    PackedByte s r k c y (planeByte (pack8 (colIdx s.cfg s.ops r s.mem c y)) k) :=
  fun _ hi => pack8_bit _ hk hi

/-- The condition under which a byte column is any value, by its place and by its number. -/
theorem colOpen_iff {s : State} {r : Region} {c y : Nat} (hc : c < rowBytes r) :
    ColOpen s.ops s.raced r (y * rowBytes r + c) ↔ ColumnOpen s r c y := by
  obtain ⟨hcol, hrow⟩ := pos_number (y := y) hc
  rw [ColOpen, hcol, hrow]
  rfl

/-- PackRegion where it succeeds, on any bytes. -/
theorem packRegion_whereDefinite {s t : State} {r : Region} {pb : List Planes} {b : Bus} (hin : RegionIn s.ops r)
    (hwf : Memory.wf s.mem = true) (h : packRegion s.cfg s.ops r s.bus = .ok (pb, b)) (hmem : t.mem = b.mem)
    (hfree : t.freeCtr = b.free) : PackedWhereDefinite s t r ∧ CopiesWhereDefinite s t.freeCtr r pb := by
  have hstart : Going s.ops s.mem s.raced (PackBefore s.ops r 0) s.bus :=
    (Going.start hwf).congr fun x => by simp [PackBefore]
  have hloop : 0 < rowBytes r → _ := fun h0 => by
    have hp := h
    rw [packRegion, positions_eq h0, List.range_eq_range'] at hp
    exact packLoop_open hin _ (Nat.zero_add _) hstart hp
  have hlen : pb.length = planeSize r := by
    rw [packLoop_length h]
    simp [positions, planeSize, Nat.mul_comm]
  have hbyte := fun k c y (hk : k < 4) (hc : c < rowBytes r) (hy : y < r.h) => by
    have hcol := (hloop (Nat.zero_lt_of_lt hc)).2.2 (y * rowBytes r + c) k (index_lt hc hy) hk
    rwa [Nat.zero_add, (pos_number (y := y) hc).1, (pos_number (y := y) hc).2, colOpen_iff hc] at hcol
  refine ⟨⟨fun k c y hk hc hy => ?_, fun a ha => ?_⟩, hlen, fun k c y hk hc hy => ?_⟩
  · obtain ⟨hopen, hdef, -⟩ := hbyte k c y hk hc hy
    rw [FreeIn, hmem, hfree]
    exact ⟨hopen, fun hno => hdef hno ▸ packedByte_colIdx s r hk c y⟩
  · exact hmem ▸ (packRegion_only h).1 a (Bool.eq_false_iff.mp ha)
  · obtain ⟨-, -, q, hq, hopen, hdef⟩ := hbyte k c y hk hc hy
    exact ⟨q, hq, hfree ▸ hopen, fun hno => hdef hno ▸ packedByte_colIdx s r hk c y⟩

/-- A command that packs, where its alignment check and its accesses pass: the region is packed and its last part runs. -/
theorem packThen_runs {s : State} {r : Region} (fin : List Planes → State → State) (hw : r.w ≠ 0)
    (hm : s.ops.surfBase.toNat % 4 = 0) (hf : firstFailing s.cfg (packAccesses s.ops r) = none) :
    ∃ pb b, packRegion s.cfg s.ops r s.bus = .ok (pb, b) ∧
      s.packThen r fin = fin pb ((s.putBus b).addUses (packUses s.ops r)) := by
  have hmis := misaligned4_eq_false.mpr hm
  obtain ⟨h0, -⟩ | ⟨-, h1, -⟩ | ⟨-, -, p, hp, -⟩ | ⟨-, -, -, h⟩ := packThen_cases s r fin
  · exact absurd h0 hw
  · rw [hmis] at h1
    cases h1
  · rw [hf] at hp
    cases hp
  · exact h

end Sys2Proof.Machine
end

section
/-! The events of a packed region one by one (R188): where the copy of each row stands, and what its bytes are. -/

namespace Sys2Proof.Machine

theorem regionEvents_eq (k : Config) (g : Regs) (r : Region) (pb : List Planes) :
    regionEvents k g r pb = (List.range 4).flatMap (planeEvents g r pb) ++ restoreEvents k := by
  simp [regionEvents, List.range_succ]

@[simp] theorem planeEvents_length (g : Regs) (r : Region) (pb : List Planes) (k : Nat) :
    (planeEvents g r pb k).length = 1 + r.h := by
  simp [planeEvents, Nat.add_comm]

/-- Lists of one length, one after another: entry j of list k is entry k * L + j of all. -/
theorem getElem?_flatMap_range {α : Type} {f : Nat → List α} {L : Nat} (hf : ∀ k, (f k).length = L) (n : Nat) {k j : Nat}
    (hk : k < n) (hj : j < L) : ((List.range n).flatMap f)[k * L + j]? = (f k)[j]? := by
  have hlen : ∀ m, ((List.range m).flatMap f).length = m * L := fun m => by simp [hf]
  induction n with
  | zero => exact absurd hk (Nat.not_lt_zero k)
  | succ n ih =>
    rw [List.range_succ, List.flatMap_append, List.flatMap_singleton]
    rcases Nat.lt_succ_iff_lt_or_eq.mp hk with h | rfl
    · have hlt : k * L + j < n * L := Nat.mul_comm L n ▸ index_lt hj h
      rw [List.getElem?_append_left (hlen n ▸ hlt), ih h]
    · rw [List.getElem?_append_right (by rw [hlen]; omega), hlen, Nat.add_sub_cancel_left]

/-- The copy of row y of plane k among a region's events. -/
theorem regionEvents_copy (k : Config) (g : Regs) (r : Region) (pb : List Planes) {p y : Nat} (hp : p < 4) (hy : y < r.h) :
    (regionEvents k g r pb)[p * (1 + r.h) + 1 + y]? = some (.copyIntoDevice (deviceOffset g r y) (planeRow r pb p y)) := by
  have hcopy : ((List.range 4).flatMap (planeEvents g r pb))[p * (1 + r.h) + (1 + y)]? =
      some (.copyIntoDevice (deviceOffset g r y) (planeRow r pb p y)) := by
    rw [getElem?_flatMap_range (planeEvents_length g r pb) 4 hp (by omega), Nat.add_comm 1 y]
    simp [planeEvents, hy]
  obtain ⟨hlt, -⟩ := List.getElem?_eq_some_iff.mp hcopy
  rw [regionEvents_eq, Nat.add_assoc, List.getElem?_append_left hlt, hcopy]

/-- Byte c of a row is that of its byte column's entry. -/
theorem planeRow_getElem? (r : Region) (pb : List Planes) (k y : Nat) {c : Nat} (hc : c < rowBytes r) :
    (planeRow r pb k y)[c]? = pb[y * rowBytes r + c]?.map (planeByte · k) := by
  simp [planeRow, hc]

theorem planeRow_length {r : Region} {pb : List Planes} (hpb : pb.length = planeSize r) (k : Nat) {y : Nat} (hy : y < r.h) :
    (planeRow r pb k y).length = rowBytes r := by
  have hfull : y * rowBytes r + rowBytes r ≤ pb.length := by
    rw [hpb, planeSize, ← Nat.succ_mul, Nat.mul_comm _ r.h]
    exact Nat.mul_le_mul_right _ hy
  simp only [planeRow, List.length_map, List.length_take, List.length_drop]
  omega

/-- The events of a packed region are those R188 lists but for the bytes they carry. -/
theorem regionEvents_shape (s t : State) {r : Region} {pb : List Planes} (hpb : pb.length = planeSize r) :
    (regionEvents s.cfg s.ops r pb).map HsEvent.shape = (FlushEvents s t r).map HsEvent.shape := by
  rw [regionEvents_eq, FlushEvents, List.map_append, List.map_append, List.map_flatMap, List.map_flatMap]
  congr 1
  refine List.flatMap_congr fun k _ => ?_
  rw [planeEvents, List.map_cons, List.map_cons, List.map_map, List.map_map]
  refine congrArg _ (List.map_congr_left fun y hy => ?_)
  simp only [Function.comp, HsEvent.shape, List.map_const', planeRow_length hpb k (List.mem_range.mp hy), List.length_map,
    List.length_range]
  rfl

/-- What a flush delivers when its copies are the definite ones and free values. -/
theorem eventsWhereDefinite {s t : State} {r : Region} {pb : List Planes} (hcopies : CopiesWhereDefinite s t.freeCtr r pb)
    (hev : t.events = s.events ++ regionEvents s.cfg s.ops r pb) : EventsWhereDefinite s t r := by
  obtain ⟨hlen, hcopies⟩ := hcopies
  refine ⟨by rw [hev, List.take_left], by rw [hev, List.map_append, List.map_append, regionEvents_shape s t hlen],
    fun k c y hk hc hy => ?_⟩
  have hat : t.events[s.events.length + k * (1 + r.h) + 1 + y]? =
      some (.copyIntoDevice (deviceOffset s.ops r y) (planeRow r pb k y)) := by
    rw [hev, Nat.add_assoc, Nat.add_assoc, List.getElem?_append_right (Nat.le_add_right _ _), Nat.add_sub_cancel_left,
      ← Nat.add_assoc, regionEvents_copy _ _ _ _ hk hy]
  obtain ⟨q, hq, hopen, hdef⟩ := hcopies k c y hk hc hy
  have hbyte : (planeRow r pb k y)[c]? = some (planeByte q k) := by rw [planeRow_getElem? r pb k y hc, hq, Option.map_some]
  refine ⟨fun ho => ?_, fun hno => ⟨_, _, _, hat, hbyte, hdef hno⟩⟩
  obtain ⟨n, hlo, hhi, hn⟩ := hopen ho
  refine ⟨n, hlo, hhi, fun o bs hbs _ => ?_⟩
  cases hat.symm.trans hbs
  rw [hbyte, hn]

theorem emitRegion_events {r : Region} (hw : r.w ≠ 0) (pb : List Planes) (s : State) :
    (s.emitRegion r pb).events = s.events ++ regionEvents s.cfg s.ops r pb := by
  rw [State.emitRegion, if_neg hw]
  rfl

end Sys2Proof.Machine
end

section
/-! PACKR, PFLUSH and PFULL on any bytes (R76, R154, R190, R191). -/

namespace Sys2Proof.Machine

/-- PACKR's result on any bytes. -/
theorem packr_whereDefinite {s : State} {r : Region} (hwf : Memory.wf s.mem = true) (hm : s.ops.surfBase.toNat % 4 = 0)
    (hw : r.w ≠ 0) (hf : firstFailing s.cfg (packAccesses s.ops r) = none) (hfits : SurfaceFits s.ops)
    (hr : r = requestedRegion s.ops) :
    ∃ t, exec .packr s = .next t ∧ Idle t ∧ SetupKept s t ∧ t.errs = s.errs ∧ PackedWhereDefinite s t r ∧
      t.events = s.events ∧ t.dirty = s.dirty ∧
      t.res0.toNat = r.y * 65536 + r.x ∧ t.res1.toNat = r.h * 65536 + r.w := by
  have hin : RegionIn s.ops r := hr ▸ regionIn_requested hfits
  have hexec := exec_packr_fits hfits
  rw [← hr] at hexec
  obtain ⟨pb, b, hpack, hrun⟩ :=
    packThen_runs (s := s.setLutrdy) (fun _ u => (u.setResRegion r).complete) hw hm hf
  rw [hrun] at hexec
  obtain ⟨h0, h1⟩ := hin.halves_toNat
  exact ⟨_, hexec, (exec_ended hexec).1, (exec_keeps hexec).setup, rfl,
    (packRegion_whereDefinite hin hwf hpack rfl rfl).1, rfl, rfl, h0, h1⟩

theorem emitRegion_freeCtr (r : Region) (pb : List Planes) (s : State) : (s.emitRegion r pb).freeCtr = s.freeCtr := by
  unfold State.emitRegion
  split <;> rfl

theorem emitRegion_dirty (r : Region) (pb : List Planes) (s : State) : (s.emitRegion r pb).dirty = s.dirty := by
  unfold State.emitRegion
  split <;> rfl

/-- What PFLUSH and PFULL share: the region packed and its events emitted, with LUTRDY set (R42). -/
theorem emitRegion_whereDefinite {s : State} {r : Region} {pb : List Planes} {b : Bus} (hin : RegionIn s.ops r)
    (hwf : Memory.wf s.mem = true) (hw : r.w ≠ 0) (hpack : packRegion s.cfg s.ops r s.bus = .ok (pb, b)) (us : List Use) :
    PackedWhereDefinite s (((s.setLutrdy.putBus b).addUses us).emitRegion r pb) r ∧
      EventsWhereDefinite s (((s.setLutrdy.putBus b).addUses us).emitRegion r pb) r := by
  obtain ⟨hbytes, hcopies⟩ := packRegion_whereDefinite hin hwf hpack (emitRegion_mem r pb ((s.setLutrdy.putBus b).addUses us))
    (emitRegion_freeCtr r pb _)
  exact ⟨hbytes, eventsWhereDefinite hcopies (emitRegion_events hw pb _)⟩

/-- PFLUSH's result on any bytes. -/
theorem pflush_whereDefinite {s : State} {r : Region} (hwf : Memory.wf s.mem = true) (hm : s.ops.surfBase.toNat % 4 = 0)
    (hw : r.w ≠ 0) (hf : firstFailing s.cfg (packAccesses s.ops r) = none) (hh : s.ops.hsen = true) (hfits : FlushFits s.ops)
    (hd : s.dirty.dv = true) (hr : r = pendingRegion s.ops s.dirty) :
    ∃ t, exec .pflush s = .next t ∧ Idle t ∧ SetupKept s t ∧ t.errs = s.errs ∧ PackedWhereDefinite s t r ∧
      EventsWhereDefinite s t r ∧ t.dirty = { dv := false, dl := 0#16, dt := 0#16, dr := 0#17, db := 0#17 } ∧
      t.res0.toNat = r.y * 65536 + r.x ∧ t.res1.toNat = r.h * 65536 + r.w := by
  have hin : RegionIn s.ops r := hr ▸ regionIn_pending hfits s.dirty
  have hexec := exec_pflush_fits hh hd hfits
  rw [← hr] at hexec
  obtain ⟨pb, b, hpack, hrun⟩ := packThen_runs (s := s.setLutrdy)
    (fun pb u => (((u.emitRegion r pb).clearDirty).setResRegion r).complete) hw hm hf
  rw [hrun] at hexec
  obtain ⟨hbytes, hevents⟩ := emitRegion_whereDefinite hin hwf hw hpack (packUses s.ops r)
  obtain ⟨h0, h1⟩ := hin.halves_toNat
  exact ⟨_, hexec, (exec_ended hexec).1, (exec_keeps hexec).setup, emitRegion_errs r pb _, hbytes, hevents, rfl, h0, h1⟩

/-- PFULL's result on any bytes. -/
theorem pfull_whereDefinite {s : State} {r : Region} (hwf : Memory.wf s.mem = true) (hm : s.ops.surfBase.toNat % 4 = 0)
    (hw : r.w ≠ 0) (hf : firstFailing s.cfg (packAccesses s.ops r) = none) (hh : s.ops.hsen = true) (hfits : FlushFits s.ops)
    (hr : r = wholeScreen s.ops) :
    ∃ t, exec .pfull s = .next t ∧ Idle t ∧ SetupKept s t ∧ t.errs = s.errs ∧ PackedWhereDefinite s t r ∧
      EventsWhereDefinite s t r ∧ t.dirty = s.dirty ∧
      t.res0.toNat = r.y * 65536 + r.x ∧ t.res1.toNat = r.h * 65536 + r.w := by
  have hin : RegionIn s.ops r := hr ▸ regionIn_wholeScreen hfits
  have hexec := exec_pfull_fits hh hfits
  rw [← hr] at hexec
  obtain ⟨pb, b, hpack, hrun⟩ := packThen_runs (s := s.setLutrdy)
    (fun pb u => ((u.emitRegion r pb).setResRegion r).complete) hw hm hf
  rw [hrun] at hexec
  obtain ⟨hbytes, hevents⟩ := emitRegion_whereDefinite hin hwf hw hpack (packUses s.ops r)
  obtain ⟨h0, h1⟩ := hin.halves_toNat
  exact ⟨_, hexec, (exec_ended hexec).1, (exec_keeps hexec).setup, emitRegion_errs r pb _, hbytes, hevents,
    emitRegion_dirty r pb _, h0, h1⟩

/-- Settles O59: what each loop does on any bus (Laws/FreeBytes), command by command. -/
theorem overlapOrRaceFreesResults : Obligations.OverlapOrRaceFreesResults :=
  ⟨fun _ => remap_whereDefinite, fun _ => qsurf8_whereDefinite, fun _ _ hwf hm hw hf =>
    ⟨packr_whereDefinite hwf hm hw hf, pflush_whereDefinite hwf hm hw hf, pfull_whereDefinite hwf hm hw hf⟩⟩

end Sys2Proof.Machine
end

section
/-! The decoder and the encoder as equations between bit fields (R81, R84, R88): OP names the command, RSV is the rest. -/

namespace Sys2Proof

/-! ### The two fields of a command word as numbers (R81) -/

theorem opField_toNat (c : Word) : (opField c).toNat = c.toNat % 256 := by simp [opField]

theorem rsvZero_iff {c : Word} : rsvZero c = true ↔ c.toNat < 256 := by
  have hlt := c.isLt
  rw [rsvZero, beq_iff_eq, ← BitVec.toNat_inj]
  simp [Nat.shiftRight_eq_div_pow]
  omega

/-! ### The opcode map (R84) -/

theorem Instr.mem_all (i : Instr) : i ∈ Instr.all := by cases i <;> decide

/-- R84 read from OP to command is R84 read from command to OP. -/
theorem opcodeMap_eq : opcodeMap = Instr.all.map fun i => (i.op, i) := rfl

theorem decodeOp_op (i : Instr) : decodeOp i.op = some i := by cases i <;> rfl

theorem decodeOp_eq_some {op : BitVec 8} {i : Instr} : decodeOp op = some i ↔ op = i.op := by
  refine ⟨fun h => ?_, fun h => h ▸ decodeOp_op i⟩
  obtain ⟨row, hfind, rfl⟩ := Option.map_eq_some_iff.mp h
  have hmem := List.mem_of_find?_eq_some hfind
  rw [opcodeMap_eq] at hmem
  obtain ⟨j, -, rfl⟩ := List.mem_map.mp hmem
  exact (beq_iff_eq.mp (List.find?_some hfind :)).symm

/-- R85's list of the OPs that are not legal leaves exactly those R84 gives a command. -/
theorem Machine.legalOp_iff {c : Word} : LegalOp c ↔ ∃ i, opField c = Instr.op i := by
  have hmem : (∃ i, opField c = Instr.op i) ↔ c.toNat % 256 ∈ Instr.all.map fun i => i.op.toNat := by
    simp [Instr.mem_all, ← BitVec.toNat_inj, opField_toNat, eq_comm]
  rw [hmem]
  simp [LegalOp, Instr.all, Instr.op]
  omega

/-! ### The decoder (R88) -/

theorem decode_eq_ok {c : Word} {i : Instr} : decode c = .ok i ↔ opField c = i.op ∧ rsvZero c = true := by
  rw [← decodeOp_eq_some, decode]
  cases decodeOp (opField c) with
  | none => simp
  | some j => cases rsvZero c <;> simp

/-- OP is checked first: with no command for it the word is refused whatever RSV is. -/
theorem decode_illegal {c : Word} (h : ¬ Machine.LegalOp c) : decode c = .error .illegalOpcode := by
  have hnone : decodeOp (opField c) = none :=
    Option.eq_none_iff_forall_ne_some.mpr fun i hi => h (Machine.legalOp_iff.mpr ⟨i, decodeOp_eq_some.mp hi⟩)
  rw [decode, hnone]

theorem decode_reserved {c : Word} (h : Machine.LegalOp c) (hr : rsvZero c = false) : decode c = .error .reservedBits := by
  obtain ⟨i, hi⟩ := Machine.legalOp_iff.mp h
  rw [decode, decodeOp_eq_some.mpr hi, hr]
  rfl

/-! ### The encoder (R91) -/

section
open Laws.Encoding

/-- The law of the encoder, which Laws/PerInstr states command by command. -/
theorem encode_fields (i : Instr) : Statement i := by
  cases i with
  | nop => exact nop
  | nearest => exact nearest
  | dthr => exact dthr
  | qpix => exact qpix
  | remap => exact remap
  | qsurf8 => exact qsurf8
  | lutinit => exact lutinit
  | pair => exact pair
  | pack8 => exact pack8
  | align => exact align
  | packr => exact packr
  | pflush => exact pflush
  | pfull => exact pfull
  | mark => exact mark
  | clear => exact clear

end

/-- A word is a command's encoding exactly when its two fields are: together they are all of the word's bits (R81). -/
theorem eq_encode_iff {c : Word} {i : Instr} : c = encode i ↔ opField c = i.op ∧ rsvZero c = true := by
  obtain ⟨hop, hrsv, hnum⟩ := encode_fields i
  refine ⟨fun h => h ▸ ⟨hop, hrsv⟩, fun ⟨ho, hr⟩ => BitVec.eq_of_toNat_eq ?_⟩
  calc c.toNat = c.toNat % 256 := (Nat.mod_eq_of_lt (rsvZero_iff.mp hr)).symm
    _ = (opField c).toNat := (opField_toNat c).symm
    _ = (encode i).toNat := by rw [ho, hnum]

namespace Machine

/-- Settles O2: both sides say that OP is the command's and RSV is zero. -/
theorem decodeEncodeAgree : Obligations.DecodeEncodeAgree :=
  fun _ _ => decode_eq_ok.trans eq_encode_iff.symm

theorem decode_encode (i : Instr) : decode (encode i) = .ok i := (decodeEncodeAgree _ i).mpr rfl

/-- Settles O1: each word is its command's encoding, and decoding undoes that. -/
theorem legalWordsDecode : Obligations.LegalWordsDecode :=
  ⟨decode_encode .nop, decode_encode .nearest, decode_encode .dthr, decode_encode .qpix, decode_encode .remap,
    decode_encode .qsurf8, decode_encode .lutinit, decode_encode .pair, decode_encode .pack8, decode_encode .align,
    decode_encode .packr, decode_encode .pflush, decode_encode .pfull, decode_encode .mark, decode_encode .clear, rfl⟩

end Machine
end Sys2Proof
end

section
/-! Execution of a word that does not decode (R85, R86, R231, R232). -/

namespace Sys2Proof.Machine

theorem executeLatched_illegal {s : State} (h : decode s.cmd.word = .error .illegalOpcode) :
    executeLatched s = .next (s.raise .illegalOpcode 0#32) := by
  simp [executeLatched, h]

theorem executeLatched_reserved {s : State} (h : decode s.cmd.word = .error .reservedBits) :
    executeLatched s = .next (s.raise .reservedBits 0#32) := by
  simp [executeLatched, h]

/-- Settles O3: by R88's order, OP first, then RSV, then the command. -/
theorem decodeOrderTotal : Obligations.DecodeOrderTotal := by
  rintro c s rfl
  refine ⟨fun h => ?illegal, fun h hr => ?reserved, fun h hr => ?decodes⟩
  case illegal =>
    have hd := decode_illegal h
    exact ⟨hd, executeLatched_illegal hd⟩
  case reserved =>
    have hrsv : rsvZero s.cmd.word = false := by rw [← Bool.not_eq_true, rsvZero_iff]; omega
    have hd := decode_reserved h hrsv
    exact ⟨hd, executeLatched_reserved hd⟩
  case decodes =>
    obtain ⟨i, hi⟩ := legalOp_iff.mp h
    have hd := decode_eq_ok.mpr ⟨hi, rsvZero_iff.mpr hr⟩
    exact ⟨i, hd, (decodeEncodeAgree _ i).mp hd, executeLatched_decoded hd⟩

/-- What raising an error leaves: the record of R237 and an idle BDQ, all else kept (R236). -/
theorem raise_effects (e : ErrorKind) (a : Word) (s : State) :
    Recorded e a s (s.raise e a) ∧ Idle (s.raise e a) ∧ SetupKept s (s.raise e a) ∧ ErrorKept s (s.raise e a) ∧
      MemoryKept s (s.raise e a) ∧ (s.raise e a).lutrdy = s.lutrdy ∧ (s.raise e a).freeCtr = s.freeCtr :=
  ⟨⟨fun hs => by simp [State.raise_errs, hs], fun hs => by simp [State.raise_errs, hs]⟩, (Ended.raise e a s).1,
    (CommandKeeps.raise e a s).setup, by simp [ErrorKept], by simp [MemoryKept], by simp, by simp⟩

/-- With a command latched and no turn left the step is its execution. -/
theorem step_latched {s : State} {l : Latch} (hl : s.latch = some l) (ht : s.turns = []) : step s = executeLatched s :=
  step_no_turn (congrArg Option.isSome hl) ht

/-- Settles O5: execution raises the error, which has no other effect. -/
theorem illegalOpcodeRaised : Obligations.IllegalOpcodeRaised := by
  intro s l hl ht hop
  obtain ⟨-, hexec⟩ := (decodeOrderTotal l.word s (congrArg Latch.word (cmd_of_latch hl))).1 hop
  exact ⟨_, (step_latched hl ht).trans hexec, raise_effects _ _ s⟩

/-- Settles O6: execution raises the error, which has no other effect. -/
theorem reservedBitsRaised : Obligations.ReservedBitsRaised := by
  intro s l hl ht hop hr
  obtain ⟨-, hexec⟩ := (decodeOrderTotal l.word s (congrArg Latch.word (cmd_of_latch hl))).2.1 hop hr
  exact ⟨_, (step_latched hl ht).trans hexec, raise_effects _ _ s⟩

end Sys2Proof.Machine
end

section
/-! A poll (R89): one STATUS read a round. -/

namespace Sys2Proof.Machine

/-- Bit 0 of STATUS is BUSY (R26). -/
theorem status_busy (s : State) : s.status.getLsbD 0 = s.busy := by
  rw [State.status, BitVec.getLsbD_append]
  simp

/-- With BUSY = 0 a round of a poll is a load of STATUS, and the last. -/
theorem pollOnce_idle {s : State} (h : s.busy = false) (x : Nat) :
    s.pollOnce x = (afterRead s .status).bindVar x (readReg s .status) := by
  simp [State.pollOnce, h]

/-- With BUSY = 1 a round of a poll binds what STATUS reads as, and the poll is the next action again. -/
theorem pollOnce_busy {s : State} (h : s.busy = true) (x : Nat) :
    s.pollOnce x = { s.bindVar x (readReg s .status) with host := .poll x :: s.host } := by
  simp [State.pollOnce, h, afterRead_eq_self]

/-- A STATUS read with BUSY = 0 makes the results visible and ends what R266 forbids (R265, R71 b). -/
theorem afterRead_status_idle {s : State} (h : s.busy = false) :
    afterRead s .status = { s with held := none, hazard := { reads := [], writes := [] }, uses := [] } := by
  simp [afterRead, State.acknowledge, h, Footprint.empty]

theorem hostLoad_status (x : Nat) (s : State) :
    hostLoad (s.cfg.base + BitVec.ofNat 32 Reg.status.offset) .word x s =
      .next ((afterRead s .status).bindVar x (readReg s .status)) := by
  rw [hostLoad_offset s x (Reg.offset_lt _) (Reg.offset_aligned _), regAt_offset]
  rfl

/-- Settles O57: by BUSY, one round of the poll ends it or leaves it the host's next action. -/
theorem pollRepeatsStatusRead : Obligations.PollRepeatsStatusRead := by
  intro s x rest hhost
  refine ⟨fun hb => ?idle, fun ts hb ht => ⟨?again, (status_busy s).trans hb⟩⟩
  case idle =>
    have hstep : step s = .next ((afterRead { s with host := rest } .status).bindVar x (readReg s .status)) :=
      ((step_idle hb).trans (hostStep_cons hhost)).trans (congrArg _ (pollOnce_idle (s := { s with host := rest }) hb x))
    refine ⟨hstep.trans (hostLoad_status x { s with host := rest }).symm, hstep.trans ?_⟩
    rw [afterRead_status_idle (s := { s with host := rest }) hb]
    rfl
  case again =>
    rw [step_host_turn hb ht, hostStep_cons (s := { s with turns := ts }) hhost, hostAct,
      pollOnce_busy (s := { s with turns := ts, host := rest }) hb, State.bindVar, ← hhost]
    rfl

end Sys2Proof.Machine
end

section
/-! Nearest (R100, R101): distances on integers, and the scan keeps the first entry of least distance. -/

namespace Sys2Proof.Machine

/-! ### Distances (R101) -/

theorem sqDiff_eq (a b : Byte) : (sqDiff a b : Int) = ((a.toNat : Int) - b.toNat) ^ 2 := by
  rw [sqDiff, Int.toNat_of_nonneg (mul_self_nonneg _), sq]

theorem sqDiff_le (a b : Byte) : sqDiff a b ≤ 65025 := by
  have ha := a.isLt
  have hb := b.isLt
  have h : ((a.toNat : Int) - b.toNat) ^ 2 ≤ 255 ^ 2 := sq_le_sq' (by omega) (by omega)
  have := sqDiff_eq a b
  omega

theorem sqDiff_eq_zero {a b : Byte} : sqDiff a b = 0 ↔ a = b := by
  rw [← Int.natCast_eq_zero, sqDiff_eq, sq_eq_zero_iff, sub_eq_zero, Int.natCast_inj, BitVec.toNat_inj]

theorem distSq_le (c e : Rgb) : distSq c e ≤ 195075 := by
  have hr := sqDiff_le c.r e.r
  have hg := sqDiff_le c.g e.g
  have hb := sqDiff_le c.b e.b
  rw [distSq]
  omega

/-- Only a colour itself is at distance 0 from it. -/
theorem distSq_eq_zero {c e : Rgb} : distSq c e = 0 ↔ c = e := by
  cases c
  cases e
  simp [distSq, sqDiff_eq_zero, and_assoc]

/-! ### Palette entries by index (R30) -/

theorem toList_getElem? (p : Palette) (i : BitVec 4) : p.toList[i.toNat]? = some (paletteEntry p i) := by
  have hi : i.toNat < p.toList.length := i.isLt
  rw [paletteEntry, List.getD_eq_getElem _ _ hi, List.getElem?_eq_getElem hi]

/-! ### The scan (R100) -/

/-- m is the first entry of least distance from c among the listed ones. -/
structure FirstMinimum (c : Rgb) (l : List Rgb) (m : Match) : Prop where
  entry : ∃ e, l[m.index.toNat]? = some e ∧ m.distance = distSq c e
  least : ∀ (j : Nat) e, l[j]? = some e → m.distance ≤ distSq c e
  first : ∀ (j : Nat) e, l[j]? = some e → j < m.index.toNat → m.distance < distSq c e

/-- One more entry: it replaces the best so far exactly when it is strictly nearer. -/
theorem FirstMinimum.snoc {c e : Rgb} {l : List Rgb} {m : Match} (h : FirstMinimum c l m) (hl : l.length < 16) :
    FirstMinimum c (l ++ [e])
      (if distSq c e < m.distance then { index := BitVec.ofNat 4 l.length, distance := distSq c e } else m) := by
  obtain ⟨⟨e₀, hentry, hdist⟩, hleast, hfirst⟩ := h
  have hidx : m.index.toNat < l.length := (List.getElem?_eq_some_iff.mp hentry).1
  have hnum : (BitVec.ofNat 4 l.length).toNat = l.length := Nat.mod_eq_of_lt hl
  have hcases : ∀ j e', (l ++ [e])[j]? = some e' → l[j]? = some e' ∨ j = l.length ∧ e' = e := by
    intro j e' hj
    rw [List.getElem?_append] at hj
    split at hj
    · exact .inl hj
    · obtain ⟨h0, he⟩ := List.getElem?_eq_some_iff.mp hj
      simp only [List.length_singleton, List.getElem_singleton] at h0 he
      exact .inr ⟨by omega, he.symm⟩
  split
  case isTrue hlt =>
    refine ⟨⟨e, by simp [hnum], rfl⟩, fun j e' hj => ?_, fun j e' hj hjlt => ?_⟩
    · obtain hj | ⟨-, rfl⟩ := hcases j e' hj
      · exact hlt.le.trans (hleast j e' hj)
      · exact Nat.le_refl _
    · obtain hj | ⟨rfl, -⟩ := hcases j e' hj
      · exact hlt.trans_le (hleast j e' hj)
      · exact absurd hjlt (by simp [hnum])
  case isFalse hge =>
    refine ⟨⟨e₀, by rw [List.getElem?_append_left hidx, hentry], hdist⟩, fun j e' hj => ?_, fun j e' hj hjlt => ?_⟩
    · obtain hj | ⟨-, rfl⟩ := hcases j e' hj
      · exact hleast j e' hj
      · exact Nat.le_of_not_lt hge
    · obtain hj | ⟨rfl, -⟩ := hcases j e' hj
      · exact hfirst j e' hj hjlt
      · omega

/-- The scan goes on from the first minimum of the entries before, at most sixteen in all, to that of all. -/
theorem FirstMinimum.scan {c : Rgb} (rest : List Rgb) : ∀ {l : List Rgb} {m : Match}, FirstMinimum c l m →
    l.length + rest.length ≤ 16 → FirstMinimum c (l ++ rest) (scan c m l.length rest) := by
  induction rest with
  | nil => exact fun h _ => (List.append_nil _).symm ▸ h
  | cons e es ih =>
    intro l m h hlen
    rw [List.length_cons] at hlen
    have hrec := ih (h.snoc (e := e) (by omega)) (by rw [List.length_append, List.length_singleton]; omega)
    rw [List.append_assoc, List.singleton_append, List.length_append, List.length_singleton] at hrec
    split at hrec
    case isTrue hlt => rwa [Machine.scan, if_pos hlt]
    case isFalse hge => rwa [Machine.scan, if_neg hge]

theorem nearest_firstMinimum (p : Palette) (c : Rgb) : FirstMinimum c p.toList (nearest p c) := by
  have hstart : FirstMinimum c [p.p0] { index := 0#4, distance := distSq c p.p0 } :=
    ⟨⟨p.p0, rfl, rfl⟩, fun j e hj => by simp_all [List.getElem?_singleton], fun j e _ hj => absurd hj (Nat.not_lt_zero j)⟩
  exact hstart.scan p.toList.tail (Nat.le_refl 16)

theorem nearest_distance (p : Palette) (c : Rgb) : (nearest p c).distance = distSq c (paletteEntry p (nearest p c).index) := by
  obtain ⟨e, he, hd⟩ := (nearest_firstMinimum p c).entry
  rw [hd, Option.some.inj ((toList_getElem? p _).symm.trans he)]

/-- Settles O17: the scan keeps the first minimum of the entries it has seen. -/
theorem nearestFirstMinimum : Obligations.NearestFirstMinimum := by
  refine ⟨toList_getElem?, fun c e => ⟨?_, distSq_le c e⟩, fun p c => ⟨nearest_distance p c, fun j => ?_⟩⟩
  · rw [distSq, Nat.cast_add, Nat.cast_add, sqDiff_eq, sqDiff_eq, sqDiff_eq]
  · have hmin := nearest_firstMinimum p c
    exact ⟨hmin.least _ _ (toList_getElem? p j), hmin.first _ _ (toList_getElem? p j)⟩

/-- Settles O19: an entry at distance 0 from a colour is that colour, so its index is the entry's own if no other holds it. -/
theorem paletteRoundTrip : Obligations.PaletteRoundTrip := by
  intro p
  constructor
  · intro h i j hij
    have hm := (h i).symm.trans (hij ▸ h j)
    exact congrArg Match.index hm
  · intro h i
    have hzero : (nearest p (paletteEntry p i)).distance = 0 := by
      have hle := (nearest_firstMinimum p (paletteEntry p i)).least _ _ (toList_getElem? p i)
      rwa [distSq_eq_zero.mpr rfl, Nat.le_zero] at hle
    have hindex : i = (nearest p (paletteEntry p i)).index := h _ _ (distSq_eq_zero.mp (nearest_distance p _ ▸ hzero))
    calc nearest p (paletteEntry p i) = ⟨(nearest p (paletteEntry p i)).index, (nearest p (paletteEntry p i)).distance⟩ := rfl
      _ = { index := i, distance := 0 } := by rw [hzero, ← hindex]

end Sys2Proof.Machine
end

section
/-! NEAREST, DTHR and QPIX (R110–R112) and the laws of the dither (R102–R105): results that depend on registers alone. -/

namespace Sys2Proof.Machine

/-- What a command whose only results are RES0 and RES1 leaves. -/
theorem setRes_complete_frame (a b : Word) (s : State) :
    Idle (s.setRes a b).complete ∧ SetupKept s (s.setRes a b).complete ∧ MemoryKept s (s.setRes a b).complete ∧
      (s.setRes a b).complete.events = s.events ∧ (s.setRes a b).complete.dirty = s.dirty ∧
      (s.setRes a b).complete.errs = s.errs ∧ (s.setRes a b).complete.lutrdy = s.lutrdy ∧
      (s.setRes a b).complete.freeCtr = s.freeCtr :=
  ⟨⟨rfl, rfl⟩, .refl s, fun _ => rfl, rfl, rfl, rfl, rfl, rfl⟩

/-! ### NEAREST -/

/-- A nearest distance fits a register. -/
theorem toNat_nearest_distance (p : Palette) (c : Rgb) :
    (BitVec.ofNat 32 (nearest p c).distance).toNat = (nearest p c).distance := by
  have hle := distSq_le c (paletteEntry p (nearest p c).index)
  rw [← nearest_distance] at hle
  exact Nat.mod_eq_of_lt (by omega)

theorem distinct_iff_nodup {l : List Rgb} : distinct l = true ↔ l.Nodup := by
  induction l with
  | nil => simp [distinct]
  | cons c cs ih => simp [distinct, ih]

/-- The two conditions of R30 on a palette. -/
theorem palette_wf_iff {p : Palette} :
    p.wf = true ↔ paletteEntry p 7#4 = { r := 0xAA#8, g := 0xAA#8, b := 0xAA#8 } ∧ p.toList.Nodup := by
  rw [Palette.wf, Bool.and_eq_true, distinct_iff_nodup, Palette.graySeven, beq_iff_eq]
  rfl

/-- Entries that are pairwise distinct in the list have different indices. -/
theorem paletteEntry_injective {p : Palette} (h : p.toList.Nodup) {i j : BitVec 4}
    (hij : paletteEntry p i = paletteEntry p j) : i = j := by
  refine BitVec.eq_of_toNat_eq ((List.getElem?_inj i.isLt h).mp ?_)
  rw [toList_getElem?, toList_getElem?, hij]

/-- Gray finds entry 7 at distance 0 in a well-formed palette (R30). -/
theorem nearest_gray {p : Palette} (h : p.wf = true) :
    nearest p { r := 0xAA#8, g := 0xAA#8, b := 0xAA#8 } = { index := 7#4, distance := 0 } := by
  obtain ⟨hgray, hnodup⟩ := palette_wf_iff.mp h
  exact hgray ▸ (paletteRoundTrip p).mpr (fun _ _ => paletteEntry_injective hnodup) 7#4

/-- Settles O18: the colour in ARG0 is its three channels, and index and distance fit a register. -/
theorem nearestResult : Obligations.NearestResult := by
  refine ⟨decode_encode .nearest, fun s => ⟨_, rfl, toNat_index _, toNat_nearest_distance _ _, fun hcfg hgray => ?_,
    setRes_complete_frame _ _ s⟩⟩
  have hpal : s.cfg.palette.wf = true := by
    rw [Config.wf, Bool.and_eq_true] at hcfg
    exact hcfg.2
  simp only [State.complete_res0, State.setRes_res0, State.complete_res1, State.setRes_res1, hgray]
  rw [show colourOf 0x00AAAAAA#32 = { r := 0xAA#8, g := 0xAA#8, b := 0xAA#8 } from rfl, nearest_gray hpal]
  exact ⟨rfl, rfl⟩

/-! ### The threshold matrix and the offset (R32, R102) -/

theorem tm_mod (y x : Nat) : tm (y % 4) (x % 4) = tm y x := by simp [tm]

theorem thresholdSeq_getElem? (y x : Nat) : thresholdSeq[4 * (y % 4) + x % 4]? = some (tm y x) := by
  have hlt : 4 * (y % 4) + x % 4 < thresholdSeq.length := show _ < 16 by omega
  rw [tm, List.getD_eq_getElem _ _ hlt, List.getElem?_eq_getElem hlt]

/-- The sixteen values of the matrix: one 8, at (1, 0), and none past 15. -/
theorem tm_values : ∀ y, y < 4 → ∀ x, x < 4 → tm y x ≤ 15 ∧ (tm y x = 8 ↔ x = 1 ∧ y = 0) := by decide

theorem tm_le (y x : Nat) : tm y x ≤ 15 :=
  tm_mod y x ▸ (tm_values _ (Nat.mod_lt y (by decide)) _ (Nat.mod_lt x (by decide))).1

theorem tm_eq_eight {y x : Nat} : tm y x = 8 ↔ x % 4 = 1 ∧ y % 4 = 0 :=
  tm_mod y x ▸ (tm_values _ (Nat.mod_lt y (by decide)) _ (Nat.mod_lt x (by decide))).2

theorem thr_bounds (x y : Nat) : -64 ≤ thr x y ∧ thr x y ≤ 56 := by
  have := tm_le y x
  rw [thr]
  omega

theorem thr_mod (x y : Nat) : thr (x % 4) (y % 4) = thr x y := by rw [thr, tm_mod, thr]

/-- The offset sign-extended to a register is the offset. -/
theorem toInt_thr (x y : Nat) : ((BitVec.ofInt 8 (thr x y)).signExtend 32).toInt = thr x y := by
  obtain ⟨hlo, hhi⟩ := thr_bounds x y
  rw [BitVec.toInt_signExtend_of_le (by decide), BitVec.toInt_ofInt_eq_self (by decide) (by omega) (by omega)]

/-- Settles O20: x and y are the halves of ARG0, and the offset fits a signed byte. -/
theorem dthrResult : Obligations.DthrResult := by
  refine ⟨decode_encode .dthr, fun s => ⟨_, tm (hiHalf s.ops.arg0) (loHalf s.ops.arg0), rfl, ?_, toInt_thr _ _, ?_,
    setRes_complete_frame _ _ s⟩⟩
  · have hx : s.ops.arg0.toNat % 4 = loHalf s.ops.arg0 % 4 := by rw [loHalf_eq]; omega
    rw [← hiHalf_eq, hx]
    exact thresholdSeq_getElem? _ _
  · have := tm_le (hiHalf s.ops.arg0) (loHalf s.ops.arg0)
    exact Nat.mod_eq_of_lt (by omega)

/-! ### The dithered colour (R103, R104) -/

theorem toNat_clampAdd (v : Byte) (o : Int) : ((clampAdd v o).toNat : Int) = min (max ((v.toNat : Int) + o) 0) 255 := by
  rw [clampAdd, BitVec.toNat_ofNat, Nat.mod_eq_of_lt (by omega), Int.toNat_of_nonneg (by omega)]

theorem clampAdd_zero (v : Byte) : clampAdd v 0 = v := by
  have hv := v.isLt
  have := toNat_clampAdd v 0
  exact BitVec.eq_of_toNat_eq (by omega)

theorem dither_mod (c : Rgb) (x y : Nat) : dither c (x % 4) (y % 4) = dither c x y := by simp only [dither, thr_mod]

/-- At offset 0 the colour stays (R105 d). -/
theorem dither_zero {c : Rgb} {x y : Nat} (h : tm y x = 8) : dither c x y = c := by
  have hthr : thr x y = 0 := by simp [thr, h]
  simp only [dither, hthr, clampAdd_zero]

/-- Settles O21: the colour is the dithered one of ARG0 at the position in ARG1. -/
theorem qpixResult : Obligations.QpixResult := by
  refine ⟨decode_encode .qpix, fun s => ⟨_, dither (colourOf s.ops.arg0) (loHalf s.ops.arg1) (hiHalf s.ops.arg1), rfl, ?_⟩⟩
  rw [← loHalf_eq, ← hiHalf_eq]
  exact ⟨toNat_clampAdd _ _, toNat_clampAdd _ _, toNat_clampAdd _ _, toNat_index _, rfl, setRes_complete_frame _ _ s⟩

/-- Settles O22: offset and index come from the threshold matrix, which has period 4 in x and in y. -/
theorem quantizePositionLaws : Obligations.QuantizePositionLaws := by
  intro p c x y
  obtain ⟨hlo, hhi⟩ := thr_bounds x y
  refine ⟨⟨dither (colourOf c) x y, rfl, toNat_clampAdd _ _, toNat_clampAdd _ _, toNat_clampAdd _ _⟩, fun m hm => ?_,
    (thr_mod x y).symm, hlo, hhi, ?_, tm_eq_eight, fun h => ?_⟩
  · rw [thr, Option.some.inj ((thresholdSeq_getElem? y x).symm.trans hm)]
  · rw [quantize, quantize, dither_mod]
  · rw [quantize, dither_zero h]
    rfl

end Sys2Proof.Machine
end

section
/-! REMAP and QSURF8 with no raced byte and no overlap (R113, R114): every result is definite. -/

namespace Sys2Proof.Machine

theorem firstFailing_eq_none {k : Config} {as : List Access} :
    firstFailing k as = none ↔ ∀ p ∈ as, memErrAt k p.1 p.2 = false := by
  simp [firstFailing]

/-! ### REMAP -/

/-- The accesses of REMAP are the reads its loop makes from entry 0 on. -/
theorem remapAccesses_eq (g : Regs) :
    remapAccesses g = (List.range (remapCount g)).map fun i => (remapAddr g (0 + i), .read) := by
  simp [remapAccesses, remapCount, remapAddr]

/-- REMAP's first failing access is the read of the first source entry that cannot be read (R238). -/
theorem firstFailing_remap {k : Config} {g : Regs} {j : Nat} (hj : j < min g.arg1.toNat 16)
    (hbefore : ∀ i, i < j → memErrAt k (g.arg0 + BitVec.ofNat 32 (4 * i)) .read = false)
    (hfail : memErrAt k (g.arg0 + BitVec.ofNat 32 (4 * j)) .read = true) :
    firstFailing k (remapAccesses g) = some (g.arg0 + BitVec.ofNat 32 (4 * j), .read) := by
  rw [firstFailing, remapAccesses, List.find?_map, List.find?_range_eq_some.mpr ⟨hfail, List.mem_range.mpr hj, ?_⟩]
  · rfl
  · exact fun i hi => Bool.not_eq_true' _ ▸ hbefore i hi

/-- REMAP where a read fails (R113, R236). -/
theorem exec_remap_fails {s : State} {p : Access} (hm : s.ops.arg0.toNat % 4 = 0)
    (hf : firstFailing s.cfg (remapAccesses s.ops) = some p) : exec .remap s = .next (s.raise .busError p.1) := by
  have hmis : ¬ remapMisaligned s.ops = true := fun h => (remapMisaligned_iff.mp h).2 hm
  have hstop := (remapEntries_stops s.cfg s.ops (remapCount s.ops) 0 s.bus).1 p (remapAccesses_eq s.ops ▸ hf)
  rw [exec, execRemap, if_neg hmis, hstop]

/-- Settles O23: on a clean bus the loop yields the nearest indices in order, and else stops at the first failing read. -/
theorem remapResult : Obligations.RemapResult := by
  refine ⟨fun _ => rfl, fun s hraced halign hread => ?runs, fun s j halign hj hbefore hfail => ?stops⟩
  case runs =>
    have hf : firstFailing s.cfg (remapAccesses s.ops) = none :=
      firstFailing_eq_none.mpr (List.forall_mem_map.mpr fun j hj => hread j (List.mem_range.mp hj))
    obtain ⟨l, f, hl, hexec⟩ := exec_remap_runs halign hf
    have hok := remapEntries_ok s.cfg s.ops (remapCount s.ops) 0 s.bus hraced fun i hi =>
      (Nat.zero_add i).symm ▸ hread i hi
    obtain ⟨rfl, rfl⟩ := Prod.mk.inj (Except.ok.inj (hl.symm.trans hok))
    refine ⟨_, hexec, fun j hj => (nibbleAt_packNibbles rfl rfl hj).trans ?_, (exec_ended hexec).1,
      (exec_keeps hexec).setup, fun _ => rfl, rfl, rfl, rfl, rfl, rfl, rfl⟩
    split
    case isTrue hlt =>
      have hlt : j < remapCount s.ops := hlt
      simp [hlt, State.bus, remapAddr]
    case isFalse hge =>
      have hge : remapCount s.ops ≤ j := Nat.le_of_not_lt hge
      simp [hge]
  case stops =>
    obtain ⟨hrec, hidle, hset, herr, hmem, hlut, -⟩ := raise_effects .busError (s.ops.arg0 + BitVec.ofNat 32 (4 * j)) s
    exact ⟨_, exec_remap_fails halign (firstFailing_remap hj hbefore hfail), hrec, hidle, hset, herr, hmem, hlut⟩

/-! ### QSURF8 -/

theorem toNat_pixAddr (g : Regs) (px py : Nat) :
    (pixAddr g px py).toNat = (g.surfBase.toNat + 4 * (py * g.surfW.toNat + px)) % 2 ^ 32 := by
  rw [pixAddr, BitVec.toNat_add, BitVec.toNat_ofNat, Nat.add_mod_mod]

/-- Settles O24: on a clean bus with its output outside the surface the loop gives each pixel's byte its index. -/
theorem qsurfResult : Obligations.QsurfResult := by
  refine ⟨fun g px py => ⟨toNat_pixAddr g px py, rfl, rfl⟩, fun s hempty => ?empty,
    fun s hwf hraced halign hw hh hread hwrite => ?runs⟩
  case empty =>
    have hne : s.ops.surfW.toNat * s.ops.surfH.toNat = 0 := by rcases hempty with h | h <;> simp [h]
    rw [exec, execQsurf8, if_pos hne]
    rfl
  case runs =>
    have hmis : ¬ misaligned4 s.ops.surfBase = true := Bool.eq_false_iff.mp (misaligned4_eq_false.mpr halign)
    obtain ⟨b, hloop, hfree, hbyte, hother⟩ := qsurfLoop_ok s.cfg s.ops s.mem hread hwrite
      (positions s.ops.surfW.toNat s.ops.surfH.toNat) s.bus (positions_nodup _ _) (fun _ _ => mem_positions.mp) hraced hwf
      fun _ _ => rfl
    have hexec : exec .qsurf8 s = .next ((s.putBus b).addUses (qsurfUses s.ops)).complete := by
      rw [exec, execQsurf8, if_neg (Nat.mul_ne_zero hw hh), if_neg hmis, hloop]
    refine ⟨_, hexec, fun px py hx hy => ?_, fun a ha => ?_, (exec_ended hexec).1, (exec_keeps hexec).setup, rfl, rfl, rfl,
      rfl, rfl, rfl, hfree, congrArg (s.uses ++ ·) (qsurfUses_eq s.ops)⟩
    · exact (congrArg BitVec.toNat (hbyte px py (mem_positions.mpr ⟨hx, hy⟩))).trans (toNat_indexByte _)
    · exact (qsurfLoop_only (fun _ _ => mem_positions.mp) hloop).1 a (Bool.eq_false_iff.mp ha)

end Sys2Proof.Machine
end

section
/-! LUTINIT, PAIR and PACK8 (R150–R152): results that depend on ARG0 alone. -/

namespace Sys2Proof.Machine

/-- Settles O25: setting LUTRDY and completing is all of LUTINIT. -/
theorem lutinitResult : Obligations.LutinitResult := ⟨decode_encode .lutinit, fun _ => rfl⟩

/-- What a command whose only results are LUTRDY and RES0 leaves. -/
theorem setLutrdy_setRes0_frame (a : Word) (s : State) :
    (s.setLutrdy.setRes0 a).complete.res1 = s.res1 ∧ (s.setLutrdy.setRes0 a).complete.lutrdy = true ∧
      Idle (s.setLutrdy.setRes0 a).complete ∧ SetupKept s (s.setLutrdy.setRes0 a).complete ∧
      MemoryKept s (s.setLutrdy.setRes0 a).complete ∧ (s.setLutrdy.setRes0 a).complete.events = s.events ∧
      (s.setLutrdy.setRes0 a).complete.dirty = s.dirty ∧ (s.setLutrdy.setRes0 a).complete.errs = s.errs ∧
      (s.setLutrdy.setRes0 a).complete.freeCtr = s.freeCtr :=
  ⟨rfl, rfl, ⟨rfl, rfl⟩, .refl s, fun _ => rfl, rfl, rfl, rfl, rfl⟩

/-! ### Four plane bytes in RES0 -/

/-- Bit i of byte k of RES0 is bit i of plane byte k (R151, R152). -/
theorem planesWord_bit (q : Planes) {k i : Nat} (hk : k < 4) (hi : i < 8) :
    (planesWord q).getLsbD (8 * k + i) = (planeByte q k).getLsbD i := by
  rw [planesWord_getLsbD]
  match k, hk with
  | 0, _ => rw [if_pos (by omega), Nat.mul_zero, Nat.zero_add]; rfl
  | 1, _ => rw [if_neg (by omega), if_pos (by omega), Nat.add_sub_cancel_left]; rfl
  | 2, _ => rw [if_neg (by omega), if_neg (by omega), if_pos (by omega), Nat.add_sub_cancel_left]; rfl
  | 3, _ => rw [if_neg (by omega), if_neg (by omega), if_neg (by omega), Nat.add_sub_cancel_left]; rfl

/-- Byte k of RES0 is plane byte k (R151, R152). -/
theorem planesWord_byte (q : Planes) {k : Nat} (hk : k < 4) : (planesWord q).extractLsb' (8 * k) 8 = planeByte q k :=
  BitVec.eq_of_getLsbD_eq fun i hi => by
    rw [BitVec.getLsbD_extractLsb', decide_eq_true hi, Bool.true_and, planesWord_bit q hk hi]

/-! ### PAIR -/

/-- A table entry as a number: plane k's bit of the left pixel counts two, that of the right one counts one (R33). -/
theorem toNat_pl (b : Byte) (k : Nat) : (pl b k).toNat = 2 * (b.getLsbD (4 + k)).toNat + (b.getLsbD k).toNat := by
  rw [pl]
  cases b.getLsbD (4 + k) <;> cases b.getLsbD k <;> rfl

/-- A bit of the pair byte is that bit of its register (R83). -/
theorem pairByteOf_bit (v : Word) {i : Nat} (hi : i < 8) : ((pairByteOf v).getLsbD i).toNat = v.toNat / 2 ^ i % 2 := by
  rw [pairByteOf, BitVec.getLsbD_extractLsb', decide_eq_true hi, Bool.true_and, Nat.zero_add, BitVec.getLsbD,
    Nat.toNat_testBit]

/-- The four table entries of a pair byte, one a plane (R151). -/
def pairPlanes (b : Byte) : Planes := { q0 := pl b 0, q1 := pl b 1, q2 := pl b 2, q3 := pl b 3 }

theorem planeByte_pairPlanes (b : Byte) {k : Nat} (hk : k < 4) : planeByte (pairPlanes b) k = pl b k := by
  match k, hk with
  | 0, _ | 1, _ | 2, _ | 3, _ => rfl

theorem pairEntries_eq (b : Byte) : pairEntries b = planesWord (pairPlanes b) := rfl

/-- Settles O26: byte k of RES0 is the entry for plane k, and an entry is two bits of ARG0. -/
theorem pairResult : Obligations.PairResult := by
  refine ⟨decode_encode .pair, fun s => ⟨_, rfl, fun k hk => ?_, setLutrdy_setRes0_frame _ s⟩⟩
  rw [← toNat_extract_byte, State.complete_res0, State.setRes0_res0, pairEntries_eq, planesWord_byte _ hk,
    planeByte_pairPlanes _ hk, toNat_pl, pairByteOf_bit _ (by omega), pairByteOf_bit _ (by omega)]

/-! ### PACK8 -/

/-- Settles O27: by the bit law of Pack8 (R142), with pixel i the nibble of ARG0 that starts at bit 28 − 4i. -/
theorem packEightBitLaw : Obligations.PackEightBitLaw := by
  refine ⟨decode_encode .pack8, fun s => ⟨_, rfl, fun i k hi hk => ?_, setLutrdy_setRes0_frame _ s⟩⟩
  rw [State.complete_res0, State.setRes0_res0, planesWord_bit _ hk (by omega), idx8List, pack8_bit _ hk hi, idx8,
    BitVec.getLsbD_extractLsb', decide_eq_true hk, Bool.true_and]

end Sys2Proof.Machine
end

section
/-! The aligned region (R143) and ALIGN (R153). -/

namespace Sys2Proof.Machine

/-! ### Columns of eight pixels (R8) -/

/-- A pixel lies right of floor8 exactly when its column is not left of the column of x. -/
theorem floor8_le_iff {x p : Nat} : floor8 x ≤ p ↔ x / 8 ≤ p / 8 := by
  rw [floor8]
  omega

/-- A pixel lies left of ceil8 of an exclusive edge exactly when its column is not right of the last one the edge touches. -/
theorem lt_ceil8_iff {e p : Nat} (he : 0 < e) : p < ceil8 e ↔ p / 8 ≤ (e - 1) / 8 := by
  rw [ceil8, floor8]
  omega

theorem floor8_mod (v : Nat) : floor8 v % 8 = 0 := by
  rw [floor8]
  omega

/-! ### The aligned region (R143) -/

/-- Everything Align can give: empty when the rectangle is, or when clipping leaves no column or no row; else the clipped columns
and rows. -/
theorem alignRegion_cases (x y w h sw sh : Nat) :
    ((w = 0 ∨ h = 0 ∨ min (ceil8 (x + w)) sw ≤ floor8 x ∨ min (y + h) sh ≤ y) ∧
      alignRegion x y w h sw sh = emptyRegion) ∨
    (0 < w ∧ 0 < h ∧ floor8 x < min (ceil8 (x + w)) sw ∧ y < min (y + h) sh ∧ alignRegion x y w h sw sh =
      { x := floor8 x, y := y, w := min (ceil8 (x + w)) sw - floor8 x, h := min (y + h) sh - y }) := by
  unfold alignRegion
  split
  case isTrue h0 => exact .inl ⟨by omega, rfl⟩
  case isFalse h0 =>
    split
    case isTrue hclip => exact .inl ⟨.inr (.inr hclip), rfl⟩
    case isFalse hclip => exact .inr ⟨by omega, by omega, by omega, by omega, rfl⟩

/-- A region with no column or no row is the empty one. -/
theorem alignRegion_eq_empty {x y w h sw sh : Nat}
    (h0 : (alignRegion x y w h sw sh).w = 0 ∨ (alignRegion x y w h sw sh).h = 0) :
    alignRegion x y w h sw sh = emptyRegion := by
  obtain ⟨-, heq⟩ | ⟨-, -, hcol, hrow, heq⟩ := alignRegion_cases x y w h sw sh
  · exact heq
  · rw [heq] at h0
    simp only at h0
    omega

/-- The pixels of the aligned region: those left of the clipped right edge and above the clipped bottom one. -/
theorem mem_alignRegion {x y w h sw sh px py : Nat} :
    ((alignRegion x y w h sw sh).x ≤ px ∧ px < (alignRegion x y w h sw sh).x + (alignRegion x y w h sw sh).w ∧
      (alignRegion x y w h sw sh).y ≤ py ∧ py < (alignRegion x y w h sw sh).y + (alignRegion x y w h sw sh).h) ↔
    (0 < w ∧ 0 < h ∧ px < sw ∧ py < sh ∧ floor8 x ≤ px ∧ px < ceil8 (x + w) ∧ y ≤ py ∧ py < y + h) := by
  obtain ⟨hempty, heq⟩ | ⟨hw, hh, hcol, hrow, heq⟩ := alignRegion_cases x y w h sw sh
  · simp only [heq, emptyRegion]
    omega
  · simp only [heq]
    omega

/-- The aligned region is made of whole columns of a surface that is, and lies in it. -/
theorem alignRegion_inSurface (x y w h : Nat) {sw : Nat} (sh : Nat) (hsw : sw % 8 = 0) :
    (alignRegion x y w h sw sh).x % 8 = 0 ∧ (alignRegion x y w h sw sh).w % 8 = 0 ∧
      (alignRegion x y w h sw sh).x + (alignRegion x y w h sw sh).w ≤ sw ∧
      (alignRegion x y w h sw sh).y + (alignRegion x y w h sw sh).h ≤ sh := by
  obtain ⟨-, heq⟩ | ⟨-, -, hcol, hrow, heq⟩ := alignRegion_cases x y w h sw sh
  · rw [heq]
    exact ⟨rfl, rfl, Nat.zero_le _, Nat.zero_le _⟩
  · have hleft := floor8_mod x
    have hright : ceil8 (x + w) % 8 = 0 := floor8_mod _
    simp only [heq]
    omega

/-- Settles O28: a pixel is right of the left edge and left of the right one exactly when its column is touched. -/
theorem alignRegionPixels : Obligations.AlignRegionPixels := by
  intro x y w h sw sh hsw
  obtain ⟨hx8, hw8, hright, hbottom⟩ := alignRegion_inSurface x y w h sh hsw
  refine ⟨hx8, hw8, hright, hbottom, fun px py => mem_alignRegion.trans (and_congr_right fun hw => ?_), alignRegion_eq_empty⟩
  rw [floor8_le_iff, lt_ceil8_iff (Nat.add_pos_right x hw)]

/-! ### ALIGN -/

/-- ALIGN on a surface that passes R145 (R153). -/
theorem exec_align_fits {s : State} (h : SurfaceFits s.ops) :
    exec .align s = .next (s.setResRegion (requestedRegion s.ops)).complete := by
  simp only [exec, execAlign, argRegion_eq_some.mpr ⟨h, rfl⟩]

/-- Each part of a region of the surface fits 16 bits. -/
theorem RegionIn.bounds {g : Regs} {r : Region} (h : RegionIn g r) :
    r.x < 65536 ∧ r.y < 65536 ∧ r.w < 65536 ∧ r.h < 65536 := by
  have hw := g.surfW.isLt
  have hh := g.surfH.isLt
  have hx := h.hw
  have hy := h.hh
  omega

/-- Settles O29: the region lies in the surface, so its parts fit the halves of RES0 and RES1. -/
theorem alignResult : Obligations.AlignResult := by
  intro s hw hh hw8
  have hfits : SurfaceFits s.ops := ⟨hw, hh, hw8⟩
  have hin := regionIn_requested hfits
  obtain ⟨h0, h1⟩ := hin.halves_toNat
  obtain ⟨hbx, hby, hbw, hbh⟩ := hin.bounds
  exact ⟨_, requestedRegion s.ops, exec_align_fits hfits, rfl, h0, h1, hbx, hby, hbw, hbh, setRes_complete_frame _ _ s⟩

end Sys2Proof.Machine
end

section
/-! Geometry (R145, R185, R234): the checks of ALIGN, PACKR, PFLUSH and PFULL fail before any effect. -/

namespace Sys2Proof.Machine

theorem argRegion_eq_none {g : Regs} (h : ¬ SurfaceFits g) : argRegion g = none :=
  Option.eq_none_iff_forall_ne_some.mpr fun _ hr => h (argRegion_eq_some.mp hr).1

theorem dirtyRegion_eq_none {g : Regs} (h : ¬ FlushFits g) (d : Dirty) : dirtyRegion g d = none :=
  Option.eq_none_iff_forall_ne_some.mpr fun _ hr => h (dirtyRegion_eq_some.mp hr).1

theorem screenRegion_eq_none {g : Regs} (h : ¬ FlushFits g) : screenRegion g = none :=
  Option.eq_none_iff_forall_ne_some.mpr fun _ hr => h (screenRegion_eq_some.mp hr).1

/-- Settles O39: where the check fails there is no region, and each command raises Geometry at once. -/
theorem geometryRaised : Obligations.GeometryRaised := by
  refine ⟨fun s h => ⟨?align, ?packr⟩, fun s hh h => ⟨fun hd => ?pflush, ?pfull⟩⟩
  case align =>
    have hexec : exec .align s = .next (s.raise .geometry 0#32) := by simp only [exec, execAlign, argRegion_eq_none h]
    exact Raises.of_raise hexec rfl
  case packr =>
    have hexec : exec .packr s = .next (s.setLutrdy.raise .geometry 0#32) := by
      simp only [exec, execPackr, argRegion_eq_none h]
    exact Raises.of_raise hexec rfl
  case pflush =>
    have hexec : exec .pflush s = .next (s.setLutrdy.raise .geometry 0#32) := by
      simp [exec, execPflush, hh, hd, dirtyRegion_eq_none h]
    exact Raises.of_raise hexec rfl
  case pfull =>
    have hexec : exec .pfull s = .next (s.setLutrdy.raise .geometry 0#32) := by
      simp [exec, execPfull, hh, screenRegion_eq_none h]
    exact Raises.of_raise hexec rfl

end Sys2Proof.Machine
end

section
/-! PackRegion with no raced byte and no overlap (R144), and PACKR (R154): every packed byte is definite. -/

namespace Sys2Proof.Machine

/-- PackRegion on a clean bus packs every byte of the region, in memory and in the command's own copies, and uses no free value. -/
theorem packRegion_clean {s : State} {r : Region} (hin : RegionIn s.ops r) (hwf : Memory.wf s.mem = true) (h : PackRuns s r) :
    ∃ pb b, packRegion s.cfg s.ops r s.bus = .ok (pb, b) ∧ b.free = s.freeCtr ∧
      pb = (positions (rowBytes r) r.h).map (fun p => pack8 (colIdx s.cfg s.ops r s.mem p.1 p.2)) ∧
      ∀ k c y, k < 4 → c < rowBytes r → y < r.h →
        byteAt b.mem (packAddr s.ops r k c y) = planeByte (pack8 (colIdx s.cfg s.ops r s.mem c y)) k := by
  obtain ⟨-, hread, hwrite, hraced⟩ := h
  obtain ⟨pb, b, hpack, hfree, hpb, hbyte, -⟩ := packLoop_ok s.cfg s.ops r s.mem hin hread hwrite (positions (rowBytes r) r.h)
    s.bus (positions_nodup _ _) (fun _ _ => mem_positions.mp) hraced hwf fun _ _ => rfl
  exact ⟨pb, b, hpack, hfree, hpb, fun k c y hk hc hy => hbyte k c y hk (mem_positions.mpr ⟨hc, hy⟩)⟩

/-- A command that packs a region PackRuns admits: its last part runs with the packed bytes in memory, no other byte changed. -/
theorem packThen_clean {s : State} {r : Region} (hw : r.w ≠ 0) (hin : RegionIn s.ops r) (hwf : Memory.wf s.mem = true)
    (h : PackRuns s r) (fin : List Planes → State → State) :
    ∃ pb b, s.packThen r fin = fin pb ((s.putBus b).addUses (packUses s.ops r)) ∧ b.free = s.freeCtr ∧
      pb = (positions (rowBytes r) r.h).map (fun p => pack8 (colIdx s.cfg s.ops r s.mem p.1 p.2)) ∧
      ∀ t : State, t.mem = b.mem → PackedFrom s t r ∧ OutsideOutputKept s t r := by
  obtain ⟨pb, b, hpack, hfree, hpb, hbyte⟩ := packRegion_clean hin hwf h
  obtain ⟨halign, -⟩ := h
  have hmis : ¬ misaligned4 s.ops.surfBase = true := Bool.eq_false_iff.mp (misaligned4_eq_false.mpr halign)
  refine ⟨pb, b, by rw [State.packThen, if_neg hw, if_neg hmis, hpack], hfree, hpb, fun t ht => ⟨fun k c y hk hc hy => ?_,
    fun a ha => ?_⟩⟩
  · rw [ht, hbyte k c y hk hc hy]
    exact packedByte_colIdx s r hk c y
  · exact ht ▸ (packRegion_only hpack).1 a (Bool.eq_false_iff.mp ha)

/-- What PackRegion's bytes are recorded to depend on, spelled out (R266; log entry 11). -/
theorem packUses_eq (g : Regs) (r : Region) :
    packUses g r = planeDependences g r fun k c y => .byte (packAddr g r k c y) :=
  columnUses_eq g r _

theorem toNat_packAddr (g : Regs) (r : Region) (k c y : Nat) :
    (packAddr g r k c y).toNat = (g.outBase.toNat + k * (r.w / 8 * r.h) + y * (r.w / 8) + c) % 2 ^ 32 := by
  rw [packAddr, BitVec.toNat_add, BitVec.toNat_ofNat, Nat.add_mod_mod, planeSize, rowBytes]
  simp only [Nat.add_assoc]

/-- PACKR's result for a region that aligns to empty (R154). -/
theorem exec_packr_empty {s : State} (hfits : SurfaceFits s.ops) (hw : (requestedRegion s.ops).w = 0) :
    exec .packr s = .next { s with res0 := 0#32, res1 := 0#32, lutrdy := true, latch := none, raced := [] } := by
  have hempty : requestedRegion s.ops = emptyRegion := alignRegion_eq_empty (.inl hw)
  rw [exec_packr_fits hfits, State.packThen, if_pos hw, hempty]
  rfl

/-- Settles O30: an empty region packs nothing; any other is packed whole on a clean bus and lies in the surface. -/
theorem packrResult : Obligations.PackrResult := by
  refine ⟨fun g r k c y => ⟨toNat_packAddr g r k c y, rfl, rfl, rfl⟩, fun s r hfits hr => ⟨fun hw => ?empty,
    fun hw hwf hruns => ?packs⟩⟩
  case empty => exact exec_packr_empty hfits (hr ▸ hw)
  case packs =>
    have hin : RegionIn s.ops r := hr ▸ regionIn_requested hfits
    obtain ⟨h0, h1⟩ := hin.halves_toNat
    obtain ⟨pb, b, hrun, hfree, -, hmem⟩ :=
      packThen_clean (s := s.setLutrdy) hw hin hwf hruns fun _ u => (u.setResRegion r).complete
    have hexec := exec_packr_fits hfits
    rw [← hr, hrun] at hexec
    obtain ⟨hpacked, houtside⟩ := hmem (((s.setLutrdy.putBus b).addUses (packUses s.ops r)).setResRegion r).complete rfl
    exact ⟨_, hexec, hpacked, houtside, h0, h1, rfl, (exec_ended hexec).1, (exec_keeps hexec).setup, rfl, rfl, rfl, hfree,
      congrArg (s.uses ++ ·) (packUses_eq s.ops r)⟩

end Sys2Proof.Machine
end

section
/-! The gates of PFLUSH and PFULL (R184, R190). -/

namespace Sys2Proof.Machine

/-- PFLUSH with the Hardware Surface off or nothing pending. -/
theorem exec_pflush_gated {s : State} (h : s.ops.hsen = false ∨ s.dirty.dv = false) :
    exec .pflush s = .next s.setLutrdy.complete := by
  have hgate : (!s.ops.hsen || !s.dirty.dv) = true := by simpa using h
  rw [exec, execPflush, if_pos hgate]

/-- PFULL with the Hardware Surface off. -/
theorem exec_pfull_gated {s : State} (h : s.ops.hsen = false) : exec .pfull s = .next s.setLutrdy.complete := by
  simp [exec, execPfull, h]

/-- Settles O31: a closed gate leaves LUTRDY and the completion. -/
theorem flushGates : Obligations.FlushGates :=
  fun _ => ⟨fun hh => ⟨exec_pflush_gated (.inl hh), exec_pfull_gated hh⟩, fun hd => exec_pflush_gated (.inr hd)⟩

end Sys2Proof.Machine
end

section
/-! The number of a region's events, and the offsets and lengths of its copies (R181, R188). -/

namespace Sys2Proof.Machine

/-- The copies among a region's events are those of its rows, plane by plane. -/
theorem copy_mem_regionEvents {k : Config} {g : Regs} {r : Region} {pb : List Planes} {o : Word} {bs : List Byte} :
    HsEvent.copyIntoDevice o bs ∈ regionEvents k g r pb ↔
      ∃ p y, p < 4 ∧ y < r.h ∧ o = deviceOffset g r y ∧ bs = planeRow r pb p y := by
  simp [regionEvents_eq, planeEvents, restoreEvents, eq_comm]

/-- Each of the four planes is selected once and its rows are copied (R188). -/
theorem allPlaneEvents_length (g : Regs) (r : Region) (pb : List Planes) :
    ((List.range 4).flatMap (planeEvents g r pb)).length = 4 + 4 * r.h := by
  simp [List.length_flatMap]
  omega

/-- A device byte of a row of the screen lies below 2^29 (R181). -/
theorem deviceByte_lt {g : Regs} {r : Region} {y : Nat} (hx : r.x + r.w ≤ g.scrW.toNat) (hy : r.y + r.h ≤ g.scrH.toNat)
    (hw : 0 < r.w) (hyh : y < r.h) (hw8 : g.scrW.toNat % 8 = 0) : (r.y + y) * stride g + r.x / 8 < 2 ^ 29 := by
  have hcol : r.x / 8 < stride g := by
    rw [stride]
    omega
  have hin : (r.y + y) * stride g + r.x / 8 < stride g * g.scrH.toNat := index_lt hcol (by omega)
  have hscreen : stride g * g.scrH.toNat ≤ 8191 * 65535 :=
    Nat.mul_le_mul (by have := g.scrW.isLt; rw [stride]; omega) (by have := g.scrH.isLt; omega)
  omega

/-- Settles O34: four planes of one SelectPlane and r.h copies each, and every copy is of a row of the region. -/
theorem regionEventCount : Obligations.RegionEventCount := by
  intro k g r pb
  refine ⟨?count, ?restore, fun hx hy hw hw8 hpb o bs hmem => ?copy⟩
  case count => rw [regionEvents_eq, List.length_append, allPlaneEvents_length, restoreEvents, List.length_map]
  case restore =>
    rw [regionEvents_eq, List.drop_left' (allPlaneEvents_length g r pb)]
    rfl
  case copy =>
    obtain ⟨p, y, -, hyh, rfl, rfl⟩ := copy_mem_regionEvents.mp hmem
    have hlt := deviceByte_lt hx hy hw hyh hw8
    have hoff : (deviceOffset g r y).toNat = (r.y + y) * stride g + r.x / 8 := by
      rw [deviceOffset, BitVec.toNat_ofNat, Nat.mod_eq_of_lt (by omega)]
    exact ⟨hoff ▸ hlt, planeRow_length hpb p hyh, y, hyh, hoff⟩

end Sys2Proof.Machine
end

section
/-! PFLUSH and PFULL with no raced byte and no overlap (R190, R191): the events carry the packed bytes. -/

namespace Sys2Proof.Machine

/-- The bit law of R142 determines a packed byte. -/
theorem PackedByte.unique {s : State} {r : Region} {k c y : Nat} {v w : Byte} (hv : PackedByte s r k c y v)
    (hw : PackedByte s r k c y w) : v = w := by
  refine BitVec.eq_of_getLsbD_eq fun i hi => ?_
  have hbit : 7 - (7 - i) = i := by omega
  have hlt : 7 - i < 8 := by omega
  exact hbit ▸ (hv (7 - i) hlt).trans (hw (7 - i) hlt).symm

/-- The command's own copies of region r packed on a clean bus: one entry a byte column, in loop order (R144). -/
def packedCopies (s : State) (r : Region) : List Planes :=
  (positions (rowBytes r) r.h).map fun p => pack8 (colIdx s.cfg s.ops r s.mem p.1 p.2)

theorem packedCopies_length (s : State) (r : Region) : (packedCopies s r).length = planeSize r := by
  simp [packedCopies, positions, planeSize, Nat.mul_comm]

/-- Entry y * bw + c is the copy of column c of row y (R144). -/
theorem packedCopies_getElem? (s : State) {r : Region} {c y : Nat} (hc : c < rowBytes r) (hy : y < r.h) :
    (packedCopies s r)[y * rowBytes r + c]? = some (pack8 (colIdx s.cfg s.ops r s.mem c y)) := by
  obtain ⟨hcol, hrow⟩ := pos_number (y := y) hc
  simp [packedCopies, positions_eq (Nat.zero_lt_of_lt hc), index_lt hc hy, hcol, hrow]

/-- The command's own copy of a row is that row of the output, where both are packed. -/
theorem planeRow_packed {s t : State} {r : Region} (hp : PackedFrom s t r) {k y : Nat} (hk : k < 4) (hy : y < r.h) :
    planeRow r (packedCopies s r) k y = (List.range (rowBytes r)).map fun c => byteAt t.mem (packAddr s.ops r k c y) := by
  have hlen := planeRow_length (packedCopies_length s r) k hy
  refine List.ext_getElem? fun c => ?_
  by_cases hc : c < rowBytes r
  · rw [planeRow_getElem? r _ k y hc, packedCopies_getElem? s hc hy]
    simpa [hc] using (packedByte_colIdx s r hk c y).unique (hp k c y hk hc hy)
  · rw [List.getElem?_eq_none (by omega), List.getElem?_eq_none (by simp; omega)]

/-- The events of packed copies are those R188 lists with the bytes of a packed output. -/
theorem regionEvents_packed {s t : State} {r : Region} (hp : PackedFrom s t r) :
    regionEvents s.cfg s.ops r (packedCopies s r) = FlushEvents s t r := by
  rw [regionEvents_eq, FlushEvents]
  refine congrArg (· ++ restoreEvents s.cfg) (List.flatMap_congr fun k hk => ?_)
  refine congrArg _ (List.map_congr_left fun y hy => ?_)
  rw [planeRow_packed hp (List.mem_range.mp hk) (List.mem_range.mp hy)]
  rfl

theorem emitRegion_uses {r : Region} (hw : r.w ≠ 0) (pb : List Planes) (s : State) :
    (s.emitRegion r pb).uses = s.uses ++ eventUses s.ops r s.events.length := by
  rw [State.emitRegion, if_neg hw]
  rfl

/-- Region r of state s is packed and its events are delivered in u, which else is as s (R144, R188). -/
structure Flushed (s u : State) (r : Region) : Prop where
  packed : PackedFrom s u r
  outside : OutsideOutputKept s u r
  events : u.events = s.events ++ FlushEvents s u r
  dirty : u.dirty = s.dirty
  lutrdy : u.lutrdy = s.lutrdy
  errs : u.errs = s.errs
  freeCtr : u.freeCtr = s.freeCtr
  uses : u.uses = s.uses ++ (planeDependences s.ops r fun k c y => .byte (packAddr s.ops r k c y)) ++
    planeDependences s.ops r fun k c y => .eventByte (s.events.length + k * (1 + r.h) + 1 + y) c

/-- What PFLUSH and PFULL share: a region PackRuns admits is packed and its events emitted before their last part fin. -/
theorem packThen_emitRegion {s : State} {r : Region} (hw : r.w ≠ 0) (hin : RegionIn s.ops r) (hwf : Memory.wf s.mem = true)
    (h : PackRuns s r) (fin : State → State) :
    ∃ u, s.packThen r (fun pb t => fin (t.emitRegion r pb)) = fin u ∧ Flushed s u r := by
  obtain ⟨pb, b, hrun, hfree, rfl, hmem⟩ := packThen_clean hw hin hwf h fun pb t => fin (t.emitRegion r pb)
  obtain ⟨hpacked, houtside⟩ := hmem _ (emitRegion_mem r _ ((s.putBus b).addUses (packUses s.ops r)))
  refine ⟨_, hrun, hpacked, houtside, ?_, emitRegion_dirty r _ _, emitRegion_lutrdy r _ _, emitRegion_errs r _ _,
    (emitRegion_freeCtr r _ _).trans hfree, ?_⟩
  · rw [emitRegion_events hw, ← regionEvents_packed hpacked]
    rfl
  · rw [emitRegion_uses hw, ← packUses_eq, ← columnUses_eq]
    rfl

/-- PFLUSH's result for a dirty rectangle that aligns to empty (R190). -/
theorem exec_pflush_empty {s : State} (hh : s.ops.hsen = true) (hd : s.dirty.dv = true) (hfits : FlushFits s.ops)
    (hw : (pendingRegion s.ops s.dirty).w = 0) :
    exec .pflush s = .next { s with
      res0 := 0#32, res1 := 0#32, lutrdy := true, dirty := Dirty.clean, latch := none, raced := [] } := by
  have hempty : pendingRegion s.ops s.dirty = emptyRegion := alignRegion_eq_empty (.inl hw)
  rw [exec_pflush_fits hh hd hfits, State.packThen, if_pos hw, hempty]
  rfl

/-- Settles O32: an empty region is only cleared; any other is packed whole on a clean bus, and the events carry its bytes. -/
theorem pflushResult : Obligations.PflushResult := by
  intro s r hh hd hfits hr
  refine ⟨fun hw => exec_pflush_empty hh hd hfits (hr ▸ hw), fun hw hwf hruns => ?_⟩
  have hin : RegionIn s.ops r := hr ▸ regionIn_pending hfits s.dirty
  obtain ⟨h0, h1⟩ := hin.halves_toNat
  obtain ⟨u, hrun, hu⟩ :=
    packThen_emitRegion (s := s.setLutrdy) hw hin hwf hruns fun u => ((u.clearDirty).setResRegion r).complete
  have hexec := exec_pflush_fits hh hd hfits
  rw [← hr, hrun] at hexec
  exact ⟨_, hexec, hu.packed, hu.outside, hu.events, rfl, h0, h1, hu.lutrdy, (exec_ended hexec).1, (exec_keeps hexec).setup,
    hu.errs, hu.freeCtr, hu.uses⟩

theorem halves_zero : halves 0 0 = 0#32 := by decide

/-- Settles O33: the whole screen is never empty, is packed whole on a clean bus, and the events carry its bytes. -/
theorem pfullResult : Obligations.PfullResult := by
  intro s r hwf hh hfits hr hruns
  have hin : RegionIn s.ops r := hr ▸ regionIn_wholeScreen hfits
  have hw : r.w ≠ 0 := hr ▸ hfits.wholeScreen_w
  obtain ⟨u, hrun, hu⟩ :=
    packThen_emitRegion (s := s.setLutrdy) hw hin hwf hruns fun u => (u.setResRegion r).complete
  have hexec := exec_pfull_fits hh hfits
  rw [← hr, hrun] at hexec
  obtain ⟨-, h1⟩ := hin.halves_toNat
  subst hr
  exact ⟨_, hexec, hu.packed, hu.outside, hu.events, hu.dirty, halves_zero, h1, hu.lutrdy, (exec_ended hexec).1,
    (exec_keeps hexec).setup, hu.errs, hu.freeCtr, hu.uses⟩

end Sys2Proof.Machine
end

section
/-! MARK and CLEAR (R210, R211): the edges of a marked rectangle (R200). -/

namespace Sys2Proof.Machine

theorem Dirty.mark_dv (d : Dirty) (x y w h : Nat) : (d.mark x y w h).dv = true := by
  unfold Dirty.mark
  split <;> rfl

/-- The edges of a rectangle marked on a clean tracker: 17 bits hold both sums (R37, R200). -/
theorem Dirty.mark_edges_clean {d : Dirty} {x y w h : Nat} (hd : d.dv = false) (hx : x < 65536) (hy : y < 65536)
    (hw : w < 65536) (hh : h < 65536) :
    (d.mark x y w h).dl.toNat = x ∧ (d.mark x y w h).dt.toNat = y ∧ (d.mark x y w h).dr.toNat = x + w ∧
      (d.mark x y w h).db.toNat = y + h := by
  simp only [Dirty.mark, edgeSum, hd, Bool.false_eq_true, if_false, BitVec.toNat_ofNat]
  omega

/-- The edges of a rectangle marked on a pending tracker, whatever edges that has (R200). -/
theorem Dirty.mark_edges_pending {d : Dirty} {x y w h : Nat} (hd : d.dv = true) (hx : x < 65536) (hy : y < 65536)
    (hw : w < 65536) (hh : h < 65536) :
    (d.mark x y w h).dl.toNat = min d.dl.toNat x ∧ (d.mark x y w h).dt.toNat = min d.dt.toNat y ∧
      (d.mark x y w h).dr.toNat = max d.dr.toNat (x + w) ∧ (d.mark x y w h).db.toNat = max d.db.toNat (y + h) := by
  have hr := d.dr.isLt
  have hb := d.db.isLt
  simp only [Dirty.mark, hd, if_true, BitVec.toNat_ofNat]
  omega

/-- Settles O37: clearing the dirty state and completing is all of CLEAR. -/
theorem clearResult : Obligations.ClearResult := ⟨decode_encode .clear, fun _ => rfl⟩

/-- Settles O35: MARK marks the rectangle of the operands' halves, each of which fits 16 bits. -/
theorem markResult : Obligations.MarkResult := by
  refine ⟨decode_encode .mark, fun s => ?_⟩
  have hexec : exec .mark s = .next (s.markRect (loHalf s.ops.arg0) (hiHalf s.ops.arg0) (loHalf s.ops.arg1)
      (hiHalf s.ops.arg1)).complete := rfl
  have hx := loHalf_lt s.ops.arg0
  have hy := hiHalf_lt s.ops.arg0
  have hw := loHalf_lt s.ops.arg1
  have hh := hiHalf_lt s.ops.arg1
  simp only [← loHalf_eq, ← hiHalf_eq]
  exact ⟨_, hexec, s.dirty.mark_dv _ _ _ _, fun hd => Dirty.mark_edges_clean hd hx hy hw hh,
    fun hd => Dirty.mark_edges_pending hd hx hy hw hh, rfl, rfl, (exec_ended hexec).1, (exec_keeps hexec).setup,
    fun _ => rfl, rfl, rfl, rfl, rfl⟩

end Sys2Proof.Machine
end

section
/-! Any marks since clean (R201): the edges are the least and the greatest of those marked, so the marks' order cannot matter. -/

namespace Sys2Proof.Machine

/-- A rectangle (x, y, w, h) as MARK takes it (R210). -/
abbrev Rect := Nat × Nat × Nat × Nat

/-- Each part of the rectangle fits 16 bits. -/
def Rect.Fits (p : Rect) : Prop := p.1 < 65536 ∧ p.2.1 < 65536 ∧ p.2.2.1 < 65536 ∧ p.2.2.2 < 65536

/-- The dirty state after the rectangles of a list are marked in order. -/
def Dirty.markAll (d : Dirty) (l : List Rect) : Dirty := l.foldl (fun d p => d.mark p.1 p.2.1 p.2.2.1 p.2.2.2) d

/-- The tracker is pending and its edges are the least left and top and the greatest right and bottom ones of a set of
rectangles (R201). -/
structure Dirty.BoundingBox (d : Dirty) (R : Set Rect) : Prop where
  pending : d.dv = true
  left : IsLeast ((fun p => p.1) '' R) d.dl.toNat
  top : IsLeast ((fun p => p.2.1) '' R) d.dt.toNat
  right : IsGreatest ((fun p => p.1 + p.2.2.1) '' R) d.dr.toNat
  bottom : IsGreatest ((fun p => p.2.1 + p.2.2.2) '' R) d.db.toNat

namespace Dirty.BoundingBox

/-- A set of rectangles has one bounding box. -/
theorem unique {d d' : Dirty} {R : Set Rect} (h : d.BoundingBox R) (h' : d'.BoundingBox R) : d = d' := by
  have hdv := h.pending.trans h'.pending.symm
  have hdl := BitVec.eq_of_toNat_eq (h.left.unique h'.left)
  have hdt := BitVec.eq_of_toNat_eq (h.top.unique h'.top)
  have hdr := BitVec.eq_of_toNat_eq (h.right.unique h'.right)
  have hdb := BitVec.eq_of_toNat_eq (h.bottom.unique h'.bottom)
  cases d
  cases d'
  simp only at hdv hdl hdt hdr hdb
  rw [hdv, hdl, hdt, hdr, hdb]

/-- The first mark since clean. -/
theorem mark_clean {p : Rect} (hp : p.Fits) : (Dirty.clean.mark p.1 p.2.1 p.2.2.1 p.2.2.2).BoundingBox {p} := by
  obtain ⟨hx, hy, hw, hh⟩ := hp
  obtain ⟨hl, ht, hr, hb⟩ := Dirty.mark_edges_clean (d := Dirty.clean) rfl hx hy hw hh
  refine ⟨Dirty.mark_dv .., ?_, ?_, ?_, ?_⟩ <;> rw [Set.image_singleton]
  · rw [hl]
    exact isLeast_singleton
  · rw [ht]
    exact isLeast_singleton
  · rw [hr]
    exact isGreatest_singleton
  · rw [hb]
    exact isGreatest_singleton

/-- A further mark adds its rectangle to those bounded (R200). -/
theorem mark {d : Dirty} {R : Set Rect} (h : d.BoundingBox R) {p : Rect} (hp : p.Fits) :
    (d.mark p.1 p.2.1 p.2.2.1 p.2.2.2).BoundingBox (insert p R) := by
  obtain ⟨hx, hy, hw, hh⟩ := hp
  obtain ⟨hl, ht, hr, hb⟩ := Dirty.mark_edges_pending h.pending hx hy hw hh
  refine ⟨Dirty.mark_dv .., ?_, ?_, ?_, ?_⟩ <;> rw [Set.image_insert_eq]
  · rw [hl, min_comm]
    exact h.left.insert _
  · rw [ht, min_comm]
    exact h.top.insert _
  · rw [hr, max_comm]
    exact h.right.insert _
  · rw [hb, max_comm]
    exact h.bottom.insert _

/-- Marks on a pending tracker. -/
theorem markAll {d : Dirty} {R : Set Rect} (h : d.BoundingBox R) {l : List Rect} (hl : ∀ p ∈ l, p.Fits) :
    (d.markAll l).BoundingBox (R ∪ {p | p ∈ l}) := by
  induction l generalizing d R with
  | nil => simpa [Dirty.markAll] using h
  | cons p l ih =>
    obtain ⟨hp, hl⟩ := List.forall_mem_cons.mp hl
    rw [List.setOfPred_mem_cons, Set.union_insert, ← Set.insert_union]
    exact ih (h.mark hp) hl

/-- Any marks since clean (R201). -/
theorem markAll_clean {l : List Rect} (hne : l ≠ []) (hl : ∀ p ∈ l, p.Fits) :
    (Dirty.clean.markAll l).BoundingBox {p | p ∈ l} := by
  cases l with
  | nil => exact absurd rfl hne
  | cons p l =>
    obtain ⟨hp, hl⟩ := List.forall_mem_cons.mp hl
    rw [List.setOfPred_mem_cons, Set.insert_eq]
    exact (mark_clean hp).markAll hl

/-- Marks in another order give the same box, since they bound the same set. -/
theorem markAll_perm {l l' : List Rect} (hperm : l'.Perm l) (hne : l ≠ []) (hl : ∀ p ∈ l, p.Fits) :
    Dirty.clean.markAll l' = Dirty.clean.markAll l := by
  have hmem : {p | p ∈ l'} = {p | p ∈ l} := Set.ext fun _ => hperm.mem_iff
  have hne' : l' ≠ [] := fun h => hne (List.nil_perm.mp (h ▸ hperm))
  exact unique (hmem ▸ markAll_clean hne' fun p hp => hl p (hperm.mem_iff.mp hp)) (markAll_clean hne hl)

end Dirty.BoundingBox

/-- Settles O36: the marks give the bounding box of their set, and the set does not know their order. -/
theorem markSequenceBoundingBox : Obligations.MarkSequenceBoundingBox := by
  intro q l hfits d hd
  have hall : d = Dirty.clean.markAll (q :: l) := hd
  have hne : q :: l ≠ [] := List.cons_ne_nil q l
  have hbox : d.BoundingBox {p | p ∈ q :: l} := hall ▸ .markAll_clean hne hfits
  have hedge {f : Rect → Nat} {n : Nat} (h : n ∈ f '' {p | p ∈ q :: l}) : ∃ p ∈ q :: l, n = f p := by
    obtain ⟨p, hp, hn⟩ := h
    exact ⟨p, hp, hn.symm⟩
  exact ⟨hbox.pending,
    fun p hp => ⟨hbox.left.2 ⟨p, hp, rfl⟩, hbox.top.2 ⟨p, hp, rfl⟩, hbox.right.2 ⟨p, hp, rfl⟩, hbox.bottom.2 ⟨p, hp, rfl⟩⟩,
    hedge hbox.left.1, hedge hbox.top.1, hedge hbox.right.1, hedge hbox.bottom.1,
    fun l' hperm => (Dirty.BoundingBox.markAll_perm hperm hne hfits).trans hall.symm⟩

end Sys2Proof.Machine
end

section
/-! The control command NOP (R220). -/

namespace Sys2Proof.Machine

/-- Settles O38: the completion is all of NOP, and 0x00000100 has NOP's OP but RSV ≠ 0. -/
theorem nopResult : Obligations.NopResult :=
  ⟨decode_encode .nop, decode_reserved (legalOp_iff.mpr ⟨.nop, by decide⟩) (by decide), fun _ => rfl⟩

end Sys2Proof.Machine
end

section
/-! BusError (R236, R238): each command that reads memory raises it at its first failing access, and no other does. -/

namespace Sys2Proof.Machine

/-! ### What a BusError leaves -/

/-- From s to t a BusError with address a was recorded as R237 says, and beside LUTRDY only bytes of the ranges out changed (R236). -/
def BusErrorLeaves (out : List Range) (a : Word) (s t : State) : Prop :=
  Recorded .busError a s t ∧ ErrorKept s t ∧ ∀ x : Word, coveredBy out x = false → byteAt t.mem x = byteAt s.mem x

/-- A command without output that raises BusError (REMAP). -/
theorem raise_leaves (a : Word) (s : State) : BusErrorLeaves [] a s (s.raise .busError a) := by
  obtain ⟨hrec, -, -, herr, hmem, -⟩ := raise_effects .busError a s
  exact ⟨hrec, herr, fun x _ => hmem x⟩

/-- A command with an output range that raises BusError, LUTRDY being l by then. -/
theorem raiseBusError_leaves (out : Range) (a : Word) (l : Bool) (s : State) :
    BusErrorLeaves [out] a s (({ s with lutrdy := l } : State).raiseBusError out a) := by
  obtain ⟨hrec, -, -, herr, -⟩ := raise_effects .busError a (({ s with lutrdy := l } : State).havocRange out)
  exact ⟨hrec, herr, fun x hx => raiseBusError_other (Bool.eq_false_iff.mp (coveredBy_singleton out x ▸ hx))⟩

/-! ### Where the accesses end -/

namespace EndsAtFirstFailing

variable {i : Instr} {s t : State} {out : List Range} {as : List Access}

/-- A command that ends with a BusError at the first failing access. -/
theorem of_fails {p : Access} (h : exec i s = .next t) (hf : firstFailing s.cfg as = some p)
    (hp : BusErrorLeaves out p.1 s t) : EndsAtFirstFailing i s out as :=
  ⟨t, h, (exec_ended h).1, (exec_keeps h).setup, fun _ hq => Option.some.inj (hf.symm.trans hq) ▸ hp,
    fun hn => nomatch hf.symm.trans hn⟩

/-- A command that ends without an error, none of its accesses failing. -/
theorem of_runs (h : exec i s = .next t) (hf : firstFailing s.cfg as = none) (he : t.errs = s.errs) :
    EndsAtFirstFailing i s out as :=
  ⟨t, h, (exec_ended h).1, (exec_keeps h).setup, fun _ hq => (nomatch hf.symm.trans hq), fun _ => he⟩

end EndsAtFirstFailing

/-- An access that is the first to fail fails. -/
theorem memErrAt_of_firstFailing {k : Config} {as : List Access} {p : Access} (h : firstFailing k as = some p) :
    memErrAt k p.1 p.2 = true :=
  List.find?_some (p := fun q : Access => memErrAt k q.1 q.2) h

/-- A loop that makes the accesses in order reports only an access that fails (R238). -/
theorem StopsAtFirst.memErrAt_of_error {α : Type} {k : Config} {as : List Access} {o : Except Word α} {a : Word}
    (h : StopsAtFirst k as o) (ho : o = .error a) : ∃ p : Access, p.1 = a ∧ memErrAt k p.1 p.2 = true := by
  obtain ⟨hfails, hruns⟩ := h
  cases hf : firstFailing k as with
  | some p => exact ⟨p, Except.error.inj ((hfails p hf).symm.trans ho), memErrAt_of_firstFailing hf⟩
  | none =>
    obtain ⟨r, hr⟩ := hruns hf
    exact nomatch hr.symm.trans ho

/-- REMAP reads its entries up to the first that cannot be read, and none where its count is 0 (R113). -/
theorem remap_endsAtFirstFailing {s : State} (hm : s.ops.arg1.toNat = 0 ∨ s.ops.arg0.toNat % 4 = 0) :
    EndsAtFirstFailing .remap s [] (remapAccesses s.ops) := by
  cases hf : firstFailing s.cfg (remapAccesses s.ops) with
  | none =>
    obtain ⟨l, f, -, hexec⟩ := exec_remap_runs hm hf
    exact .of_runs hexec hf rfl
  | some p =>
    have halign : s.ops.arg0.toNat % 4 = 0 := hm.resolve_left fun h0 => by simp [remapAccesses, firstFailing, h0] at hf
    exact .of_fails (exec_remap_fails halign hf) hf (raise_leaves p.1 s)

/-- QSURF8 where an access fails (R114, R236). -/
theorem exec_qsurf8_fails {s : State} {p : Access} (hm : s.ops.surfBase.toNat % 4 = 0)
    (hne : s.ops.surfW.toNat * s.ops.surfH.toNat ≠ 0) (hf : firstFailing s.cfg (qsurfAccesses s.ops) = some p) :
    exec .qsurf8 s = .next (s.raiseBusError (qsurfOut s.ops) p.1) := by
  have hmis : ¬ misaligned4 s.ops.surfBase = true := Bool.eq_false_iff.mp (misaligned4_eq_false.mpr hm)
  have hstop := (qsurfLoop_stops s.cfg s.ops _ s.bus).1 p (qsurfAccesses_eq s.ops ▸ hf)
  rw [exec, execQsurf8, if_neg hne, if_neg hmis, hstop]

/-- An empty surface has no pixel to access (R114). -/
theorem qsurfAccesses_of_empty {g : Regs} (h : g.surfW.toNat * g.surfH.toNat = 0) : qsurfAccesses g = [] := by
  rcases Nat.mul_eq_zero.mp h with h | h <;> simp [qsurfAccesses, h]

/-- QSURF8 accesses its pixels up to the first failing access, and none of an empty surface (R114). -/
theorem qsurf8_endsAtFirstFailing {s : State} (hm : s.ops.surfBase.toNat % 4 = 0) :
    EndsAtFirstFailing .qsurf8 s [qsurfOut s.ops] (qsurfAccesses s.ops) := by
  by_cases hempty : s.ops.surfW.toNat * s.ops.surfH.toNat = 0
  · have hexec : exec .qsurf8 s = .next s.complete := by rw [exec, execQsurf8, if_pos hempty]
    exact .of_runs hexec (by rw [qsurfAccesses_of_empty hempty]; rfl) rfl
  · cases hf : firstFailing s.cfg (qsurfAccesses s.ops) with
    | none =>
      obtain ⟨b, -, hexec⟩ := exec_qsurf8_runs hm hempty hf
      exact .of_runs hexec hf rfl
    | some p => exact .of_fails (exec_qsurf8_fails hm hempty hf) hf (raiseBusError_leaves _ p.1 s.lutrdy s)

/-- A region without columns has no byte column to access (R144). -/
theorem packAccesses_of_empty (g : Regs) {r : Region} (h : r.w = 0) : packAccesses g r = [] := by
  simp [packAccesses, h]

/-- A command that packs accesses its byte columns up to the first failing access, and its last part raises nothing. -/
theorem packThen_endsAtFirstFailing {i : Instr} {s : State} {r : Region} {fin : List Planes → State → State}
    (hexec : exec i s = .next (s.setLutrdy.packThen r fin)) (hfin : ∀ pb u, (fin pb u).errs = u.errs)
    (hm : s.ops.surfBase.toNat % 4 = 0) : EndsAtFirstFailing i s [packOut s.ops r] (packAccesses s.ops r) := by
  obtain ⟨hw, h⟩ | ⟨-, hmis, -⟩ | ⟨-, -, p, hf, h⟩ | ⟨-, -, hf, pb, b, -, h⟩ := packThen_cases s.setLutrdy r fin
  · rw [h] at hexec
    exact .of_runs hexec (by rw [packAccesses_of_empty s.ops hw]; rfl) (hfin [] _)
  · exact absurd hm (misaligned4_eq_true.mp hmis)
  · rw [h] at hexec
    exact .of_fails hexec hf (raiseBusError_leaves _ p.1 true s)
  · rw [h] at hexec
    exact .of_runs hexec hf (hfin pb _)

/-! ### Which commands record BusError -/

/-- From s to t a BusError at an access that fails was recorded, with the effects R236 leaves an error. -/
def FailedOnBus (s t : State) : Prop :=
  ∃ p : Access, memErrAt s.cfg p.1 p.2 = true ∧ Recorded .busError p.1 s t ∧ ErrorKept s t

theorem BusErrorLeaves.failedOnBus {out : List Range} {p : Access} {s t : State} (h : BusErrorLeaves out p.1 s t)
    (hp : memErrAt s.cfg p.1 p.2 = true) : FailedOnBus s t := by
  obtain ⟨hrec, herr, -⟩ := h
  exact ⟨p, hp, hrec, herr⟩

/-- From an empty record no other error records BusError's code (R230). -/
theorem raise_code_ne {e : ErrorKind} {s : State} (a : Word) (hs : s.errs.err = false) (he : e ≠ .busError) :
    (s.raise e a).errs.code ≠ 6#4 := by
  rw [State.raise_errs, hs, if_neg Bool.false_ne_true]
  show e.code ≠ 6#4
  cases e with
  | busError => contradiction
  | illegalOpcode | reservedBits | busyCommand | geometry | misaligned => decide

/-- A command that packs records BusError only at an access that fails. -/
theorem packThen_failedOnBus {fin : List Planes → State → State} {r : Region} {s : State} (hs : s.errs.err = false)
    (h6 : s.errs.code ≠ 6#4) (h : (s.setLutrdy.packThen r fin).errs.code = 6#4) (hfin : ∀ pb u, (fin pb u).errs = u.errs) :
    FailedOnBus s (s.setLutrdy.packThen r fin) := by
  obtain ⟨-, heq⟩ | ⟨-, -, heq⟩ | ⟨-, -, p, hf, heq⟩ | ⟨-, -, -, pb, b, -, heq⟩ := packThen_cases s.setLutrdy r fin
  · rw [heq, hfin] at h
    exact absurd h h6
  · rw [heq] at h
    exact absurd h (raise_code_ne (s := s.setLutrdy) _ hs (by decide))
  · rw [heq]
    exact (raiseBusError_leaves _ p.1 true s).failedOnBus (memErrAt_of_firstFailing hf)
  · rw [heq, hfin] at h
    exact absurd h h6

/-- Which commands record BusError from an empty record, and when. -/
theorem exec_code_busError {i : Instr} {s t : State} (h : exec i s = .next t) (hs : s.errs.err = false)
    (ht : t.errs.code = 6#4) (h6 : s.errs.code ≠ 6#4) :
    (i = .remap ∨ i = .qsurf8 ∨ i = .packr ∨ i = .pflush ∨ i = .pfull) ∧ FailedOnBus s t := by
  cases i with
  | nop | nearest | dthr | qpix | lutinit | pair | pack8 | mark | clear => cases h; exact absurd ht h6
  | align =>
    obtain ⟨-, rfl⟩ | ⟨r, -, rfl⟩ := execAlign_cases h
    · exact absurd ht (raise_code_ne _ hs (by decide))
    · exact absurd ht h6
  | remap =>
    obtain ⟨-, rfl⟩ | ⟨-, a, ha, rfl⟩ | ⟨-, l, f, -, rfl⟩ := execRemap_cases h
    · exact absurd ht (raise_code_ne _ hs (by decide))
    · obtain ⟨p, rfl, hp⟩ := (remapEntries_stops ..).memErrAt_of_error ha
      exact ⟨by simp, (raise_leaves p.1 s).failedOnBus hp⟩
    · exact absurd ht h6
  | qsurf8 =>
    obtain ⟨-, rfl⟩ | ⟨-, ⟨-, rfl⟩ | ⟨-, a, ha, rfl⟩ | ⟨-, b, -, rfl⟩⟩ := execQsurf8_cases h
    · exact absurd ht h6
    · exact absurd ht (raise_code_ne _ hs (by decide))
    · obtain ⟨p, rfl, hp⟩ := (qsurfLoop_stops ..).memErrAt_of_error ha
      exact ⟨by simp, (raiseBusError_leaves _ p.1 s.lutrdy s).failedOnBus hp⟩
    · exact absurd ht h6
  | packr =>
    obtain ⟨-, rfl⟩ | ⟨r, -, rfl⟩ := execPackr_cases h
    · exact absurd ht (raise_code_ne (s := s.setLutrdy) _ hs (by decide))
    · exact ⟨by simp, packThen_failedOnBus hs h6 ht fun _ _ => rfl⟩
  | pflush =>
    obtain ⟨-, rfl⟩ | ⟨-, -, -, rfl⟩ | ⟨-, -, r, -, rfl⟩ := execPflush_cases h
    · exact absurd ht h6
    · exact absurd ht (raise_code_ne (s := s.setLutrdy) _ hs (by decide))
    · exact ⟨by simp, packThen_failedOnBus hs h6 ht fun pb u => emitRegion_errs r pb u⟩
  | pfull =>
    obtain ⟨-, rfl⟩ | ⟨-, -, rfl⟩ | ⟨-, r, -, rfl⟩ := execPfull_cases h
    · exact absurd ht h6
    · exact absurd ht (raise_code_ne (s := s.setLutrdy) _ hs (by decide))
    · exact ⟨by simp, packThen_failedOnBus hs h6 ht fun pb u => emitRegion_errs r pb u⟩

/-- Settles O41: each of the five loops stops at its first failing access, and a BusError comes from nowhere else. -/
theorem busErrorEffects : Obligations.BusErrorEffects := by
  refine ⟨fun s => remap_endsAtFirstFailing, fun s hm => ⟨qsurf8_endsAtFirstFailing hm, fun hfits => ?packr,
    fun hh hfits => ⟨fun hd => ?pflush, ?pfull⟩⟩, fun i s t h hs ht h6 => ?recorded⟩
  case packr => exact packThen_endsAtFirstFailing (exec_packr_fits hfits) (fun _ _ => rfl) hm
  case pflush =>
    exact packThen_endsAtFirstFailing (exec_pflush_fits hh hd hfits) (fun pb u => emitRegion_errs _ pb u) hm
  case pfull => exact packThen_endsAtFirstFailing (exec_pfull_fits hh hfits) (fun pb u => emitRegion_errs _ pb u) hm
  case recorded =>
    obtain ⟨hi, ⟨a, d⟩, hp, ⟨-, hrec⟩, herr⟩ := exec_code_busError h hs ht h6
    rw [hrec hs]
    refine ⟨hi, rfl, rfl, ?_, herr, (exec_ended h).1, (exec_keeps h).setup, fun x => exec_only h⟩
    cases d with
    | read => exact .inl hp
    | write => exact .inr hp

end Sys2Proof.Machine
end

section
/-! The error record: the first error is kept (R237), and no command looks at it (R242, R243). -/

namespace Sys2Proof.Machine

/-! ### Recording -/

/-- With an error recorded a later one is not (R237). -/
theorem record_of_err {s : State} (h : s.errs.err = true) (e : ErrorKind) (c a : Word) : s.record e c a = s := if_pos h

/-- After a recording ERR is set, by this error or by an earlier one. -/
theorem record_err (e : ErrorKind) (c a : Word) (s : State) : (s.record e c a).errs.err = true := by
  rw [State.record_errs]
  split
  · assumption
  · rfl

/-- Settles O9: what is recorded is recorded once. -/
theorem firstErrorKept : Obligations.FirstErrorKept := by
  refine fun s e e' c c' a a' => ⟨fun h => ?_, fun h => record_of_err h e c a, record_of_err (record_err e c a s) e' c' a'⟩
  rw [State.record_errs, h, if_neg Bool.false_ne_true]

/-! ### Commands do not look at the record -/

/-- The state with another error record. -/
def State.withErrs (e : ErrRec) (s : State) : State := { s with errs := e }

/-- An outcome's next state with another error record. -/
def outcomeWithErrs (e : ErrRec) : Host.Outcome State Fault Refusal → Host.Outcome State Fault Refusal
  | .next t => .next (t.withErrs e)
  | .fault r => .fault r
  | .refused r => .refused r

/-- The states agree in all but the error record. -/
def EqButErrs (s t : State) : Prop := ∃ e, t = s.withErrs e

/-- The outcomes agree in all but the error record of the next state. -/
def OutcomeEqButErrs (o p : Host.Outcome State Fault Refusal) : Prop := ∃ e, p = outcomeWithErrs e o

/-- From states that agree in all but the error record the update leads to such states: whatever record it finds, it does the same
to the rest. -/
def IgnoresRecord (f : State → State) : Prop := ∀ (s : State) (e : ErrRec), EqButErrs (f s) (f (s.withErrs e))

theorem IgnoresRecord.outcome {f : State → State} (hf : IgnoresRecord f) (s : State) (e : ErrRec) :
    OutcomeEqButErrs (.next (f s)) (.next (f (s.withErrs e))) := by
  obtain ⟨e', h⟩ := hf s e
  exact ⟨e', congrArg Host.Outcome.next h⟩

theorem IgnoresRecord.comp {f g : State → State} (hg : IgnoresRecord g) (hf : IgnoresRecord f) :
    IgnoresRecord fun s => g (f s) := fun s e => by
  obtain ⟨e', h⟩ := hf s e
  simp only [h]
  exact hg (f s) e'

/-- Two choices by one condition are related as their branches are. -/
theorem ite_related {α : Type} (R : α → α → Prop) {c : Prop} [Decidable c] {a a' b b' : α} (ha : R a a') (hb : R b b') :
    R (if c then a else b) (if c then a' else b') := by
  split
  · exact ha
  · exact hb

/-! ### The updates commands are made of -/

/-- A recording changes the record alone. -/
theorem record_withErrs (k : ErrorKind) (c a : Word) (s : State) (e : ErrRec) :
    (s.record k c a).withErrs e = s.withErrs e := by
  unfold State.record
  split <;> rfl

theorem ignoresRecord_record (k : ErrorKind) (c a : Word) : IgnoresRecord (State.record k c a) := fun s e => by
  refine ⟨((s.withErrs e).record k c a).errs, ?_⟩
  rw [record_withErrs, State.record]
  split
  · rfl
  · rfl

theorem ignoresRecord_raise (k : ErrorKind) (a : Word) : IgnoresRecord (State.raise k a) := fun s e => by
  obtain ⟨e', h⟩ := ignoresRecord_record k s.cmd.word a s e
  exact ⟨e', congrArg State.complete h⟩

theorem ignoresRecord_raiseBusError (out : Range) (a : Word) : IgnoresRecord (State.raiseBusError out a) := fun s e =>
  ignoresRecord_raise .busError a (s.havocRange out) e

theorem ignoresRecord_emitRegion (r : Region) (pb : List Planes) : IgnoresRecord (State.emitRegion r pb) := fun s e => by
  unfold State.emitRegion
  split
  · exact ⟨e, rfl⟩
  · exact ⟨e, rfl⟩

section withErrs

variable (e : ErrRec) (s : State)

@[simp] theorem withErrs_ops : (s.withErrs e).ops = s.ops := rfl
@[simp] theorem withErrs_cfg : (s.withErrs e).cfg = s.cfg := rfl
@[simp] theorem withErrs_bus : (s.withErrs e).bus = s.bus := rfl
@[simp] theorem withErrs_dirty : (s.withErrs e).dirty = s.dirty := rfl
@[simp] theorem withErrs_setLutrdy : (s.withErrs e).setLutrdy = s.setLutrdy.withErrs e := rfl

/-- Packing does not look at the record when its last part does not. -/
theorem ignoresRecord_packThen {fin : List Planes → State → State} (hfin : ∀ pb, IgnoresRecord (fin pb)) (r : Region) :
    IgnoresRecord (State.packThen r fin) := fun s e => by
  unfold State.packThen
  simp only [withErrs_ops, withErrs_cfg, withErrs_bus]
  refine ite_related EqButErrs (hfin [] s e) (ite_related EqButErrs (ignoresRecord_raise _ _ s e) ?_)
  split
  · exact ignoresRecord_raiseBusError _ _ s e
  · next pb b _ => exact hfin pb ((s.putBus b).addUses _) e

/-! ### Every command -/

theorem execRemap_eqButErrs : OutcomeEqButErrs (execRemap s) (execRemap (s.withErrs e)) := by
  unfold execRemap
  simp only [withErrs_ops, withErrs_cfg, withErrs_bus]
  refine ite_related OutcomeEqButErrs ((ignoresRecord_raise _ _).outcome s e) ?_
  split
  · exact (ignoresRecord_raise _ _).outcome s e
  · exact ⟨e, rfl⟩

theorem execQsurf8_eqButErrs : OutcomeEqButErrs (execQsurf8 s) (execQsurf8 (s.withErrs e)) := by
  unfold execQsurf8
  simp only [withErrs_ops, withErrs_cfg, withErrs_bus]
  refine ite_related OutcomeEqButErrs ⟨e, rfl⟩ (ite_related OutcomeEqButErrs ((ignoresRecord_raise _ _).outcome s e) ?_)
  split
  · exact (ignoresRecord_raiseBusError _ _).outcome s e
  · exact ⟨e, rfl⟩

theorem execAlign_eqButErrs : OutcomeEqButErrs (execAlign s) (execAlign (s.withErrs e)) := by
  unfold execAlign
  simp only [withErrs_ops]
  split
  · exact (ignoresRecord_raise _ _).outcome s e
  · exact ⟨e, rfl⟩

theorem execPackr_eqButErrs : OutcomeEqButErrs (execPackr s) (execPackr (s.withErrs e)) := by
  unfold execPackr
  simp only [withErrs_ops, withErrs_setLutrdy]
  split
  · exact (ignoresRecord_raise _ _).outcome s.setLutrdy e
  · refine (ignoresRecord_packThen (fun _ _ e' => ⟨e', ?_⟩) _).outcome s.setLutrdy e
    rfl

theorem execPflush_eqButErrs : OutcomeEqButErrs (execPflush s) (execPflush (s.withErrs e)) := by
  unfold execPflush
  simp only [withErrs_ops, withErrs_dirty, withErrs_setLutrdy]
  refine ite_related OutcomeEqButErrs ⟨e, rfl⟩ ?_
  split
  · exact (ignoresRecord_raise _ _).outcome s.setLutrdy e
  · next r _ =>
    exact (ignoresRecord_packThen (fun pb => .comp (g := fun u => (u.clearDirty.setResRegion r).complete)
      (fun _ e' => ⟨e', rfl⟩) (ignoresRecord_emitRegion r pb)) r).outcome s.setLutrdy e

theorem execPfull_eqButErrs : OutcomeEqButErrs (execPfull s) (execPfull (s.withErrs e)) := by
  unfold execPfull
  simp only [withErrs_ops, withErrs_setLutrdy]
  refine ite_related OutcomeEqButErrs ⟨e, rfl⟩ ?_
  split
  · exact (ignoresRecord_raise _ _).outcome s.setLutrdy e
  · next r _ =>
    exact (ignoresRecord_packThen (fun pb => .comp (g := fun u => (u.setResRegion r).complete)
      (fun _ e' => ⟨e', rfl⟩) (ignoresRecord_emitRegion r pb)) r).outcome s.setLutrdy e

/-- No command looks at the error record: where it raises an error, only the recording does. -/
theorem exec_eqButErrs (i : Instr) : OutcomeEqButErrs (exec i s) (exec i (s.withErrs e)) := by
  cases i with
  | nop | nearest | dthr | qpix | lutinit | pair | pack8 | mark | clear => exact ⟨e, rfl⟩
  | remap => exact execRemap_eqButErrs e s
  | qsurf8 => exact execQsurf8_eqButErrs e s
  | align => exact execAlign_eqButErrs e s
  | packr => exact execPackr_eqButErrs e s
  | pflush => exact execPflush_eqButErrs e s
  | pfull => exact execPfull_eqButErrs e s

end withErrs

/-- Settles O51: the outcomes for the two records differ in the record alone. -/
theorem errorRecordDoesNotBlock : Obligations.ErrorRecordDoesNotBlock := by
  intro i s t e h
  obtain ⟨e', h'⟩ := exec_eqButErrs e s i
  exact ⟨e', h'.trans (congrArg (outcomeWithErrs e') h)⟩

end Sys2Proof.Machine
end

section
/-! What host reads show of RES0, RES1, the dirty registers and LUTRDY between a CMD write and the STATUS read that returns BUSY = 0
(R265). -/

namespace Sys2Proof.Machine

/-- RES0, RES1 and the dirty registers read as what is shown (R265): equal where the same is shown. -/
theorem readReg_of_shown_eq {s t : State} (h : t.shown = s.shown) {r : Reg}
    (hr : r ∈ [Reg.res0, .res1, .dirtyX, .dirtyY, .dirtyW, .dirtyH]) : readReg t r = readReg s r := by
  cases r with
  | res0 | res1 | dirtyX | dirtyY | dirtyW | dirtyH => simp only [readReg, h]
  | _ => simp at hr

/-- A CMD write shows what was shown before it. -/
theorem shown_accept (c : Word) (s : State) : (s.accept c).shown = s.shown := shown_of_held (State.accept_held c s)

/-- After a STATUS read with BUSY = 0 the registers themselves are shown (R265). -/
theorem held_afterRead_status {s : State} (h : s.busy = false) : (afterRead s .status).held = none := by
  rw [afterRead_status_idle h]

theorem shown_afterRead_status {s : State} (h : s.busy = false) :
    (afterRead s .status).shown = { res0 := s.res0, res1 := s.res1, lutrdy := s.lutrdy, dirty := s.dirty } := by
  rw [shown_of_not_held (held_afterRead_status h), afterRead_status_idle h]

/-- Settles O13: acceptance holds what is shown, execution keeps what is held, and the STATUS read with BUSY = 0 drops it. -/
theorem earlyReadsShowPreviousValues : Obligations.EarlyReadsShowPreviousValues := by
  intro s t c r hb hheld hr
  rw [writeReg_cmd_idle hb]
  have hlut : (s.accept c).lutrdyByStatus = s.lutrdy := by
    rw [lutrdyByStatus_busy rfl, shown_accept, shown_of_not_held hheld]
  refine ⟨readReg_of_shown_eq (shown_accept c s) hr, (status_getLsbD _ 1).trans hlut, status_getLsbD _ 2, fun hexec => ?_⟩
  obtain ⟨t', hexec', hidle, hset⟩ := executeLatched_completes (s.accept c)
  obtain rfl : t' = t := Host.Outcome.next.inj (hexec'.symm.trans hexec)
  obtain ⟨-, -, -, -, -, hheld', -⟩ := hset
  have hshown : t'.shown = s.shown := shown_of_held hheld'
  refine ⟨readReg_of_shown_eq hshown hr, (status_busy t').trans hidle.busy,
    (status_getLsbD t' 1).trans (lutrdyByStatus_idle hidle.busy), status_getLsbD t' 2, held_afterRead_status hidle.busy, ?_⟩
  simp only [readReg, shown_afterRead_status hidle.busy, and_self]

end Sys2Proof.Machine
end

section
/-! The reset input (R260–R262): with BUSY = 0 it clears BDQ, with BUSY = 1 it discards the latched command first. -/

namespace Sys2Proof.Machine

/-- The reset input makes STATUS, RES0, RES1 and the dirty registers read as in the reset state: as 0 (R22, R260). -/
theorem readReg_clearBdq (s : State) {r : Reg} (hr : r ∈ [Reg.status, .res0, .res1, .dirtyX, .dirtyY, .dirtyW, .dirtyH]) :
    readReg s.clearBdq r = 0#32 := by
  obtain ⟨-, -, -, -, hzero, -⟩ := resetValues
  have hreset : readReg s.clearBdq r = readReg State.reset r := by
    cases r with
    | status | res0 | res1 | dirtyX | dirtyY | dirtyW | dirtyH => rfl
    | _ => simp at hr
  exact hreset.trans (hzero r (List.Sublist.subset (by decide) hr))

theorem resetInput_idle {s : State} (h : s.busy = false) : s.resetInput = s.clearBdq := by
  simp [State.resetInput, h]

theorem resetInput_busy {s : State} (h : s.busy = true) : s.resetInput = s.abort.clearBdq := by
  simp [State.resetInput, h]

/-- Settles O48: the step is the host's, and its action clears BDQ. -/
theorem resetInputClears : Obligations.ResetInputClears := by
  intro s rest hb hh
  have hstep : step s = .next ({ s with host := rest } : State).clearBdq :=
    ((step_idle hb).trans (hostStep_cons hh)).trans (congrArg _ (resetInput_idle (s := { s with host := rest }) hb))
  exact ⟨_, hstep, rfl, rfl, rfl, rfl, rfl, rfl, rfl, rfl, fun r hr => readReg_clearBdq _ hr, fun _ => rfl, rfl, rfl⟩

/-- What reset makes of a command that would end in t': a first part of its events is delivered and its output range holds free
values (R262). -/
theorem abort_of_executes {s t' : State} (h : executeLatched { s with freeCtr := s.freeCtr + 1 } = .next t') :
    s.abort = State.havocRanges (wordReach s.ops s.dirty s.cmd.word).writes
      (({ s with freeCtr := t'.freeCtr } : State).emit
        ((t'.events.drop s.events.length).take (Config.freeCount s.freeCtr))) := by
  simp [State.abort, pendingEvents, h]

theorem abort_host (s : State) : s.abort.host = s.host := by
  obtain ⟨-, -, hhost, -⟩ := (abort_keeps s).setup
  exact hhost

/-- A discarded command changes no byte outside its output range (R262). -/
theorem abort_other {s : State} {a : Word} (ha : coveredBy (wordReach s.ops s.dirty s.cmd.word).writes a = false) :
    byteAt s.abort.mem a = byteAt s.mem a := by
  obtain ⟨t', h, -⟩ := executeLatched_completes { s with freeCtr := s.freeCtr + 1 }
  rw [abort_of_executes h]
  exact (OnlyChanges.havocRanges _ _).1 a (Bool.eq_false_iff.mp ha)

/-- The events after a discarded command are those before it and a first part of its own (R262). -/
theorem abort_events {s t' : State} (h : executeLatched { s with freeCtr := s.freeCtr + 1 } = .next t') :
    s.abort.events = t'.events.take (s.events.length + Config.freeCount s.freeCtr) := by
  obtain ⟨es, hes⟩ : s.events <+: t'.events := (executeLatched_keeps h).events
  rw [abort_of_executes h, havocRanges_field State.events (fun _ _ => rfl), State.emit_events, ← hes, List.drop_left,
    List.take_length_add_append]

/-- Settles O49: the step is the host's, and its action discards the latched command and clears BDQ. -/
theorem resetDuringCommand : Obligations.ResetDuringCommand := by
  intro s l rest ts hl hts hh
  have hb : s.busy = true := congrArg Option.isSome hl
  have hstep : step s = .next ({ s with turns := ts, host := rest } : State).abort.clearBdq :=
    ((step_host_turn hb hts).trans (hostStep_cons (s := { s with turns := ts }) hh)).trans
      (congrArg _ (resetInput_busy (s := { s with turns := ts, host := rest }) hb))
  obtain ⟨t', hexec, -⟩ := executeLatched_completes { s with turns := ts, host := rest, freeCtr := s.freeCtr + 1 }
  refine ⟨_, t', _, hstep, rfl, rfl, rfl, rfl, rfl, rfl, rfl, abort_host _, rfl, fun r hr => readReg_clearBdq _ hr,
    fun a ha => ?other, hexec, abort_events (s := { s with turns := ts, host := rest }) hexec, ?before⟩
  case other =>
    rw [← cmd_of_latch hl] at ha
    exact abort_other (s := { s with turns := ts, host := rest }) ha
  case before => exact (abort_keeps { s with turns := ts, host := rest }).events.length_le

end Sys2Proof.Machine
end

section
/-! A race (R266, R71 c): the byte and exactly the results that depend on it hold free values. -/

namespace Sys2Proof.Machine

theorem ResultKept.refl (s : State) (r : Result) : ResultKept s s r := by
  cases r with
  | nibble j => exact fun _ => rfl
  | byte a => rfl
  | eventByte i c => exact fun o bs h => ⟨bs, h, rfl⟩

/-- Nothing but byte a itself is raced before the first result is looked at. -/
theorem racedBefore_zero (us : List Use) (a b : Word) : b ∈ [a] ↔ RacedBefore us a 0 b := by
  simp [RacedBefore]

/-- A race frees its byte and what depends on it, and touches nothing else. -/
theorem racedAt_raceByte {s : State} (hwf : Memory.wf s.mem = true) (a : Word) : RacedAt s (s.raceByte a) a := by
  obtain ⟨hlisted, hinv, hfree⟩ := freeDependents_spec s.uses (s.freeResult (.byte a)) rfl (racedBefore_zero s.uses a)
  have hwf' : Memory.wf (s.freeResult (.byte a)).mem = true := freeResult_wf _ hwf
  have hle : s.freeCtr ≤ (s.freeResult (.byte a)).freeCtr := by simp
  obtain ⟨hcfg, hregs, -, -, hlutrdy, hdirty, herrs, hlatch, -, -, hhost, -, hturns, hheld, hhazard, -, huses, -⟩ :=
    State.mk.inj (raceByte_keeps (hostKeeps_apart s) a s rfl)
  refine ⟨?byte, fun n u hu hd => hfree s hle hwf' n u n.zero_le hu hd, fun r hra hr => ?kept, fun b => ?raced,
    raceByte_keeps (hostKeeps_shapes _) a s rfl, hcfg, hregs, hlutrdy, hdirty, herrs, hlatch, hheld, hhazard, huses, hhost,
    hturns⟩
  case byte =>
    exact (hinv (fun x => Memory.wf x.mem = true ∧ FreeIn s x (.byte a))
      (fun r x _ hx => ⟨freeResult_wf r hx.1, freeResult_keeps_free hx.1 hx.2 r⟩)
      ⟨hwf', freeResult_frees (Nat.le_refl _) hwf _⟩).2
  case kept =>
    have hkept := hinv (fun x => ResultKept s x r) (fun r' x ⟨n, u, hu, hd, he⟩ hx => freeResult_keeps hx (he ▸ hr n u hu hd))
      (freeResult_keeps (.refl s r) hra.symm)
    cases r <;> exact hkept
  case raced =>
    cases hb : s.busy with
    | false => simp [State.raceByte, hb]
    | true =>
      simp only [State.raceByte, hb, if_true, List.mem_append, hlisted, true_and]
      exact or_comm

theorem raceByte_vars (s : State) (a : Word) : (s.raceByte a).vars = s.vars :=
  (congrArg State.vars (raceByte_keeps (hostKeeps_apart s) a s rfl) :)

/-- A free value used after the counter moved is one used since before it did. -/
theorem FreeIn.of_count {s t : State} {r : Result} (h : FreeIn { s with freeCtr := s.freeCtr + 1 } t r) : FreeIn s t r := by
  obtain ⟨n, hle, hlt, hval⟩ := h
  exact ⟨n, Nat.le_of_succ_le hle, hlt, hval⟩

/-- A race counts from before the free value that the load itself returned. -/
theorem RacedAt.of_count {s t : State} {a : Word} (h : RacedAt { s with freeCtr := s.freeCtr + 1 } t a) : RacedAt s t a := by
  obtain ⟨hbyte, hfree, hkept, hrest⟩ := h
  refine ⟨hbyte.of_count, fun n u hu hd => (hfree n u hu hd).of_count, fun r hra hr => ?_, hrest⟩
  have hr' := hkept r hra hr
  cases r <;> exact hr'

/-- A store that R266 forbids is a race and not a store (R71 c). -/
theorem hostPutByte_guarded {s : State} {a : Word} (h : coveredBy s.hazard.reads a = true ∨ coveredBy s.hazard.writes a = true)
    (v : Byte) : hostPutByte s a v = s.raceByte a :=
  if_pos ((Bool.or_eq_true _ _).mpr h)

/-- A load of an output byte that R266 forbids returns a free value and is a race (R71 c, I6). -/
theorem hostLoad_byte_guarded {s : State} {a : Word} (h : touchesWindow s.cfg a .byte = false)
    (hw : coveredBy s.hazard.writes a = true) (x : Nat) :
    hostLoad a .byte x s = .next ((State.raceByte a { s with freeCtr := s.freeCtr + 1 }).bindVar x
      ((Config.freeByte s.freeCtr).zeroExtend 32)) := by
  rw [hostLoad_memory h]
  simp [accessBytes, hostGet, hostByte, hw, afterHostByte]

/-- Settles O58: either access is a race at its byte, and the load's own value is the free one before those of the race. -/
theorem raceFreesDependents : Obligations.RaceFreesDependents := by
  refine fun s a hwf hwin => ⟨fun v hguarded => ?store, fun x hw => ?load⟩
  case store =>
    exact ⟨_, (hostStore_byte hwin v).trans (congrArg _ (hostPutByte_guarded hguarded _)), racedAt_raceByte hwf a,
      raceByte_vars s a⟩
  case load =>
    have hraced := racedAt_raceByte (s := { s with freeCtr := s.freeCtr + 1 }) hwf a
    obtain ⟨n, hle, hlt, -⟩ := hraced.1
    refine ⟨_, s.freeCtr, hostLoad_byte_guarded hwin hw x, hraced.of_count, Nat.le_refl _, Nat.lt_trans hle hlt, ?_⟩
    rw [State.bindVar_vars, raceByte_vars]

end Sys2Proof.Machine
end

section
/-! What an accepted command guards (R266): the bytes of its accesses in pseudocode order. -/

namespace Sys2Proof.Machine

/-- A command whose read base is misaligned reads nothing (R235). -/
theorem coveredBy_aligned {base : Word} {rs : List Range} {a : Word} :
    coveredBy (if misaligned4 base then [] else rs) a = true ↔ base.toNat % 4 = 0 ∧ coveredBy rs a = true := by
  by_cases h : base.toNat % 4 = 0
  · simp [h, misaligned4_eq_true]
  · simp [h, misaligned4_eq_true, coveredBy]

/-- The bytes that 4-byte reads among the accesses cover (R10, R65). -/
theorem exists_read {as : List Access} {a : Word} :
    (∃ p ∈ as, p.2 = Dir.read ∧ (a - p.1).toNat < 4) ↔ ∃ q, (q, Dir.read) ∈ as ∧ (a - q).toNat < 4 :=
  ⟨fun ⟨⟨_, _⟩, hp, rfl, h⟩ => ⟨_, hp, h⟩, fun ⟨_, hq, h⟩ => ⟨_, hq, rfl, h⟩⟩

/-! ### The accesses by their direction -/

theorem read_mem_remapAccesses {g : Regs} {q : Word} :
    (q, Dir.read) ∈ remapAccesses g ↔ ∃ j, j < remapCount g ∧ q = remapAddr g j := by
  simp [remapAccesses, remapCount, remapAddr, eq_comm]

theorem write_notMem_remapAccesses {g : Regs} {a : Word} : (a, Dir.write) ∉ remapAccesses g := by
  simp [remapAccesses]

theorem read_mem_qsurfAccesses {g : Regs} {q : Word} :
    (q, Dir.read) ∈ qsurfAccesses g ↔ ∃ y, y < g.surfH.toNat ∧ ∃ x, x < g.surfW.toNat ∧ q = pixAddr g x y := by
  simp [qsurfAccesses]

theorem write_mem_qsurfAccesses {g : Regs} {a : Word} :
    (a, Dir.write) ∈ qsurfAccesses g ↔ ∃ y, y < g.surfH.toNat ∧ ∃ x, x < g.surfW.toNat ∧ a = qsurfAddr g x y := by
  simp [qsurfAccesses, qsurfAddr]

theorem read_mem_packAccesses {g : Regs} {r : Region} {q : Word} :
    (q, Dir.read) ∈ packAccesses g r ↔
      ∃ y, y < r.h ∧ ∃ c, c < rowBytes r ∧ ∃ i, i < 8 ∧ q = pixAddr g (r.x + 8 * c + i) (r.y + y) := by
  simp [packAccesses, rowBytes, eq_comm]

theorem write_mem_packAccesses {g : Regs} {r : Region} {a : Word} :
    (a, Dir.write) ∈ packAccesses g r ↔ ∃ y, y < r.h ∧ ∃ c, c < rowBytes r ∧ ∃ k, k < 4 ∧ a = packAddr g r k c y := by
  simp [packAccesses, packAddr, rowBytes, planeSize, eq_comm]

/-! ### Each command guards the bytes of its accesses -/

theorem guards_remap (g : Regs) (d : Dirty) : Guards (reachOf g d .remap) g.arg0 (remapAccesses g) := by
  refine fun a => ⟨?reads, ?writes⟩
  case reads =>
    simp only [reachOf, coveredBy_aligned, coveredBy_singleton, covers_words, exists_read, read_mem_remapAccesses]
    refine and_congr_right fun _ => ⟨fun ⟨j, hj, h⟩ => ⟨_, ⟨j, hj, rfl⟩, h⟩, ?_⟩
    rintro ⟨_, ⟨j, hj, rfl⟩, h⟩
    exact ⟨j, hj, h⟩
  case writes => exact iff_of_false Bool.false_ne_true write_notMem_remapAccesses

theorem guards_qsurf8 (g : Regs) (d : Dirty) : Guards (reachOf g d .qsurf8) g.surfBase (qsurfAccesses g) := by
  refine fun a => ⟨?reads, ?writes⟩
  case reads =>
    simp only [reachOf, coveredBy_aligned, coveredBy_singleton, surfaceRange_pixel, exists_read, read_mem_qsurfAccesses]
    refine and_congr_right fun _ => ⟨fun ⟨x, y, hx, hy, h⟩ => ⟨_, ⟨y, hy, x, hx, rfl⟩, h⟩, ?_⟩
    rintro ⟨_, ⟨y, hy, x, hx, rfl⟩, h⟩
    exact ⟨x, y, hx, hy, h⟩
  case writes =>
    simp only [reachOf, coveredBy_singleton, qsurfOut_pixel, write_mem_qsurfAccesses]
    exact ⟨fun ⟨x, y, hx, hy, h⟩ => ⟨y, hy, x, hx, h⟩, fun ⟨y, hy, x, hx, h⟩ => ⟨x, y, hx, hy, h⟩⟩

/-- Pixels of a region of whole columns belong to a column each: pixel i to column i / 8. -/
theorem regionReads_column {g : Regs} {r : Region} (h8 : r.w % 8 = 0) {a : Word} :
    coveredBy (regionReads g r) a = true ↔
      ∃ y, y < r.h ∧ ∃ c, c < rowBytes r ∧ ∃ i, i < 8 ∧ (a - pixAddr g (r.x + 8 * c + i) (r.y + y)).toNat < 4 := by
  rw [regionReads_pixel]
  refine exists_congr fun y => and_congr_right fun _ => ⟨fun ⟨i, hi, h⟩ => ?_, fun ⟨c, hc, i, hi, h⟩ => ?_⟩
  · refine ⟨i / 8, Nat.div_lt_of_lt_mul ?_, i % 8, Nat.mod_lt i (by decide), ?_⟩
    · rw [rowBytes]; omega
    · rwa [Nat.add_assoc, Nat.div_add_mod]
  · rw [rowBytes] at hc
    exact ⟨8 * c + i, by omega, by rwa [← Nat.add_assoc]⟩

/-- A command that packs a region of whole columns guards the bytes of PackRegion's accesses, none where there is no column. -/
theorem guards_packReach {g : Regs} {r : Region} (h8 : r.w % 8 = 0) :
    Guards (packReach g (some r)) g.surfBase (packAccesses g r) := by
  by_cases hw : r.w = 0
  · rw [packReach, if_pos hw, packAccesses_of_empty g hw]
    simp [Guards, Footprint.empty, coveredBy]
  rw [packReach, if_neg hw]
  refine fun a => ⟨?reads, ?writes⟩
  case reads =>
    simp only [coveredBy_aligned, regionReads_column h8, exists_read, read_mem_packAccesses]
    refine and_congr_right fun _ => ⟨fun ⟨y, hy, c, hc, i, hi, h⟩ => ⟨_, ⟨y, hy, c, hc, i, hi, rfl⟩, h⟩, ?_⟩
    rintro ⟨_, ⟨y, hy, c, hc, i, hi, rfl⟩, h⟩
    exact ⟨y, hy, c, hc, i, hi, h⟩
  case writes =>
    simp only [coveredBy_singleton, packOut_planes, write_mem_packAccesses]
    exact ⟨fun ⟨k, c, y, hk, hc, hy, h⟩ => ⟨y, hy, c, hc, k, hk, h⟩, fun ⟨y, hy, c, hc, k, hk, h⟩ => ⟨k, c, y, hk, hc, hy, h⟩⟩

theorem reachOf_packr_fits {g : Regs} (h : SurfaceFits g) (d : Dirty) :
    reachOf g d .packr = packReach g (some (requestedRegion g)) := by
  rw [reachOf, argRegion_eq_some.mpr ⟨h, rfl⟩]

theorem reachOf_pflush_fits {g : Regs} {d : Dirty} (hh : g.hsen = true) (hd : d.dv = true) (h : FlushFits g) :
    reachOf g d .pflush = packReach g (some (pendingRegion g d)) := by
  simp [reachOf, hh, hd, dirtyRegion_eq_some.mpr ⟨h, rfl⟩]

theorem reachOf_pfull_fits {g : Regs} (hh : g.hsen = true) (h : FlushFits g) (d : Dirty) :
    reachOf g d .pfull = packReach g (some (wholeScreen g)) := by
  simp [reachOf, hh, screenRegion_eq_some.mpr ⟨h, rfl⟩]

/-- A command that reaches no memory, with these operands or with any, guards nothing. -/
theorem reachOf_eq_empty {g : Regs} {d : Dirty} {i : Instr}
    (h : i ∉ [Instr.remap, .qsurf8, .packr, .pflush, .pfull] ∨ (i = .packr ∧ ¬ SurfaceFits g) ∨
      (i = .pflush ∧ ¬ (g.hsen = true ∧ d.dv = true ∧ FlushFits g)) ∨ (i = .pfull ∧ ¬ (g.hsen = true ∧ FlushFits g))) :
    reachOf g d i = Footprint.empty := by
  obtain hi | ⟨rfl, hn⟩ | ⟨rfl, hn⟩ | ⟨rfl, hn⟩ := h
  · cases i with
    | remap | qsurf8 | packr | pflush | pfull => simp at hi
    | _ => rfl
  · rw [reachOf, argRegion_eq_none hn, packReach]
  · rw [reachOf]
    split
    · next hc =>
      obtain ⟨hh, hd⟩ := (Bool.and_eq_true _ _).mp hc
      rw [dirtyRegion_eq_none (fun hf => hn ⟨hh, hd, hf⟩), packReach]
    · rfl
  · rw [reachOf]
    split
    · next hh => rw [screenRegion_eq_none (fun hf => hn ⟨hh, hf⟩), packReach]
    · rfl

/-- What a CMD write adds to the guarded bytes is what its word reaches (R266). -/
theorem wordReach_decoded {c : Word} {i : Instr} (h : decode c = .ok i) (g : Regs) (d : Dirty) :
    wordReach g d c = reachOf g d i := by
  simp [wordReach, h]

theorem wordReach_undecoded {c : Word} {e : DecodeError} (h : decode c = .error e) (g : Regs) (d : Dirty) :
    wordReach g d c = Footprint.empty := by
  simp [wordReach, h]

/-- Settles O60: acceptance joins what the word reaches, and each command's ranges are followed to its accesses. -/
theorem acceptanceGuardsItsBytes : Obligations.AcceptanceGuardsItsBytes := by
  refine ⟨fun s c hb => ?accept, fun g d => ⟨guards_remap g d, guards_qsurf8 g d, fun hf => ?packr, fun hh hd hf => ?pflush,
    fun hh hf => ?pfull, fun i => reachOf_eq_empty⟩⟩
  case accept =>
    rw [writeReg_cmd_idle hb, State.accept_hazard]
    refine ⟨fun i hi => ?_, fun e he => ?_⟩
    · rw [wordReach_decoded hi]
      exact ⟨rfl, rfl⟩
    · rw [wordReach_undecoded he]
      simp [Footprint.join, Footprint.empty]
  case packr =>
    rw [reachOf_packr_fits hf]
    exact guards_packReach (regionIn_requested hf).w8
  case pflush =>
    rw [reachOf_pflush_fits hh hd hf]
    exact guards_packReach (regionIn_pending hf d).w8
  case pfull =>
    rw [reachOf_pfull_fits hh hf]
    exact guards_packReach (regionIn_wholeScreen hf).w8

end Sys2Proof.Machine
end
